-- ==== Sys2Proof/Word.lean ====
section
/-! DEFINITION. The value types of the FSK block (00_scope.md R11, R12; 20_memory.md R54).

Only what the spec treats as a word of bits is a bit vector: bytes of a message, the command word, the 4-bit cause
codes and the 32-bit words of the seed and the generator. Symbols and counts are natural numbers, frequencies and
samples are exact rationals, bits are Booleans. -/

namespace Sys2Proof

/-- A byte of a message or a command word (00_scope.md R11; 30_encoding.md R84). -/
abbrev Byte := BitVec 8

/-- A 32-bit word: the seed, the generator value, a word of SHA-256 (41_seed_derivation.md R133, R138). -/
abbrev Word32 := BitVec 32

/-- A 4-bit cause code (60_exceptions.md R260). -/
abbrev Code := BitVec 4

/-- A symbol, an unsigned value below `S = 2^BPT` (00_scope.md R15). -/
abbrev Symbol := Nat

/-- A frequency in Hz, an exact rational (10_state.md R31, FREQ_FMT, log 2). -/
abbrev Freq := Rat

/-- One audio sample or one spectral magnitude, a rational (20_memory.md R50, R51; PCM_FMT and NUM, logs 1 and 3). -/
abbrev Sample := Rat

/-- A bit of a bit sequence (00_scope.md R12): `true` is 1. -/
abbrev Bit := Bool

end Sys2Proof
end

