-- ==== Sys2Proof/Syntax.lean ====
section
/-! DEFINITION. The fourteen commands, and the typed values of the OPERAND and RESULT ports
(30_encoding.md R83, R84, R86, R94; 20_memory.md R54).

The command word holds the opcode and nothing else; operands travel on the OPERAND port. So a constructor of `Instr`
has no argument, and the meaning of a command reads its operand from the state. -/

namespace Sys2Proof

/-- The fourteen commands of 30_encoding.md R86, one constructor for each row of the opcode table. -/
inductive Instr where
  | nop | init | mapfwd | maprev | classify | render | encode | send
  | detect | rxstep | rxchunk | receive | stop | reset
  deriving DecidableEq, Repr

/-- A detector result: silence, or a tone with its frequency and its power (30_encoding.md R83). -/
inductive Detection where
  | silence
  | tone (frequency : Freq) (power : Sample)
  deriving DecidableEq, Repr

/-- The outcome tag of one receiver step (30_encoding.md R94). -/
inductive StepTag where
  | idleSilence
  | aborted
  | ignored
  | shifted
  | synced
  | data (n : Nat)
  | completed
  deriving DecidableEq, Repr

/-- A value on the OPERAND port (20_memory.md R54; the operand column of 30_encoding.md R86). -/
inductive Operand where
  | none
  | symbol (s : Symbol)
  | frequency (f : Freq)
  | bytes (m : List Byte)
  | chunk (c : List Sample)
  | detection (d : Detection)
  deriving DecidableEq, Repr

/-- A value on the RESULT port (20_memory.md R54; the result column of 30_encoding.md R86). -/
inductive ResultVal where
  | none
  | frequency (f : Freq)
  | symbol (s : Symbol)
  | notMapped
  | unclassifiable
  | samples (y : List Sample)
  | symbols (q : List Symbol)
  | detection (d : Detection)
  | tag (t : StepTag)
  deriving DecidableEq, Repr

/-- What the host puts on the command port: a command word, and the value it puts on the OPERAND port with it
(30_encoding.md R84, R93). -/
structure Command where
  word : Byte
  operand : Operand
  deriving DecidableEq, Repr

end Sys2Proof
end

