-- ==== Sys2Proof/WellFormed.lean ====
section
/-! DEFINITION. Which commands are well formed before any state is looked at: the word is none of the reserved ones
(30_encoding.md R88) and the operand has the type the opcode map gives the command, with a tone's frequency and power
not negative (30_encoding.md R86, R87; 93_implementation_defined.md U4).

The two checks of 30_encoding.md R87 that need the configuration (`s < S`, `len(c) = N`) are made by the machine, in
`Sys2Proof/Machine/Operands.lean`. -/

namespace Sys2Proof

/-- The kinds of operand of the opcode map (30_encoding.md R86). -/
inductive OperandKind where
  | nothing | symbol | frequency | bytes | chunk | detection
  deriving DecidableEq, Repr

/-- The operand column of 30_encoding.md R86. -/
def Instr.operandKind : Instr → OperandKind
  | .nop => .nothing
  | .init => .nothing
  | .mapfwd => .symbol
  | .maprev => .frequency
  | .classify => .frequency
  | .render => .frequency
  | .encode => .bytes
  | .send => .bytes
  | .detect => .chunk
  | .rxstep => .detection
  | .rxchunk => .nothing
  | .receive => .nothing
  | .stop => .nothing
  | .reset => .nothing

/-- A detector result is well formed when it is silence or a tone with frequency and power not negative
(30_encoding.md R83, R87). -/
def Detection.wellFormed : Detection → Bool
  | .silence => true
  | .tone f p => decide (0 ≤ f) && decide (0 ≤ p)

/-- The operand fits the kind the command takes. A command without operand does not look at the port. -/
def OperandKind.admits : OperandKind → Operand → Bool
  | .nothing, _ => true
  | .symbol, .symbol _ => true
  | .frequency, .frequency _ => true
  | .bytes, .bytes _ => true
  | .chunk, .chunk _ => true
  | .detection, .detection d => d.wellFormed
  | _, _ => false

/-- A command with its operand is well formed (30_encoding.md R87, without the checks that need the configuration). -/
def Instr.wellFormed (i : Instr) (op : Operand) : Bool := i.operandKind.admits op

/-- The reserved command words: `0x0D`, `0x0E` and `0x10` to `0xFF` (30_encoding.md R88). -/
def reservedWord (w : Byte) : Bool := w == 0x0D#8 || w == 0x0E#8 || decide (0x10 ≤ w.toNat)

end Sys2Proof
end

