-- ==== Sys2Proof/Decode.lean ====
section
/-! DEFINITION. The decoder of the 8-bit command word, total on all 256 values, and the encoder
(30_encoding.md R84 to R89). -/

namespace Sys2Proof

/-- Why the decoder rejects a word. -/
inductive DecodeError where
  /-- The word is one of the 242 reserved opcodes (30_encoding.md R88). -/
  | reservedOpcode (w : Byte)
  deriving DecidableEq, Repr

/-- The opcode map of 30_encoding.md R86. Every other value is reserved (R88). -/
def decode (w : Byte) : Except DecodeError Instr :=
  if w = 0x00#8 then .ok .nop
  else if w = 0x01#8 then .ok .init
  else if w = 0x02#8 then .ok .mapfwd
  else if w = 0x03#8 then .ok .maprev
  else if w = 0x04#8 then .ok .classify
  else if w = 0x05#8 then .ok .render
  else if w = 0x06#8 then .ok .encode
  else if w = 0x07#8 then .ok .send
  else if w = 0x08#8 then .ok .detect
  else if w = 0x09#8 then .ok .rxstep
  else if w = 0x0A#8 then .ok .rxchunk
  else if w = 0x0B#8 then .ok .receive
  else if w = 0x0C#8 then .ok .stop
  else if w = 0x0F#8 then .ok .reset
  else .error (.reservedOpcode w)

/-- The command word of a command (30_encoding.md R86). -/
def encode : Instr → Byte
  | .nop => 0x00#8
  | .init => 0x01#8
  | .mapfwd => 0x02#8
  | .maprev => 0x03#8
  | .classify => 0x04#8
  | .render => 0x05#8
  | .encode => 0x06#8
  | .send => 0x07#8
  | .detect => 0x08#8
  | .rxstep => 0x09#8
  | .rxchunk => 0x0A#8
  | .receive => 0x0B#8
  | .stop => 0x0C#8
  | .reset => 0x0F#8

/-- The command that the decoder reads from an opcode-table row's word `w` of `nbits` bits. A command is one 8-bit
word (30_encoding.md R84); a number that does not fit in eight bits is no command word. -/
def decodeTableWord (nbits w : Nat) : Option Instr :=
  if nbits ≤ 8 ∧ w < 256 then
    match decode (BitVec.ofNat 8 w) with
    | .ok i => some i
    | .error _ => none
  else none

end Sys2Proof
end

