-- ==== Sys2Proof/Config.lean ====
section
/-! DEFINITION. What is fixed for the hardware: the constants the source states (00_scope.md R8), the type of the
parameters the source leaves to the implementation (00_scope.md R10), and the free values.

A free value is an `opaque` constant without a body: no proof can learn anything about it, so a claim that holds holds
whatever the value is. Each is confined by the definition that uses it to what the spec fixes. -/

namespace Sys2Proof.Config

/-- `FS`, samples per second (00_scope.md R8). -/
def sampleRate : Nat := 48000

/-- `START_MARKER` (00_scope.md R8). -/
def startMarker : Byte := 0x02#8

/-- `END_MARKER` (00_scope.md R8). -/
def endMarker : Byte := 0x03#8

/-- `PRE_BASE`, the two symbols the preamble repeats (00_scope.md R8). -/
def preambleBase : List Symbol := [10, 5]

/-- `CLIP_GAIN`, the gain before hard clipping (00_scope.md R8). -/
def clipGain : Rat := 3 / 2

/-- `OUT_SCALE`, 95% of full scale (00_scope.md R8). -/
def outScale : Rat := 19 / 20

/-- The window form, parameter `HANN_FORM` (00_scope.md R10; 42_tone_synthesizer.md R154, R163). -/
inductive HannForm where
  | symmetric
  | periodic
  deriving DecidableEq, Repr

/-- The parameters that an implementation fixes and no operation writes (00_scope.md R10, log 4). A capacity is a
natural number, or `none` for unbounded (92_eei_decisions.md D20). -/
structure Params where
  hannForm : HannForm
  /-- `MSG_CAP`, in characters. -/
  msgCap : Option Nat
  /-- `TX_CAP` of the sender's symbol buffer, in symbols (60_exceptions.md R270; log 5). -/
  txCap : Option Nat
  /-- `TX_CAP` of the sender's waveform buffer, in samples (60_exceptions.md R270; log 5). -/
  txSampleCap : Option Nat
  deriving DecidableEq, Repr

/-- The values of the reference model: symmetric window, unbounded capacities (92_eei_decisions.md D12, D20). -/
def referenceParams : Params := { hannForm := .symmetric, msgCap := none, txCap := none, txSampleCap := none }

/-- FREE VALUE (log 1). What the implementation's sine answers at `t` turns where the real sine is irrational. It is
used only through `Machine.sinQuarter`, which confines it to the neighbourhood of the real value. -/
opaque sineValue : Rat → Rat

/-- FREE VALUE (log 1). What the implementation's square root answers at `q` where the real root is irrational. It is
used only through `Machine.sqrtNum`, which confines it to the neighbourhood of the real value. -/
opaque rootValue : Rat → Rat

/-- FREE VALUE (log 15). How many samples of an unfinished transfer stand on the TX port after the `k`-th hardware reset
that came in the middle of SEND (93_implementation_defined.md U15). -/
opaque txLeftover : Nat → Nat

end Sys2Proof.Config
end

