-- ==== Sys2Proof/Machine/State.lean ====
section
/-! DEFINITION. The state of the FSK block as plain data (10_state.md), with its ports (20_memory.md) and the host's
moves still to come (00_scope.md R17), and the state after power-up and reset (10_state.md R45). -/

namespace Sys2Proof.Machine

open Sys2Proof.Config

/-- A fault stops the machine. NO CONSTRUCTOR: every cause the spec gives the block, the fatal ones too, is a next state
(60_exceptions.md R272, R273; log 23), so no instruction and no step raises one. Safe: nothing is stopped. -/
inductive Fault where
  deriving DecidableEq, Repr

/-- A refusal of the MODEL, not of the block. -/
inductive Refusal where
  /-- Raised only by an arm of `exec` whose command has no meaning yet. No arm is left so. Safe: the model stops. -/
  | notModelled (mnemonic : String)
  deriving DecidableEq, Repr

/-- The receiver's two states (10_state.md R33; 46_receiver_state_machine.md R220). -/
inductive Phase where
  | listening
  | decoding
  deriving DecidableEq, Repr

/-- The two sample ports (20_memory.md R50, R51). -/
inductive Port where
  | tx
  | rx
  deriving DecidableEq, Repr

/-- The value recorded with a cause: the reserved opcode or the port that cannot be opened (60_exceptions.md R260). -/
inductive CauseValue where
  | none
  | opcode (w : Byte)
  | port (p : Port)
  deriving DecidableEq, Repr

/-- The causes of 60_exceptions.md R260. -/
inductive Cause where
  | unclassifiableTone
  | midDecodeSilence
  | undecodableByte
  | deviceError (p : Port)
  | illegalConfig
  | notConfigured
  | illegalCommand (w : Byte)
  | badOperand
  | refusedFaulted
  | refusedAlreadyConfigured
  | msgOverflow
  | txOverflow
  deriving DecidableEq, Repr

/-- An event of the output trace (60_exceptions.md R266). -/
inductive Event where
  | charOut (c : Char)
  | msgDone (t : List Char)
  | status (code : Code)
  deriving DecidableEq, Repr

/-- The configuration registers (10_state.md R21). `none` is the state "not supplied since reset", which INIT tests
(47_system_ops.md R321; 60_exceptions.md R279; log 16). `WAVEFORM` has a reset value, so it always has a value. -/
structure CfgRegs where
  seed : Option Word32
  waveform : Nat
  base : Option Freq
  step : Option Freq
  n : Option Nat
  bpt : Option Nat
  thresh : Option Rat
  reps : Option Nat
  deriving DecidableEq, Repr

/-- A host write to one configuration register (10_state.md R21, indices 0 to 7). -/
inductive CfgWrite where
  | seed (v : Word32)
  | waveform (v : Nat)
  | base (v : Freq)
  | step (v : Freq)
  | n (v : Nat)
  | bpt (v : Nat)
  | thresh (v : Rat)
  | reps (v : Nat)
  deriving DecidableEq, Repr

/-- A configuration with all eight values supplied. -/
structure CfgValues where
  seed : Word32
  waveform : Nat
  base : Freq
  step : Freq
  n : Nat
  bpt : Nat
  thresh : Rat
  reps : Nat
  deriving DecidableEq, Repr

/-- What a configured block reads in a launch: the configuration and the map table (10_state.md R20). -/
structure Launch where
  cfg : CfgValues
  fwd : List Freq
  deriving DecidableEq, Repr

/-- The receiver working state (10_state.md R32 to R36; log 30). -/
structure Working where
  phase : Phase
  syncbuf : List Symbol
  bitbuf : List Bit
  msg : List Char
  deriving DecidableEq, Repr

/-- What the block waits for on a sample port (20_memory.md R50, R51; logs 8 and 9). -/
inductive PortWait where
  /-- no transfer is in progress -/
  | idle
  /-- inside `TxWrite(wave)`: the host has not accepted the waveform yet -/
  | txWrite (wave : List Sample)
  /-- inside `RxRead(N)`: the host has not supplied `N` samples yet -/
  | rxRead
  deriving DecidableEq, Repr

/-- A move of the host other than giving a command (00_scope.md R17; log 7). -/
inductive HostMove where
  /-- no move: the block goes on by one step of its own before the host's next move -/
  | run
  /-- a write to a configuration register (10_state.md R21) -/
  | writeCfg (w : CfgWrite)
  /-- further samples on the RX port (20_memory.md R51) -/
  | supply (c : List Sample)
  /-- the host has accepted the whole pending waveform (20_memory.md R50) -/
  | acceptTx
  /-- the host says whether a sample port can be opened (60_exceptions.md R264) -/
  | setPort (p : Port) (opens : Bool)
  /-- the asynchronous stop line (46_receiver_state_machine.md R245) -/
  | stopLine
  /-- the hardware reset line (70_reset_and_hazards.md R290) -/
  | resetLine
  deriving DecidableEq, Repr

/-- The machine. -/
structure State where
  /-- `CFG` (10_state.md R21) -/
  cfg : CfgRegs
  /-- `FWD`, empty until INIT has built it (10_state.md R29); `REV` is defined from it (R30) -/
  fwd : List Freq
  /-- `PHASE`, `SYNCBUF`, `BITBUF`, `MSG` (10_state.md R32) -/
  work : Working
  /-- `CONFIGURED` (10_state.md R38) -/
  configured : Bool
  /-- `RUNNING` (10_state.md R39) -/
  running : Bool
  /-- `STOP_REQ` (10_state.md R40) -/
  stopReq : Bool
  /-- `FAULTED` (10_state.md R42) -/
  faulted : Bool
  /-- `FAULT_CAUSE` (10_state.md R42) -/
  faultCause : Code
  /-- the value recorded with the fatal cause (60_exceptions.md R260) -/
  faultValue : CauseValue
  /-- the completion status of the last command (60_exceptions.md R260, R274; log 24) -/
  status : Code
  /-- the value recorded with that status (60_exceptions.md R260) -/
  statusValue : CauseValue
  /-- the OPERAND port (20_memory.md R54) -/
  operand : Operand
  /-- the RESULT port (20_memory.md R54) -/
  result : ResultVal
  /-- RX samples the host has supplied and the block has not read (20_memory.md R51; 10_state.md R44) -/
  rx : List Sample
  /-- the completed transfers of the TX port in this launch, oldest first (20_memory.md R50) -/
  tx : List (List Sample)
  /-- the event trace of this launch, oldest first (20_memory.md R53) -/
  events : List Event
  /-- the transfer in progress (20_memory.md R50, R51) -/
  portWait : PortWait
  /-- host side: the TX port can be opened (60_exceptions.md R264) -/
  txOpens : Bool
  /-- host side: the RX port can be opened (60_exceptions.md R264) -/
  rxOpens : Bool
  /-- host side: commands the block has not taken yet, oldest first (30_encoding.md R90) -/
  commands : List Command
  /-- host side: the host's other moves still to come, oldest first (00_scope.md R17) -/
  moves : List HostMove
  /-- host side: transfers of earlier launches, never recalled (70_reset_and_hazards.md R292) -/
  pastTx : List (List Sample)
  /-- host side: events of earlier launches, never recalled (70_reset_and_hazards.md R292) -/
  pastEvents : List Event
  /-- implementation parameters, written by no operation (00_scope.md R10) -/
  params : Params
  /-- the model's own: counts the draws of `Config.txLeftover` (log 15) -/
  draws : Nat
  deriving DecidableEq, Repr

/-- The configuration registers after reset (10_state.md R26, R45). -/
def CfgRegs.reset : CfgRegs :=
  { seed := none, waveform := 0, base := none, step := none, n := none, bpt := none, thresh := none, reps := none }

/-- The receiver working state after reset, at the start and the exit of RECEIVE (10_state.md R45, R46). -/
def Working.reset : Working := { phase := .listening, syncbuf := [], bitbuf := [], msg := [] }

/-- The machine right after reset (10_state.md R45; 70_reset_and_hazards.md R290), with nothing from the host yet. -/
def State.reset : State :=
  { cfg := CfgRegs.reset, fwd := [], work := Working.reset
    configured := false, running := false, stopReq := false, faulted := false
    faultCause := 0#4, faultValue := .none, status := 0#4, statusValue := .none
    operand := .none, result := .none, rx := [], tx := [], events := [], portWait := .idle
    txOpens := true, rxOpens := true, commands := [], moves := [], pastTx := [], pastEvents := []
    params := referenceParams, draws := 0 }

end Sys2Proof.Machine
end

