-- ==== Sys2Proof/Machine/Flags.lean ====
section
/-! DEFINITION. Cause codes and classes, and which status bits a cause writes (60_exceptions.md R260, R272, R273). The
block has no arithmetic flags: the status bits of 10_state.md R38 to R42 are all the flags there are. -/

namespace Sys2Proof.Machine

/-- What a cause does (60_exceptions.md R260). -/
inductive CauseClass where
  | condition
  | refusal
  | fatal
  deriving DecidableEq, Repr

/-- The code column of 60_exceptions.md R260. -/
def Cause.code : Cause → Code
  | .unclassifiableTone => 1#4
  | .midDecodeSilence => 2#4
  | .undecodableByte => 3#4
  | .deviceError _ => 4#4
  | .illegalConfig => 5#4
  | .notConfigured => 6#4
  | .illegalCommand _ => 7#4
  | .badOperand => 8#4
  | .refusedFaulted => 9#4
  | .refusedAlreadyConfigured => 10#4
  | .msgOverflow => 11#4
  | .txOverflow => 12#4

/-- The class column of 60_exceptions.md R260. -/
def Cause.cls : Cause → CauseClass
  | .unclassifiableTone => .condition
  | .midDecodeSilence => .condition
  | .undecodableByte => .condition
  | .deviceError _ => .fatal
  | .illegalConfig => .refusal
  | .notConfigured => .refusal
  | .illegalCommand _ => .refusal
  | .badOperand => .refusal
  | .refusedFaulted => .refusal
  | .refusedAlreadyConfigured => .refusal
  | .msgOverflow => .fatal
  | .txOverflow => .refusal

/-- The column "Value recorded" of 60_exceptions.md R260. -/
def Cause.value : Cause → CauseValue
  | .deviceError p => .port p
  | .illegalCommand w => .opcode w
  | _ => .none

/-- The code of success (60_exceptions.md R260, R266). -/
def okCode : Code := 0#4

/-- The condition that an outcome tag makes visible (60_exceptions.md R262, R263). An undecodable byte has no tag of its
own (R265). -/
def conditionOf : StepTag → Option Cause
  | .ignored => some .unclassifiableTone
  | .aborted => some .midDecodeSilence
  | _ => none

/-- `FAULTED <- 1; FAULT_CAUSE <- code; RUNNING <- 0`, and the transfer in progress ends (60_exceptions.md R273). `STOP_REQ` is not
among what it writes: the exit of RECEIVE clears it (`State.leaveReceive`). -/
def State.setFault (s : State) (c : Cause) : State :=
  { s with faulted := true, faultCause := c.code, faultValue := c.value, running := false, portWait := .idle }

/-- `STOP_REQ <- 1` (46_receiver_state_machine.md R245; log 22). -/
def State.setStop (s : State) : State := { s with stopReq := true }

/-- The block has a command or a transfer in progress, so it takes no command (30_encoding.md R90). -/
def State.busy (s : State) : Bool := s.running || decide (s.portWait ≠ .idle)

end Sys2Proof.Machine
end

