-- ==== Sys2Proof/Machine/Operands.lean ====
section
/-! DEFINITION. What a command reads: the configuration and its legality (10_state.md R25, R27), the launch a configured
block runs in, and its operand with the checks made at decode (30_encoding.md R87). -/

namespace Sys2Proof.Machine

open Sys2Proof.Config

/-- The eight values, when every register has been supplied (47_system_ops.md R321). -/
def CfgRegs.values (c : CfgRegs) : Option CfgValues :=
  match c.seed, c.base, c.step, c.n, c.bpt, c.thresh, c.reps with
  | some seed, some base, some step, some n, some bpt, some thresh, some reps =>
    some { seed, waveform := c.waveform, base, step, n, bpt, thresh, reps }
  | _, _, _, _, _, _, _ => none

/-- `LegalCfg(CFG)` (10_state.md R27). -/
def CfgValues.legal (v : CfgValues) : Bool :=
  decide (v.waveform ≤ 1) && decide (0 < v.step) && decide (2 ≤ v.n) && decide (4 ≤ v.bpt) && decide (v.bpt ≤ 8)
    && decide (1 ≤ v.reps)

/-- `S = 2^BPT` (10_state.md R25). -/
def symbolSpace (bpt : Nat) : Nat := 2 ^ bpt

/-- `PREAMBLE = rep([10, 5], REPS)` (10_state.md R25). -/
def preamble (reps : Nat) : List Symbol := (List.replicate reps preambleBase).flatten

/-- `L = 2 * REPS`, the length of the preamble (10_state.md R25). -/
def preambleLength (reps : Nat) : Nat := 2 * reps

/-- `CAND = [BASE + i * STEP for i in 0..S-1]` (10_state.md R25; 40_frequency_map.md R100). -/
def candidates (bpt : Nat) (base step : Freq) : List Freq :=
  (List.range (symbolSpace bpt)).map fun (i : Nat) => base + (i : Rat) * step

/-- The launch of a configured block: a legal configuration and a map of `S` entries (10_state.md R20, R29, R38). `none`
is "not configured": an operation that would read an unspecified field is refused (10_state.md R45; log 19). -/
def State.launch (s : State) : Option Launch :=
  if s.configured then
    match s.cfg.values with
    | some v => if v.legal && decide (s.fwd.length = symbolSpace v.bpt) then some { cfg := v, fwd := s.fwd } else none
    | none => none
  else none

/-- A host write to a configuration register, kept only while `CONFIGURED = 0` (10_state.md R21; 70_reset_and_hazards.md
R300). -/
def CfgRegs.write (c : CfgRegs) : CfgWrite → CfgRegs
  | .seed v => { c with seed := some v }
  | .waveform v => { c with waveform := v }
  | .base v => { c with base := some v }
  | .step v => { c with step := some v }
  | .n v => { c with n := some v }
  | .bpt v => { c with bpt := some v }
  | .thresh v => { c with thresh := some v }
  | .reps v => { c with reps := some v }

/-- The index column of 10_state.md R21. -/
def CfgWrite.index : CfgWrite → Nat
  | .seed _ => 0
  | .waveform _ => 1
  | .base _ => 2
  | .step _ => 3
  | .n _ => 4
  | .bpt _ => 5
  | .thresh _ => 6
  | .reps _ => 7

/-- The operand of MAPFWD: a symbol below `S` (30_encoding.md R87). -/
def symbolOperand (l : Launch) : Operand → Option Symbol
  | .symbol s => if s < symbolSpace l.cfg.bpt then some s else none
  | _ => none

/-- The operand of MAPREV, CLASSIFY and RENDER: any rational frequency (30_encoding.md R87; log 25). -/
def frequencyOperand : Operand → Option Freq
  | .frequency f => some f
  | _ => none

/-- The operand of ENCODE and SEND: any byte sequence (30_encoding.md R87). -/
def bytesOperand : Operand → Option (List Byte)
  | .bytes m => some m
  | _ => none

/-- The operand of DETECT: exactly `N` samples (30_encoding.md R87). -/
def chunkOperand (l : Launch) : Operand → Option (List Sample)
  | .chunk c => if c.length = l.cfg.n then some c else none
  | _ => none

/-- The operand of RXSTEP: a detector result, a tone's frequency and power not negative (30_encoding.md R87). -/
def detectionOperand : Operand → Option Detection
  | .detection d => if d.wellFormed then some d else none
  | _ => none

end Sys2Proof.Machine
end

