-- ==== Sys2Proof/Machine/Ops.lean ====
section
/-! DEFINITION. The operations that the meanings share: completion status and events, refusals and fatal causes (taking
an exception; there is no return from one, 60_exceptions.md R274, R275), acceptance of a command, the two sample
ports, the host's moves, and reset. -/

namespace Sys2Proof.Machine

/-- `emit E(v)`: append to the event trace (60_exceptions.md R266). -/
def State.emit (s : State) (es : List Event) : State := { s with events := s.events ++ es }

/-- Report a completion status: the code, the value recorded with it, and the event `STATUS(code)` (60_exceptions.md R260,
R266; log 24). -/
def State.report (s : State) (code : Code) (v : CauseValue) : State :=
  { s with status := code, statusValue := v, events := s.events ++ [.status code] }

/-- A command that completes: status 0 (60_exceptions.md R266). -/
def State.succeed (s : State) : State := s.report okCode .none

/-- A command that returns a value on the RESULT port and completes (00_scope.md R13). -/
def State.answer (s : State) (r : ResultVal) : State := State.succeed { s with result := r }

/-- TAKING A REFUSAL: the command does nothing and its cause is its completion status (60_exceptions.md R272). -/
def State.refuse (s : State) (c : Cause) : State := s.report c.code c.value

/-- TAKING A FATAL CAUSE: the fault latch is set, the operation in progress ends, and the code is reported
(60_exceptions.md R273). -/
def State.fatal (s : State) (c : Cause) : State := (s.setFault c).report c.code c.value

/-- The exit of RECEIVE, whatever ends it: `STOP_REQ` and `RUNNING` are cleared and the working state is reset
(46_receiver_state_machine.md R240, R244; 60_exceptions.md R268). -/
def State.leaveReceive (s : State) : State := { s with stopReq := false, work := Working.reset, running := false }

/-- A fatal cause that ends RECEIVE: its exit, and the fault (60_exceptions.md R268, R273). The end of a RECEIVE that does not
enter its loop counts as its exit (log 31). Outside RECEIVE no fatal cause writes the working state, since 10_state.md R33 names
no such writer of `PHASE` (log 20), nor `STOP_REQ`, which RECEIVE's exit and reset alone clear (R268). -/
def State.fatalReceive (s : State) (c : Cause) : State := s.leaveReceive.fatal c

/-- The checks before a command that reads the configuration or the map, in the order of 60_exceptions.md R269. -/
def State.accept (s : State) (k : Launch → State) : State :=
  if s.faulted then s.refuse .refusedFaulted
  else
    match s.launch with
    | none => s.refuse .notConfigured
    | some l => k l

/-- The operand check, after the checks of `State.accept` (60_exceptions.md R269). -/
def State.withOperand {α : Type} (s : State) (o : Option α) (k : α → State) : State :=
  match o with
  | none => s.refuse .badOperand
  | some a => k a

/-- `TxWrite(wave)`: hand the whole waveform to the TX port in one transfer and wait for the host (20_memory.md R50; log 8).
A port that cannot be opened is the fatal `DeviceError` (60_exceptions.md R264). -/
def State.txWrite (s : State) (wave : List Sample) : State :=
  if s.txOpens then { s with portWait := .txWrite wave } else s.fatal (.deviceError .tx)

/-- The host accepts the pending waveform: the transfer is complete and SEND ends (20_memory.md R50; 44_modulator_send.md
R192). -/
def State.acceptTx (s : State) : State :=
  match s.portWait with
  | .txWrite wave => State.succeed { s with portWait := .idle, tx := s.tx ++ [wave] }
  | _ => s

/-- What stands on the TX port when a reset cuts a transfer short: nothing or a part of the waveform, and which part is free
(93_implementation_defined.md U15; log 15). -/
def State.leftover (s : State) : List (List Sample) :=
  match s.portWait with
  | .txWrite wave => [wave.take (Config.txLeftover s.draws % wave.length)]
  | _ => []

/-- The draw counter after a reset: one draw is used when a transfer was in progress (log 15). -/
def State.drawsAfterReset (s : State) : Nat :=
  match s.portWait with
  | .txWrite _ => s.draws + 1
  | _ => s.draws

/-- Reset, by the line or by the command: every piece of the block's state takes its reset value (10_state.md R45;
47_system_ops.md R322; 70_reset_and_hazards.md R290). What has left the block is not recalled (R292; log 14), and the
host's side of the ports stays as it is (log 29). -/
def State.toReset (s : State) : State :=
  { State.reset with
    operand := s.operand
    rx := s.rx
    txOpens := s.txOpens
    rxOpens := s.rxOpens
    commands := s.commands
    moves := s.moves
    pastTx := s.pastTx ++ (s.tx ++ s.leftover)
    pastEvents := s.pastEvents ++ s.events
    params := s.params
    draws := s.drawsAfterReset }

/-- The configuration registers after a host write (10_state.md R21; 70_reset_and_hazards.md R300). -/
def State.writeCfg (s : State) (w : CfgWrite) : State :=
  if s.configured then s else { s with cfg := s.cfg.write w }

/-- The host says whether a port can be opened (60_exceptions.md R264). -/
def State.setPort (s : State) (p : Port) (opens : Bool) : State :=
  match p with
  | .tx => { s with txOpens := opens }
  | .rx => { s with rxOpens := opens }

/-- The effect of a host move other than `run` (00_scope.md R17; log 7). -/
def State.hostMove (s : State) : HostMove → State
  | .run => s
  | .writeCfg w => s.writeCfg w
  | .supply c => { s with rx := s.rx ++ c }
  | .acceptTx => s.acceptTx
  | .setPort p opens => s.setPort p opens
  | .stopLine => s.setStop
  | .resetLine => s.toReset

/-- What the block finds on the command port. -/
inductive Fetched where
  /-- no command is pending -/
  | nothing
  /-- a defined command, and the state in which its operand is on the OPERAND port -/
  | command (i : Instr) (s : State)
  /-- a reserved opcode: the state after its refusal (30_encoding.md R88) -/
  | illegal (s : State)
  deriving DecidableEq, Repr

/-- The command is off the command port and its operand is on the OPERAND port (30_encoding.md R84, R93). -/
def State.present (s : State) (c : Command) (rest : List Command) : State :=
  { s with commands := rest, operand := c.operand }

/-- Take the oldest pending command and decode its word (30_encoding.md R84 to R90; 60_exceptions.md R269: the opcode check
is the first). -/
def State.fetch (s : State) : Fetched :=
  match s.commands with
  | [] => .nothing
  | c :: rest =>
    match decode c.word with
    | .ok i => .command i (s.present c rest)
    | .error (.reservedOpcode w) => .illegal ((s.present c rest).refuse (.illegalCommand w))

end Sys2Proof.Machine
end

