-- ==== Sys2Proof/Machine/Seed.lean ====
section
/-! DEFINITION. The generator `XS32` that INIT uses (41_seed_derivation.md R138 to R142), and the host's functions that
the spec writes out: SHA-256 and `SeedOfKey` (R130 to R137), the chunk length (10_state.md R23), and the
pseudo-instructions (30_encoding.md R92). The host's functions are no part of a step. -/

namespace Sys2Proof.Machine

/-- `XS32(x)` (41_seed_derivation.md R138). -/
def xs32 (x : Word32) : Word32 :=
  let a := x ^^^ (x <<< 13)
  let b := a ^^^ (a >>> 17)
  b ^^^ (b <<< 5)

/-- `X0(seed)` (41_seed_derivation.md R141). -/
def startValue (seed : Word32) : Word32 := if seed = 0#32 then 0x9E3779B9#32 else seed

/-- `ROTR(x, n)` (41_seed_derivation.md R133). -/
def rotr (x : Word32) (n : Nat) : Word32 := (x >>> n) ||| (x <<< (32 - n))

/-- The initial hash value `H0` (41_seed_derivation.md R135). -/
def shaH0 : List Word32 :=
  [0x6a09e667#32, 0xbb67ae85#32, 0x3c6ef372#32, 0xa54ff53a#32, 0x510e527f#32, 0x9b05688c#32, 0x1f83d9ab#32, 0x5be0cd19#32]

/-- The round constants `Kc[0..63]` (41_seed_derivation.md R135). -/
def shaKc : List Word32 :=
  [0x428a2f98#32, 0x71374491#32, 0xb5c0fbcf#32, 0xe9b5dba5#32, 0x3956c25b#32, 0x59f111f1#32, 0x923f82a4#32, 0xab1c5ed5#32]
  ++ [0xd807aa98#32, 0x12835b01#32, 0x243185be#32, 0x550c7dc3#32, 0x72be5d74#32, 0x80deb1fe#32, 0x9bdc06a7#32, 0xc19bf174#32]
  ++ [0xe49b69c1#32, 0xefbe4786#32, 0x0fc19dc6#32, 0x240ca1cc#32, 0x2de92c6f#32, 0x4a7484aa#32, 0x5cb0a9dc#32, 0x76f988da#32]
  ++ [0x983e5152#32, 0xa831c66d#32, 0xb00327c8#32, 0xbf597fc7#32, 0xc6e00bf3#32, 0xd5a79147#32, 0x06ca6351#32, 0x14292967#32]
  ++ [0x27b70a85#32, 0x2e1b2138#32, 0x4d2c6dfc#32, 0x53380d13#32, 0x650a7354#32, 0x766a0abb#32, 0x81c2c92e#32, 0x92722c85#32]
  ++ [0xa2bfe8a1#32, 0xa81a664b#32, 0xc24b8b70#32, 0xc76c51a3#32, 0xd192e819#32, 0xd6990624#32, 0xf40e3585#32, 0x106aa070#32]
  ++ [0x19a4c116#32, 0x1e376c08#32, 0x2748774c#32, 0x34b0bcb5#32, 0x391c0cb3#32, 0x4ed8aa4a#32, 0x5b9cca4f#32, 0x682e6ff3#32]
  ++ [0x748f82ee#32, 0x78a5636f#32, 0x84c87814#32, 0x8cc70208#32, 0x90befffa#32, 0xa4506ceb#32, 0xbef9a3f7#32, 0xc67178f2#32]

/-- The big-endian bytes of a 32-bit word (41_seed_derivation.md R134, R137). -/
def wordBytes (w : Word32) : List Byte :=
  [w.extractLsb' 24 8, w.extractLsb' 16 8, w.extractLsb' 8 8, w.extractLsb' 0 8]

/-- Four bytes read big-endian (41_seed_derivation.md R134). -/
def bytesWord (q : List Byte) : Word32 :=
  BitVec.ofNat 32 (q.take 4 |>.foldl (fun acc b => acc * 256 + b.toNat) 0)

/-- The padded message `P` (41_seed_derivation.md R134). -/
def shaPad (k : List Byte) : List Byte :=
  let l := 8 * k.length
  let z := (64 - (k.length + 9) % 64) % 64
  k ++ [0x80#8] ++ List.replicate z 0#8 ++ wordBytes (BitVec.ofNat 32 (l / 2 ^ 32)) ++ wordBytes (BitVec.ofNat 32 l)

/-- The sixteen words of block `i` of a padded message (41_seed_derivation.md R134). -/
def shaBlock (p : List Byte) (i : Nat) : List Word32 :=
  (List.range 16).map fun j => bytesWord ((p.drop (64 * i + 4 * j)).take 4)

/-- The message schedule, extended by `k` words (41_seed_derivation.md R136). -/
def shaExtend : (k : Nat) → List Word32 → List Word32
  | 0, w => w
  | k + 1, w =>
    let t := w.length
    let x := w.getD (t - 15) 0#32
    let y := w.getD (t - 2) 0#32
    let s0 := rotr x 7 ^^^ rotr x 18 ^^^ (x >>> 3)
    let s1 := rotr y 17 ^^^ rotr y 19 ^^^ (y >>> 10)
    shaExtend k (w ++ [w.getD (t - 16) 0#32 + s0 + w.getD (t - 7) 0#32 + s1])

/-- The eight working variables of the compression (41_seed_derivation.md R136). -/
structure ShaVars where
  a : Word32
  b : Word32
  c : Word32
  d : Word32
  e : Word32
  f : Word32
  g : Word32
  h : Word32
  deriving DecidableEq, Repr

/-- One round of the compression (41_seed_derivation.md R136). -/
def shaRound (v : ShaVars) (kc w : Word32) : ShaVars :=
  let s1 := rotr v.e 6 ^^^ rotr v.e 11 ^^^ rotr v.e 25
  let ch := (v.e &&& v.f) ^^^ (~~~v.e &&& v.g)
  let t1 := v.h + s1 + ch + kc + w
  let s0 := rotr v.a 2 ^^^ rotr v.a 13 ^^^ rotr v.a 22
  let maj := (v.a &&& v.b) ^^^ (v.a &&& v.c) ^^^ (v.b &&& v.c)
  { a := t1 + (s0 + maj), b := v.a, c := v.b, d := v.c, e := v.d + t1, f := v.e, g := v.f, h := v.g }

/-- Compression of one block into the hash words (41_seed_derivation.md R136). -/
def shaCompress (hs : List Word32) (m : List Word32) : List Word32 :=
  let x := fun i => hs.getD i 0#32
  let v0 : ShaVars := ⟨x 0, x 1, x 2, x 3, x 4, x 5, x 6, x 7⟩
  let v := (shaKc.zip (shaExtend 48 m)).foldl (fun v p => shaRound v p.1 p.2) v0
  [x 0 + v.a, x 1 + v.b, x 2 + v.c, x 3 + v.d, x 4 + v.e, x 5 + v.f, x 6 + v.g, x 7 + v.h]

/-- `SHA256(K)` (41_seed_derivation.md R133 to R137). -/
def sha256 (k : List Byte) : List Byte :=
  let p := shaPad k
  ((List.range (p.length / 64)).foldl (fun hs i => shaCompress hs (shaBlock p i)) shaH0).flatMap wordBytes

/-- The UTF-8 encoding of a text (00_scope.md R7; log 28). -/
def utf8Bytes (t : List Char) : List Byte := t.flatMap fun c => (String.utf8EncodeChar c).map UInt8.toBitVec

/-- `SeedOfKey(key)`: the first four bytes of the digest, big-endian (41_seed_derivation.md R130). -/
def seedOfKey (key : List Char) : Word32 := bytesWord ((sha256 (utf8Bytes key)).take 4)

/-- `N = round(FS * chunk_duration_s)`, a tie to the even integer (10_state.md R23). -/
def chunkLength (duration : Rat) : Nat :=
  let x := (Config.sampleRate : Rat) * duration
  let lo := ⌊x⌋
  let frac := x - (lo : Rat)
  if frac < 1 / 2 then lo.toNat
  else if 1 / 2 < frac then (lo + 1).toNat
  else if lo % 2 = 0 then lo.toNat else (lo + 1).toNat

/-- `RXSYM s`: one receiver step with a tone exactly on the map frequency of `s` (30_encoding.md R92). -/
def rxsymCommand (fwd : List Freq) (s : Symbol) : Command :=
  { word := encode .rxstep, operand := .detection (.tone (fwd.getD s 0) 0) }

/-- `RXSIL` (30_encoding.md R92). -/
def rxsilCommand : Command := { word := encode .rxstep, operand := .detection .silence }

/-- `SENDTEXT "t"` (30_encoding.md R92). -/
def sendTextCommand (t : List Char) : Command := { word := encode .send, operand := .bytes (utf8Bytes t) }

end Sys2Proof.Machine
end

