-- ==== Sys2Proof/Machine/FrequencyMap.lean ====
section
/-! DEFINITION. FrequencyMap: the construction of the map, the two lookups and the classification, and the commands
MAPFWD, MAPREV and CLASSIFY (40_frequency_map.md). -/

namespace Sys2Proof.Machine

/-- Exchange the entries `i` and `j` of the working list (40_frequency_map.md R103). -/
def swapEntries (w : List Freq) (i j : Nat) : List Freq := (w.set i (w.getD j 0)).set j (w.getD i 0)

/-- The shuffle from position `i` down to 1: advance the generator, draw, exchange (40_frequency_map.md R103;
41_seed_derivation.md R142). -/
def shuffle : (i : Nat) → (x : Word32) → List Freq → List Freq
  | 0, _, w => w
  | i + 1, x, w => shuffle i (xs32 x) (swapEntries w (i + 1) ((xs32 x).toNat % (i + 2)))

/-- `BuildMap`, the table `FWD` (40_frequency_map.md R103, R104). It reads four configuration values and no other. -/
def buildMap (seed : Word32) (bpt : Nat) (base step : Freq) : List Freq :=
  shuffle (symbolSpace bpt - 1) (startValue seed) (candidates bpt base step)

/-- `REV(g)`, defined on the map frequencies only (10_state.md R30; 40_frequency_map.md R107). -/
def rev (fwd : List Freq) (g : Freq) : Option Symbol := fwd.idxOf? g

/-- Of two map frequencies the one closer to `f`; at equal distance the lower (40_frequency_map.md R109, R111; log 26). -/
def closer (f g h : Freq) : Freq :=
  if |f - h| < |f - g| ∨ (|f - h| = |f - g| ∧ h < g) then h else g

/-- `Nearest(f)` over the map frequencies (40_frequency_map.md R109, R111); a table without entries has none. -/
def nearest (fwd : List Freq) (f : Freq) : Option Freq :=
  match fwd with
  | [] => none
  | g :: gs => some (gs.foldl (closer f) g)

/-- `Classify(f)`; `none` is `Unclassifiable` (40_frequency_map.md R110, R112). -/
def classify (fwd : List Freq) (step : Freq) (f : Freq) : Option Symbol :=
  match nearest fwd f with
  | none => none
  | some g => if step < |f - g| then none else rev fwd g

/-- The candidate index of 40_frequency_map.md R113, the closed form of the classification; `none` is
`Unclassifiable`. The machine uses `classify`; this is its equivalent. -/
def candidateIndex (bpt : Nat) (base step : Freq) (f : Freq) : Option Nat :=
  let top := symbolSpace bpt - 1
  let hi := base + (top : Rat) * step
  if f < base - step ∨ hi + step < f then none
  else if f ≤ base then some 0
  else if hi ≤ f then some top
  else
    let q := (f - base) / step
    if q - (⌊q⌋ : Int) ≤ 1 / 2 then some ⌊q⌋.toNat else some (⌊q⌋.toNat + 1)

/-- The RESULT of MAPREV (40_frequency_map.md R107). -/
def maprevResult (l : Launch) (f : Freq) : ResultVal :=
  match rev l.fwd f with
  | some s => .symbol s
  | none => .notMapped

/-- The RESULT of CLASSIFY (40_frequency_map.md R112). -/
def classifyResult (l : Launch) (f : Freq) : ResultVal :=
  match classify l.fwd l.cfg.step f with
  | some s => .symbol s
  | none => .unclassifiable

/-- `MAPFWD s` (40_frequency_map.md R106). A launch's table has an entry for every `s < S`. -/
def execMapfwd (s : State) : Host.Outcome State Fault Refusal :=
  .next <| s.accept fun l =>
    s.withOperand (symbolOperand l s.operand) fun sym => s.answer (.frequency (l.fwd.getD sym 0))

/-- `MAPREV f` (40_frequency_map.md R107). -/
def execMaprev (s : State) : Host.Outcome State Fault Refusal :=
  .next <| s.accept fun l =>
    s.withOperand (frequencyOperand s.operand) fun f => s.answer (maprevResult l f)

/-- `CLASSIFY f` (40_frequency_map.md R112). -/
def execClassify (s : State) : Host.Outcome State Fault Refusal :=
  .next <| s.accept fun l =>
    s.withOperand (frequencyOperand s.operand) fun f => s.answer (classifyResult l f)

end Sys2Proof.Machine
end

