-- ==== Sys2Proof/Machine/FrameCodec.lean ====
section
/-! DEFINITION. FrameCodec, the sender's half: message to symbols, and the command ENCODE (30_encoding.md part A;
43_frame_codec.md). -/

namespace Sys2Proof.Machine

open Sys2Proof.Config

/-- `bits_w(v)`: the `w` bits of `v`, most significant first (00_scope.md R12). -/
def bitsOf (w v : Nat) : List Bit := (List.range w).map fun i => v.testBit (w - 1 - i)

/-- `val(q)`: a bit sequence read with its first bit most significant (00_scope.md R12). -/
def bitsValue (q : List Bit) : Nat := q.foldl (fun acc b => 2 * acc + b.toNat) 0

/-- `FRAME(M)` (30_encoding.md R70). -/
def frame (m : List Byte) : List Byte := [startMarker] ++ m ++ [endMarker]

/-- `FBITS(M)` (30_encoding.md R72). -/
def frameBits (m : List Byte) : List Bit := (frame m).flatMap fun b => bitsOf 8 b.toNat

/-- The number of zero bits appended (30_encoding.md R73; 43_frame_codec.md R170, R174). -/
def padLength (bpt len : Nat) : Nat := (bpt - len % bpt) % bpt

/-- `PBITS(M)` (30_encoding.md R73). -/
def paddedBits (bpt : Nat) (m : List Byte) : List Bit :=
  frameBits m ++ List.replicate (padLength bpt (frameBits m).length) false

/-- The `bpt`-bit groups of a bit sequence, read as symbols (30_encoding.md R74, R76). -/
def sliceSymbols (bpt : Nat) (q : List Bit) : List Symbol :=
  (List.range (q.length / bpt)).map fun k => bitsValue ((q.drop (k * bpt)).take bpt)

/-- `DSYMS(M)` (30_encoding.md R74). -/
def dataSymbols (bpt : Nat) (m : List Byte) : List Symbol := sliceSymbols bpt (paddedBits bpt m)

/-- `TXSYMS(M)`: the preamble, then the data symbols (30_encoding.md R78; 43_frame_codec.md R170). -/
def encodeMessage (bpt reps : Nat) (m : List Byte) : List Symbol := preamble reps ++ dataSymbols bpt m

/-- A count does not fit a buffer of capacity `cap`, `none` for unbounded (92_eei_decisions.md D20). -/
def overCap (cap : Option Nat) (count : Nat) : Bool :=
  match cap with
  | none => false
  | some c => decide (c < count)

/-- The first test of 60_exceptions.md R270: the symbols do not fit the symbol buffer (43_frame_codec.md R170; log 5). -/
def exceedsTxCap (p : Params) (syms : List Symbol) : Bool := overCap p.txCap syms.length

/-- `ENCODE M` (43_frame_codec.md R170). It builds no waveform, and its `TxOverflow` is on the number of symbols alone. -/
def execEncode (s : State) : Host.Outcome State Fault Refusal :=
  .next <| s.accept fun l =>
    s.withOperand (bytesOperand s.operand) fun m =>
      let syms := encodeMessage l.cfg.bpt l.cfg.reps m
      if exceedsTxCap s.params syms then s.refuse .txOverflow else s.answer (.symbols syms)

end Sys2Proof.Machine
end

