-- ==== Sys2Proof/Machine/Numerics.lean ====
section
/-! DEFINITION. `NUM`: sine, cosine and square root over the rationals (42_tone_synthesizer.md R160, log 1).

The rules are stated over the real numbers. A sample here is a rational, so: where the real value is rational it is
exact; where it is irrational the value is a free value within `numTol` of the real one. Angles are counted in turns
(`t` turns are `2 * pi * t`), which makes every symmetry of the sine exact. -/

namespace Sys2Proof.Machine

open Sys2Proof.Config

/-- How far a free value may lie from the computed centre (DESIGN CHOICE, log 1). -/
def numTol : Rat := 1 / 10 ^ 9

/-- `pi` to twenty decimals, used only for the centre of a free value. -/
def piApprox : Rat := 314159265358979323846 / 10 ^ 20

/-- The partial sum of the sine series with `k` terms, from the term in `x^j / d` on. -/
def sineSeries (x : Rat) : (k j : Nat) → (term : Rat) → Rat
  | 0, _, _ => 0
  | k + 1, j, term => term + sineSeries x k (j + 2) (-(term * x * x) / ((j + 1 : Nat) * (j + 2 : Nat) : Rat))

/-- Nine terms of the sine series at `t` turns. -/
def sineCentre (t : Rat) : Rat := sineSeries (2 * piApprox * t) 9 1 (2 * piApprox * t)

/-- `r` moved into the interval from `lo` to `hi`. -/
def clamp (lo hi r : Rat) : Rat := max lo (min hi r)

/-- The sine of `t` turns for `0 <= t <= 1/4`. Exact where the real sine is rational; otherwise free, within `numTol` of
the centre and between `4 t` and `1/2 + 4 t - 8 t^2`, as the real sine is. -/
def sinQuarter (t : Rat) : Rat :=
  if t = 0 then 0
  else if t = 1 / 12 then 1 / 2
  else if t = 1 / 4 then 1
  else clamp (4 * t) (1 / 2 + 4 * t - 8 * t ^ 2) (clamp (sineCentre t - numTol) (sineCentre t + numTol) (sineValue t))

/-- The fractional part of a number of turns. -/
def turnPart (t : Rat) : Rat := t - (⌊t⌋ : Int)

/-- `sin(2 * pi * t)` (42_tone_synthesizer.md R152), by the four quadrants. -/
def sinTurn (t : Rat) : Rat :=
  let u := turnPart t
  if u ≤ 1 / 4 then sinQuarter u
  else if u ≤ 1 / 2 then sinQuarter (1 / 2 - u)
  else if u ≤ 3 / 4 then -sinQuarter (u - 1 / 2)
  else -sinQuarter (1 - u)

/-- `cos(2 * pi * t)` (42_tone_synthesizer.md R154): the sine a quarter turn on. -/
def cosTurn (t : Rat) : Rat := sinTurn (t + 1 / 4)

/-- The integer square root of `n` by base-4 digits; `fuel` digits are enough when `n < 4^fuel`. -/
def isqrtDigits : (fuel n : Nat) → Nat
  | 0, _ => 0
  | fuel + 1, n =>
    let r := 2 * isqrtDigits fuel (n / 4)
    if (r + 1) * (r + 1) ≤ n then r + 1 else r

/-- The greatest `r` with `r * r <= n`. -/
def isqrt (n : Nat) : Nat := isqrtDigits (Nat.log2 n + 1) n

/-- The square root of `q >= 0` (45_spectral_detector.md R204). Exact where the real root is rational; otherwise free, in
the interval of width `numTol` that holds the real root. -/
def sqrtNum (q : Rat) : Rat :=
  let rn := isqrt q.num.toNat
  let rd := isqrt q.den
  if rn * rn = q.num.toNat ∧ rd * rd = q.den then (rn : Rat) / (rd : Rat)
  else
    let lo := (isqrt ⌊q * 10 ^ 18⌋.toNat : Rat) / 10 ^ 9
    clamp lo (lo + numTol) (rootValue q)

end Sys2Proof.Machine
end

