-- ==== Sys2Proof/Machine/ToneSynthesizer.lean ====
section
/-! DEFINITION. ToneSynthesizer: one windowed, shaped tone of `N` samples, and the command RENDER
(42_tone_synthesizer.md). -/

namespace Sys2Proof.Machine

open Sys2Proof.Config

/-- The divisor of the window's angle: `N - 1` in the symmetric form, `N` in the periodic one (42_tone_synthesizer.md R154,
R163). -/
def windowSpan : HannForm → Nat → Rat
  | .symmetric, n => (n : Rat) - 1
  | .periodic, n => (n : Rat)

/-- `HANN(i, N)` (42_tone_synthesizer.md R154, R163). -/
def hann (form : HannForm) (i n : Nat) : Rat := 1 / 2 - 1 / 2 * cosTurn ((i : Rat) / windowSpan form n)

/-- `Shape(WAVEFORM, a)`: 0 is `sine_clipped`, 1 is `square` (42_tone_synthesizer.md R153). -/
def shape (waveform : Nat) (a : Rat) : Rat :=
  if waveform = 0 then min 1 (max (-1) (clipGain * a))
  else if 0 < a then 1 else if a < 0 then -1 else 0

/-- The raw sine of sample `i` at frequency `f` (42_tone_synthesizer.md R152). -/
def rawSine (f : Freq) (i : Nat) : Rat := sinTurn (f * (i : Rat) / (sampleRate : Rat))

/-- Sample `i` of a tone: sine, shape, window, scale, in this order (42_tone_synthesizer.md R150, R156, R157). -/
def renderSample (form : HannForm) (waveform n : Nat) (f : Freq) (i : Nat) : Sample :=
  outScale * (hann form i n * shape waveform (rawSine f i))

/-- `Render(f)`: the chunk of `N` samples (42_tone_synthesizer.md R150, R151). -/
def render (form : HannForm) (waveform n : Nat) (f : Freq) : List Sample :=
  (List.range n).map (renderSample form waveform n f)

/-- `RENDER f` (42_tone_synthesizer.md R150). -/
def execRender (s : State) : Host.Outcome State Fault Refusal :=
  .next <| s.accept fun l =>
    s.withOperand (frequencyOperand s.operand) fun f =>
      s.answer (.samples (render s.params.hannForm l.cfg.waveform l.cfg.n f))

end Sys2Proof.Machine
end

