-- ==== Sys2Proof/Machine/Modulator.lean ====
section
/-! DEFINITION. The modulator: map each symbol to its tone, join the tones, write the waveform once; the command SEND
(44_modulator_send.md). -/

namespace Sys2Proof.Machine

/-- The waveform of a symbol sequence: the chunks in order, joined end to end (30_encoding.md R81; 44_modulator_send.md
R191). -/
def waveform (form : Config.HannForm) (l : Launch) (syms : List Symbol) : List Sample :=
  syms.flatMap fun s => render form l.cfg.waveform l.cfg.n (l.fwd.getD s 0)

/-- The second test of 60_exceptions.md R270: the `N * len(syms)` samples do not fit the waveform buffer (log 5). -/
def exceedsSampleCap (p : Config.Params) (n : Nat) (syms : List Symbol) : Bool := overCap p.txSampleCap (n * syms.length)

/-- `SEND M`: encode, build the whole waveform, hand it to the TX port (44_modulator_send.md R190, R192). It ends when the
host accepts the transfer (`State.acceptTx`; log 8). -/
def execSend (s : State) : Host.Outcome State Fault Refusal :=
  .next <| s.accept fun l =>
    s.withOperand (bytesOperand s.operand) fun m =>
      let syms := encodeMessage l.cfg.bpt l.cfg.reps m
      if exceedsTxCap s.params syms || exceedsSampleCap s.params l.cfg.n syms then s.refuse .txOverflow
      else s.txWrite (waveform s.params.hannForm l syms)

end Sys2Proof.Machine
end

