-- ==== Sys2Proof/Machine/SpectralDetector.lean ====
section
/-! DEFINITION. SpectralDetector: window, transform, strongest bin, threshold; the command DETECT
(45_spectral_detector.md). -/

namespace Sys2Proof.Machine

open Sys2Proof.Config

/-- `x[i] = HANN(i, N) * c[i]` (45_spectral_detector.md R201). -/
def windowed (form : HannForm) (n : Nat) (c : List Sample) (i : Nat) : Rat := hann form i n * c.getD i 0

/-- `Re(X[k])` of the unnormalised transform (45_spectral_detector.md R202). -/
def spectrumRe (form : HannForm) (n : Nat) (c : List Sample) (k : Nat) : Rat :=
  ((List.range n).map fun (i : Nat) => windowed form n c i * cosTurn ((k : Rat) * (i : Rat) / (n : Rat))).sum

/-- `Im(X[k])` of the unnormalised transform (45_spectral_detector.md R202). -/
def spectrumIm (form : HannForm) (n : Nat) (c : List Sample) (k : Nat) : Rat :=
  -((List.range n).map fun (i : Nat) => windowed form n c i * sinTurn ((k : Rat) * (i : Rat) / (n : Rat))).sum

/-- `m[k] = |X[k]|` (45_spectral_detector.md R204). -/
def magnitude (form : HannForm) (n : Nat) (c : List Sample) (k : Nat) : Rat :=
  sqrtNum (spectrumRe form n c k ^ 2 + spectrumIm form n c k ^ 2)

/-- The magnitudes of the bins `0 .. floor(N / 2)` (45_spectral_detector.md R203). -/
def magnitudes (form : HannForm) (n : Nat) (c : List Sample) : List Rat :=
  (List.range (n / 2 + 1)).map (magnitude form n c)

/-- The search for the strongest bin, from bin `k` on: a later bin replaces the best one only if it is greater
(45_spectral_detector.md R205). -/
def peakFrom : (k best : Nat) → (peak : Rat) → List Rat → Nat × Rat
  | _, best, peak, [] => (best, peak)
  | k, best, peak, m :: ms => if peak < m then peakFrom (k + 1) k m ms else peakFrom (k + 1) best peak ms

/-- `kmax` and `m[kmax]`: the least index of the greatest magnitude (45_spectral_detector.md R205; log 26). -/
def peakBin : List Rat → Nat × Rat
  | [] => (0, 0)
  | m :: ms => peakFrom 1 0 m ms

/-- The frequency of bin `k`, `k * FS / N` (45_spectral_detector.md R203). -/
def binFrequency (n k : Nat) : Freq := (k : Rat) * (sampleRate : Rat) / (n : Rat)

/-- `Detect(c)` (45_spectral_detector.md R200, R206, R207). -/
def detect (form : HannForm) (n : Nat) (thresh : Rat) (c : List Sample) : Detection :=
  let p := peakBin (magnitudes form n c)
  if p.2 < thresh then .silence else .tone (binFrequency n p.1) p.2

/-- `DETECT c` (45_spectral_detector.md R200). -/
def execDetect (s : State) : Host.Outcome State Fault Refusal :=
  .next <| s.accept fun l =>
    s.withOperand (chunkOperand l s.operand) fun c =>
      s.answer (.detection (detect s.params.hannForm l.cfg.n l.cfg.thresh c))

end Sys2Proof.Machine
end

