-- ==== Sys2Proof/Machine/Receiver.lean ====
section
/-! DEFINITION. ReceiverStateMachine: the transition function of one chunk, and the commands RXSTEP, RXCHUNK, RECEIVE and
STOP with the receive loop (46_receiver_state_machine.md). -/

namespace Sys2Proof.Machine

open Sys2Proof.Config

/-- What one receiver step gives: the new working state, the events and the tag, or the fatal `MsgOverflow` of a finite
`MSG_CAP` (46_receiver_state_machine.md R221; 60_exceptions.md R270). -/
inductive StepResult where
  | done (w : Working) (events : List Event) (tag : StepTag)
  | msgOverflow
  deriving DecidableEq, Repr

/-- `DecodeStandalone`: a byte is a character on its own exactly when it is in `0x00..0x7F`
(46_receiver_state_machine.md R231, R232). -/
def decodeStandalone (b : Byte) : Option Char := if b.toNat ≤ 0x7F then some (Char.ofNat b.toNat) else none

/-- A message that holds `len` characters is full under `MSG_CAP` (60_exceptions.md R270). -/
def msgFull (cap : Option Nat) (len : Nat) : Bool :=
  match cap with
  | none => false
  | some c => decide (c ≤ len)

/-- What a popped byte does to the step (46_receiver_state_machine.md R228 to R232). -/
inductive ByteEffect where
  /-- start marker or undecodable byte: nothing (R229, R232) -/
  | skip
  /-- end marker: the message is complete (R230) -/
  | finish
  /-- a character for the message (R231) -/
  | append (c : Char)
  deriving DecidableEq, Repr

/-- The tests of a popped byte, in their order (46_receiver_state_machine.md R228). -/
def byteEffect (b : Byte) : ByteEffect :=
  if b = startMarker then .skip
  else if b = endMarker then .finish
  else
    match decodeStandalone b with
    | some c => .append c
    | none => .skip

/-- The oldest eight bits as a byte (46_receiver_state_machine.md R228; 30_encoding.md R79). -/
def popByte (q : List Bit) : Byte := BitVec.ofNat 8 (bitsValue (q.take 8))

/-- The loop of 46_receiver_state_machine.md R228: pop bytes while eight bits are there and no end marker has come. `fuel`
bounds the number of bytes, `n` counts them, `evs` are the events so far. -/
def popBytes (cap : Option Nat) : (fuel : Nat) → Working → (n : Nat) → (evs : List Event) → StepResult
  | 0, w, n, evs => .done w evs (.data n)
  | fuel + 1, w, n, evs =>
    if w.bitbuf.length < 8 then .done w evs (.data n)
    else
      let w' := { w with bitbuf := w.bitbuf.drop 8 }
      match byteEffect (popByte w.bitbuf) with
      | .skip => popBytes cap fuel w' (n + 1) evs
      | .finish => .done Working.reset (evs ++ [.msgDone w.msg]) .completed
      | .append c =>
        if msgFull cap w.msg.length then .msgOverflow
        else popBytes cap fuel { w' with msg := w.msg ++ [c] } (n + 1) (evs ++ [.charOut c])

/-- Silence (46_receiver_state_machine.md R224, R225). -/
def stepSilence (w : Working) : StepResult :=
  match w.phase with
  | .decoding => .done Working.reset [] .aborted
  | .listening => .done w [] .idleSilence

/-- The sliding buffer after a symbol: append, drop the oldest if it is too long (46_receiver_state_machine.md R226). -/
def slide (len : Nat) (q : List Symbol) (sym : Symbol) : List Symbol :=
  let q' := q ++ [sym]
  if len < q'.length then q'.drop 1 else q'

/-- A symbol while listening (46_receiver_state_machine.md R226). -/
def stepListening (reps : Nat) (w : Working) (sym : Symbol) : StepResult :=
  let q := slide (preambleLength reps) w.syncbuf sym
  if q = preamble reps then .done { phase := .decoding, syncbuf := [], bitbuf := [], msg := [] } [] .synced
  else .done { w with syncbuf := q } [] .shifted

/-- A symbol while decoding (46_receiver_state_machine.md R228). -/
def stepDecoding (bpt : Nat) (cap : Option Nat) (w : Working) (sym : Symbol) : StepResult :=
  let q := w.bitbuf ++ bitsOf bpt sym
  popBytes cap (q.length / 8) { w with bitbuf := q } 0 []

/-- A classified symbol, by phase (46_receiver_state_machine.md R223). -/
def stepSymbol (l : Launch) (cap : Option Nat) (w : Working) (sym : Symbol) : StepResult :=
  match w.phase with
  | .listening => stepListening l.cfg.reps w sym
  | .decoding => stepDecoding l.cfg.bpt cap w sym

/-- `RxStep(d)`, the whole transition function (46_receiver_state_machine.md R223). The power of a tone is not read
(R222). -/
def rxStep (l : Launch) (cap : Option Nat) (w : Working) (d : Detection) : StepResult :=
  match d with
  | .silence => stepSilence w
  | .tone f _ =>
    match classify l.fwd l.cfg.step f with
    | none => .done w [] .ignored
    | some sym => stepSymbol l cap w sym

/-- `RXSTEP d` (46_receiver_state_machine.md R236). A step that overflows `MSG_CAP` leaves the working state as it was before the
step (20_memory.md R62; log 20). -/
def execRxstep (s : State) : Host.Outcome State Fault Refusal :=
  .next <| s.accept fun l =>
    s.withOperand (detectionOperand s.operand) fun d =>
      match rxStep l s.params.msgCap s.work d with
      | .done w evs tag => (State.emit { s with work := w } evs).answer (.tag tag)
      | .msgOverflow => s.fatal .msgOverflow

/-- `RxRead(N)` can return: the host has supplied `N` samples (20_memory.md R51). -/
def State.chunkReady (s : State) (l : Launch) : Bool := decide (l.cfg.n ≤ s.rx.length)

/-- The read returns and its chunk is processed: the samples leave the stream, the detector and the receiver step run, as
one transition (20_memory.md R62; 46_receiver_state_machine.md R238). Inside RECEIVE the loop goes on; a lone RXCHUNK
returns its tag and completes. On an overflow of `MSG_CAP` the samples stay consumed; RECEIVE is left, with its working
state and `STOP_REQ` cleared, and a lone RXCHUNK leaves both as they were (60_exceptions.md R268, R273; log 20). -/
def State.finishRead (s : State) (l : Launch) : State :=
  let c := s.rx.take l.cfg.n
  let s1 := { s with rx := s.rx.drop l.cfg.n, portWait := .idle }
  match rxStep l s.params.msgCap s.work (detect s.params.hannForm l.cfg.n l.cfg.thresh c) with
  | .done w evs tag =>
    let s2 := State.emit { s1 with work := w } evs
    if s.running then s2 else s2.answer (.tag tag)
  | .msgOverflow => if s.running then s1.fatalReceive .msgOverflow else s1.fatal .msgOverflow

/-- The block is inside `RxRead(N)`: it goes on when the samples are there and waits otherwise (20_memory.md R51). -/
def State.continueRead (s : State) (l : Launch) : State := if s.chunkReady l then s.finishRead l else s

/-- The block enters `RxRead(N)` (20_memory.md R51). -/
def State.enterRead (s : State) (l : Launch) : State := State.continueRead { s with portWait := .rxRead } l

/-- `RXCHUNK` (46_receiver_state_machine.md R238). A port that cannot be opened ends it before any read or receiver step, so the
working state stays as it was (60_exceptions.md R264; 10_state.md R33; log 20). -/
def execRxchunk (s : State) : Host.Outcome State Fault Refusal :=
  .next <| s.accept fun l =>
    if s.rxOpens then s.enterRead l else s.fatal (.deviceError .rx)

/-- The exit of RECEIVE on a stop request: the command completes (46_receiver_state_machine.md R240, R244). -/
def State.exitReceive (s : State) : State := s.leaveReceive.succeed

/-- The iteration boundary of RECEIVE: leave on a stop request, else read the next chunk (46_receiver_state_machine.md R240,
R243). -/
def State.loopBoundary (s : State) (l : Launch) : State := if s.stopReq then s.exitReceive else s.enterRead l

/-- `RECEIVE`: the start of the loop (46_receiver_state_machine.md R240, R241). The loop's iterations are the block's own
steps (`State.advance`; log 9). A port that cannot be opened is found before the first iteration (60_exceptions.md R264;
log 21). -/
def execReceive (s : State) : Host.Outcome State Fault Refusal :=
  .next <| s.accept fun _ =>
    if s.rxOpens then { s with running := true, work := Working.reset } else s.fatalReceive (.deviceError .rx)

/-- `STOP`, the command form (46_receiver_state_machine.md R245). -/
def execStop (s : State) : Host.Outcome State Fault Refusal :=
  .next <| if s.faulted then s.refuse .refusedFaulted else s.setStop.succeed

/-- What a busy block does by itself in one step: a transfer to the host waits; a read goes on when its samples are there;
the receive loop does one iteration (20_memory.md R50, R51; 46_receiver_state_machine.md R240; logs 8 to 10). -/
def State.advance (s : State) : State :=
  match s.launch with
  | none => s
  | some l =>
    match s.portWait with
    | .txWrite _ => s
    | .rxRead => s.continueRead l
    | .idle => if s.running then s.loopBoundary l else s

end Sys2Proof.Machine
end

