-- ==== Sys2Proof/Machine/System.lean ====
section
/-! DEFINITION. The system operations NOP, INIT and RESET (47_system_ops.md). -/

namespace Sys2Proof.Machine

/-- `NOP`: no state changes and no event; its completion status is 0 (47_system_ops.md R320; log 11). -/
def execNop (s : State) : Host.Outcome State Fault Refusal :=
  .next { s with status := okCode, statusValue := .none }

/-- The configuration that INIT may build a map from: every register supplied, and legal (47_system_ops.md R321;
60_exceptions.md R279). -/
def CfgRegs.initValues (c : CfgRegs) : Option CfgValues :=
  match c.values with
  | some v => if v.legal then some v else none
  | none => none

/-- `INIT` (47_system_ops.md R321), with the checks in the order of 60_exceptions.md R269. -/
def execInit (s : State) : Host.Outcome State Fault Refusal :=
  .next <|
    if s.faulted then s.refuse .refusedFaulted
    else if s.configured then s.refuse .refusedAlreadyConfigured
    else
      match s.cfg.initValues with
      | none => s.refuse .illegalConfig
      | some v =>
        State.succeed
          { s with fwd := buildMap v.seed v.bpt v.base v.step, work := Working.reset, configured := true }

/-- `RESET`: accepted in every state in which the block takes commands. It reports success, and then every piece of state
takes its reset value (47_system_ops.md R322; log 14). -/
def execReset (s : State) : Host.Outcome State Fault Refusal := .next s.succeed.toReset

end Sys2Proof.Machine
end

