-- ==== Sys2Proof/Machine/Dispatch.lean ====
section
/-! DEFINITION. One arm per command; each calls the command's meaning (30_encoding.md R86). -/

namespace Sys2Proof.Machine

def exec (i : Instr) (s : State) : Host.Outcome State Fault Refusal :=
  match i with
  | .nop => Sys2Proof.Machine.execNop s
  | .init => Sys2Proof.Machine.execInit s
  | .mapfwd => Sys2Proof.Machine.execMapfwd s
  | .maprev => Sys2Proof.Machine.execMaprev s
  | .classify => Sys2Proof.Machine.execClassify s
  | .render => Sys2Proof.Machine.execRender s
  | .encode => Sys2Proof.Machine.execEncode s
  | .send => Sys2Proof.Machine.execSend s
  | .detect => Sys2Proof.Machine.execDetect s
  | .rxstep => Sys2Proof.Machine.execRxstep s
  | .rxchunk => Sys2Proof.Machine.execRxchunk s
  | .receive => Sys2Proof.Machine.execReceive s
  | .stop => Sys2Proof.Machine.execStop s
  | .reset => Sys2Proof.Machine.execReset s

end Sys2Proof.Machine
end

