-- ==== Sys2Proof/Machine/Step.lean ====
section
/-! DEFINITION. One step of the machine: the host's next move, or a step of the block (00_scope.md R17; logs 6 and 7). -/

namespace Sys2Proof.Machine

/-- One step of the block: a busy block goes on with its operation; an idle block takes the oldest pending command, or waits
when there is none (30_encoding.md R90; 70_reset_and_hazards.md R291). -/
def blockStep (s : State) : Host.Outcome State Fault Refusal :=
  if s.busy then .next s.advance
  else
    match s.fetch with
    | .nothing => .next s
    | .command i s' => exec i s'
    | .illegal s' => .next s'

/-- One step: the host's next move if one comes now, else a step of the block. The move `run` lets the block go on before the
host's next move (log 7). -/
def step (s : State) : Host.Outcome State Fault Refusal :=
  match s.moves with
  | [] => blockStep s
  | .run :: ms => blockStep { s with moves := ms }
  | m :: ms => .next (State.hostMove { s with moves := ms } m)

/-- `s` with the command word `w` next on the command port, so that the next step takes it: the block is idle (a busy block
takes no command), the word is the oldest pending one with the OPERAND port as it stands, and the host lets the block go
(logs 6 and 7). -/
def State.withFetchWord (s : State) (_nbits w : Nat) : State :=
  { s with
    running := false
    portWait := .idle
    commands := { word := BitVec.ofNat 8 w, operand := s.operand } :: s.commands
    moves := .run :: s.moves }

end Sys2Proof.Machine
end

