-- ==== Sys2Proof/Laws/PerInstr.lean ====
section
/-! SUPPORT. The statements made for each instruction, one lemma per constructor of `Instr`. -/

namespace Sys2Proof.Laws

/-- The decoder reads back the word of a command, as a word and as the opcode table numbers it (30_encoding.md R86). -/
def RoundTrip.Statement (i : Instr) : Prop :=
  decode (encode i) = .ok i ∧ decodeTableWord 8 (encode i).toNat = some i ∧ reservedWord (encode i) = false

theorem RoundTrip.nop : RoundTrip.Statement .nop := ⟨rfl, rfl, rfl⟩
theorem RoundTrip.init : RoundTrip.Statement .init := ⟨rfl, rfl, rfl⟩
theorem RoundTrip.mapfwd : RoundTrip.Statement .mapfwd := ⟨rfl, rfl, rfl⟩
theorem RoundTrip.maprev : RoundTrip.Statement .maprev := ⟨rfl, rfl, rfl⟩
theorem RoundTrip.classify : RoundTrip.Statement .classify := ⟨rfl, rfl, rfl⟩
theorem RoundTrip.render : RoundTrip.Statement .render := ⟨rfl, rfl, rfl⟩
theorem RoundTrip.encode : RoundTrip.Statement .encode := ⟨rfl, rfl, rfl⟩
theorem RoundTrip.send : RoundTrip.Statement .send := ⟨rfl, rfl, rfl⟩
theorem RoundTrip.detect : RoundTrip.Statement .detect := ⟨rfl, rfl, rfl⟩
theorem RoundTrip.rxstep : RoundTrip.Statement .rxstep := ⟨rfl, rfl, rfl⟩
theorem RoundTrip.rxchunk : RoundTrip.Statement .rxchunk := ⟨rfl, rfl, rfl⟩
theorem RoundTrip.receive : RoundTrip.Statement .receive := ⟨rfl, rfl, rfl⟩
theorem RoundTrip.stop : RoundTrip.Statement .stop := ⟨rfl, rfl, rfl⟩
theorem RoundTrip.reset : RoundTrip.Statement .reset := ⟨rfl, rfl, rfl⟩

end Sys2Proof.Laws
end

