-- ==== Sys2Proof/Safety.lean ====
section
/-! DEFINITION. The terms in which claims about the block are stated: when a command is accepted, what a legal map is, the
invariants of 10_state.md, a run of the receiver over detector results, and the text a message decodes to
(46_receiver_state_machine.md R237). -/

namespace Sys2Proof

/-- The ten commands that need a configured block (60_exceptions.md R271). -/
def Instr.needsLaunch : Instr → Bool
  | .nop => false
  | .init => false
  | .stop => false
  | .reset => false
  | .mapfwd => true
  | .maprev => true
  | .classify => true
  | .render => true
  | .encode => true
  | .send => true
  | .detect => true
  | .rxstep => true
  | .rxchunk => true
  | .receive => true

end Sys2Proof

namespace Sys2Proof.Machine

/-- The block accepts a command that needs a configured block, and works in launch `l` (30_encoding.md R90; 60_exceptions.md
R269). -/
def State.Ready (s : State) (l : Launch) : Prop := s.faulted = false ∧ s.launch = some l

/-- The next step is the block's own: the host makes no move now, or lets the block go on; `ms` are its moves after that
(00_scope.md R17; log 7). -/
def State.BlockTurn (s : State) (ms : List HostMove) : Prop := (s.moves = [] ∧ ms = []) ∨ s.moves = .run :: ms

/-- The symbols fit the sender's symbol buffer, and their `n` samples each fit its waveform buffer (60_exceptions.md R270). -/
def TxFits (p : Config.Params) (n : Nat) (syms : List Symbol) : Prop :=
  (∀ c, p.txCap = some c → syms.length ≤ c) ∧ ∀ c, p.txSampleCap = some c → n * syms.length ≤ c

/-- The launch has a legal configuration and the map that INIT builds from it (40_frequency_map.md R104). -/
def Launch.Built (l : Launch) : Prop :=
  l.cfg.legal = true ∧ l.fwd = buildMap l.cfg.seed l.cfg.bpt l.cfg.base l.cfg.step

/-- The invariant of the receiver working state (10_state.md R37). -/
structure Working.Inv (reps : Nat) (w : Working) : Prop where
  listening_bits : w.phase = .listening → w.bitbuf = [] ∧ w.msg = []
  decoding_sync : w.phase = .decoding → w.syncbuf = []
  sync_length : w.syncbuf.length ≤ preambleLength reps
  bits_length : w.bitbuf.length ≤ 7

/-- The widths of the working state: every symbol is a `BPT`-bit value (10_state.md R34) and every character is in
`U+0000..U+007F` (R36). -/
structure Working.Typed (bpt : Nat) (w : Working) : Prop where
  symbols_small : ∀ x ∈ w.syncbuf, x < symbolSpace bpt
  chars_ascii : ∀ c ∈ w.msg, c.toNat ≤ 0x7F

/-- Every sample of a TX transfer is within 95% of full scale (20_memory.md R50; 42_tone_synthesizer.md R158). -/
def WithinScale (wave : List Sample) : Prop := ∀ y ∈ wave, |y| ≤ 19 / 20

/-- The invariant of the whole block: what the registers and the status bits of 10_state.md say about each other. -/
structure State.Inv (s : State) : Prop where
  /-- a configured block has the map of its legal configuration (R20, R29, R38) -/
  configured_built : s.configured = true → ∃ l, s.launch = some l ∧ l.Built
  /-- before INIT there is no map, and nothing has moved (R29, R46) -/
  unconfigured_idle :
    s.configured = false → s.fwd = [] ∧ s.work = Working.reset ∧ s.running = false ∧ s.portWait = .idle
  /-- the working state keeps its invariant and its widths (R34, R36, R37) -/
  working : ∀ l, s.launch = some l → s.work.Inv l.cfg.reps ∧ s.work.Typed l.cfg.bpt
  /-- the fault bit and its cause go together (R42; 60_exceptions.md R273) -/
  fault_cause : (s.faulted = false → s.faultCause = 0#4) ∧
    (s.faulted = true → (s.faultCause = 4#4 ∨ s.faultCause = 11#4) ∧ s.configured = true)
  /-- after a fatal cause nothing runs (60_exceptions.md R273) -/
  fault_idle : s.faulted = true → s.running = false ∧ s.portWait = .idle
  /-- the block does not send while it receives (44_modulator_send.md R193) -/
  no_duplex : ∀ wave, s.portWait = .txWrite wave → s.running = false ∧ WithinScale wave
  /-- every sample on the TX port is within range (20_memory.md R50) -/
  tx_scale : ∀ wave ∈ s.tx, WithinScale wave

/-- The receiver over a sequence of detector results: the final working state, the events in order, the outcome tags in
order; `none` if a finite `MSG_CAP` overflows (46_receiver_state_machine.md R221). -/
def runReceiver (l : Launch) (cap : Option Nat) :
    Working → List Detection → Option (Working × List Event × List StepTag)
  | w, [] => some (w, [], [])
  | w, d :: ds =>
    match rxStep l cap w d with
    | .msgOverflow => none
    | .done w' evs tag =>
      match runReceiver l cap w' ds with
      | none => none
      | some (w'', evs', tags) => some (w'', evs ++ evs', tag :: tags)

/-- The detector results of a clean channel: a tone exactly on the map frequency of each symbol
(46_receiver_state_machine.md R237). -/
def cleanTones (l : Launch) (syms : List Symbol) : List Detection := syms.map fun s => .tone (l.fwd.getD s 0) 0

/-- The text that a message decodes to: cut before the first `0x03`, without every `0x02` and every byte above `0x7F`
(46_receiver_state_machine.md R237). -/
def decodedText (m : List Byte) : List Char :=
  ((m.takeWhile fun b => b != 0x03#8).filter fun b => b != 0x02#8 && decide (b.toNat ≤ 0x7F)).map
    fun b => Char.ofNat b.toNat

end Sys2Proof.Machine
end

