-- ==== Sys2Proof/Certificates/Slice0/Obligations.lean ====
section
/-! DEFINITION. The statements for the provers. Each is a proposition about the model; its docstring names the rule of
spec/ it formalises, or says what it rests on. -/

open Sys2Proof Sys2Proof.Machine

/-! ### Command words -/

/-- The words of 30_encoding.md R86, written out: the fourteen opcodes decode to their commands. -/
def Obligations.OpcodeMapDecodes : Prop :=
  decode 0b00000000#8 = .ok .nop ∧ decode 0b00000001#8 = .ok .init ∧ decode 0b00000010#8 = .ok .mapfwd ∧
  decode 0b00000011#8 = .ok .maprev ∧ decode 0b00000100#8 = .ok .classify ∧ decode 0b00000101#8 = .ok .render ∧
  decode 0b00000110#8 = .ok .encode ∧ decode 0b00000111#8 = .ok .send ∧ decode 0b00001000#8 = .ok .detect ∧
  decode 0b00001001#8 = .ok .rxstep ∧ decode 0b00001010#8 = .ok .rxchunk ∧ decode 0b00001011#8 = .ok .receive ∧
  decode 0b00001100#8 = .ok .stop ∧ decode 0b00001111#8 = .ok .reset

/-- Decode and encode agree on every instruction. -/
def Obligations.EncodedCommandDecodesBack : Prop := ∀ i : Instr, Sys2Proof.Laws.RoundTrip.Statement i

/-- 30_encoding.md R89: every word is one of the fourteen or reserved, never both. -/
def Obligations.EveryWordIsCommandOrReserved : Prop :=
  ∀ w : Byte,
    ((∃ i, w = encode i ∧ decode w = .ok i) ∧ reservedWord w = false) ∨
      (reservedWord w = true ∧ decode w = .error (.reservedOpcode w) ∧ ∀ i, encode i ≠ w)

/-- 30_encoding.md R88, 60_exceptions.md R260, R272: fourteen values decode to a command and 242 to "illegal"; a pending reserved
word is refused with `IllegalCommand` (code 7, the opcode recorded), in every state in which the block takes commands, faulted
and unconfigured ones too, and nothing else changes. That the word leaves the queue of commands (log 6) and its operand stands
on the OPERAND port (log 13) is the model's choice. -/
def Obligations.ReservedOpcodeRefused : Prop :=
  ((List.range 256).countP fun n => decide ((decode (BitVec.ofNat 8 n)).toOption.isSome)) = 14 ∧
  ∀ (s : State) (c : Command) (rest : List Command) (ms : List HostMove),
    reservedWord c.word = true → s.busy = false → s.BlockTurn ms → s.commands = c :: rest →
      step s = .next { s with
        moves := ms, commands := rest, operand := c.operand
        status := 7#4, statusValue := .opcode c.word, events := s.events ++ [.status 7#4] }

/-! ### The step -/

/-- A step runs the decoded command: when the block is idle and the host lets it go on, the oldest pending command is taken,
its operand is on the OPERAND port, and the step is `exec` of the decoded instruction. -/
def Obligations.StepRunsDecodedCommand : Prop :=
  ∀ (s : State) (c : Command) (rest : List Command) (i : Instr),
    s.busy = false → s.commands = c :: rest → decode c.word = .ok i →
      (s.moves = [] → step s = exec i { s with commands := rest, operand := c.operand }) ∧
      (∀ ms, s.moves = .run :: ms →
        step s = exec i { s with moves := ms, commands := rest, operand := c.operand })

/-- 30_encoding.md R90 (c), 93_implementation_defined.md U19, 70_reset_and_hazards.md R291: a block with an operation in
progress takes no command, so in its own steps the pending commands and the OPERAND port are as before; an idle block without a
pending command waits, and nothing changes. Both when the host makes no move and when it lets the block go on. -/
def Obligations.CommandsTakenOnlyWhenIdle : Prop :=
  (∀ (s s' : State) (ms : List HostMove), s.busy = true → s.BlockTurn ms → step s = .next s' →
    s'.commands = s.commands ∧ s'.operand = s.operand ∧ s'.cfg = s.cfg ∧ s'.fwd = s.fwd ∧ s'.moves = ms) ∧
  ∀ (s : State) (ms : List HostMove), s.busy = false → s.commands = [] → s.BlockTurn ms →
    step s = .next { s with moves := ms }

/-- Every command and every step answers a next state: no cause of 60_exceptions.md stops the machine. -/
def Obligations.EveryStepHasSuccessor : Prop :=
  (∀ (i : Instr) (s : State), ∃ t, exec i s = .next t) ∧ ∀ s : State, ∃ t, step s = .next t

/-! ### Reset, NOP, INIT, STOP -/

/-- 10_state.md R45: the state after reset. -/
def Obligations.ResetValues : Prop :=
  State.reset.cfg.waveform = 0 ∧ State.reset.cfg.seed = none ∧ State.reset.cfg.base = none ∧
  State.reset.cfg.step = none ∧ State.reset.cfg.n = none ∧ State.reset.cfg.bpt = none ∧
  State.reset.cfg.thresh = none ∧ State.reset.cfg.reps = none ∧ State.reset.fwd = [] ∧
  State.reset.configured = false ∧ State.reset.work.phase = .listening ∧ State.reset.work.syncbuf = [] ∧
  State.reset.work.bitbuf = [] ∧ State.reset.work.msg = [] ∧ State.reset.running = false ∧
  State.reset.stopReq = false ∧ State.reset.faulted = false ∧ State.reset.faultCause = 0#4 ∧
  State.reset.events = [] ∧ State.reset.tx = []

/-- 47_system_ops.md R322: RESET is accepted in every state and gives the reset state; what has left the block is kept on the
host's side (its own STATUS(0) too, log 14), and the host's side of the ports is as before (log 29). -/
def Obligations.ResetCommandResetsEverything : Prop :=
  ∀ s : State, s.portWait = .idle →
    exec .reset s = .next { State.reset with
      operand := s.operand, rx := s.rx, txOpens := s.txOpens, rxOpens := s.rxOpens
      commands := s.commands, moves := s.moves, params := s.params, draws := s.draws
      pastTx := s.pastTx ++ s.tx, pastEvents := s.pastEvents ++ s.events ++ [.status 0#4] }

/-- 70_reset_and_hazards.md R290 and 93_implementation_defined.md U15: the reset line, in any state, with anything in
progress, gives the reset state; a waveform in progress leaves none or a part of itself on the TX port, for every value of
the free draw. -/
def Obligations.ResetLineResetsEverything : Prop :=
  ∀ (s : State) (ms : List HostMove), s.moves = .resetLine :: ms →
    ∃ (left : List (List Sample)) (d : Nat),
      step s = .next { State.reset with
        operand := s.operand, rx := s.rx, txOpens := s.txOpens, rxOpens := s.rxOpens
        commands := s.commands, moves := ms, params := s.params, draws := d
        pastTx := s.pastTx ++ s.tx ++ left, pastEvents := s.pastEvents ++ s.events } ∧
      (∀ wave, s.portWait = .txWrite wave → ∃ part, left = [part] ∧ part <+: wave) ∧
      ((∀ wave, s.portWait ≠ .txWrite wave) → left = [])

/-- 47_system_ops.md R320: NOP changes no state and emits nothing, in every state; the completion status is 0 (the model's
choice, log 11). -/
def Obligations.NopOnlySetsStatus : Prop :=
  ∀ s : State, exec .nop s = .next { s with status := 0#4, statusValue := .none }

/-- 47_system_ops.md R321, the success: INIT of an unconfigured block with a legal, complete configuration builds the map,
resets the working state and sets `CONFIGURED`; nothing else changes. -/
def Obligations.InitBuildsMap : Prop :=
  ∀ (s : State) (v : CfgValues),
    s.faulted = false → s.configured = false → s.cfg.values = some v → v.legal = true →
      exec .init s = .next { s with
        fwd := buildMap v.seed v.bpt v.base v.step, configured := true
        work := { phase := .listening, syncbuf := [], bitbuf := [], msg := [] }
        status := 0#4, statusValue := .none, events := s.events ++ [.status 0#4] }

/-- 60_exceptions.md R279, 10_state.md R27 and 30_encoding.md R90 (d): INIT of an unconfigured block raises `IllegalConfig`
(code 5) and does nothing when a register is not supplied or a value is not legal; INIT of a configured block is refused with
code 10 and does nothing. -/
def Obligations.InitRefusals : Prop :=
  (∀ s : State, s.faulted = false → s.configured = false →
    (s.cfg.seed = none ∨ s.cfg.base = none ∨ s.cfg.step = none ∨ s.cfg.n = none ∨ s.cfg.bpt = none ∨
      s.cfg.thresh = none ∨ s.cfg.reps = none ∨ 1 < s.cfg.waveform ∨ (∃ x, s.cfg.step = some x ∧ x ≤ 0) ∨
      (∃ x, s.cfg.n = some x ∧ x < 2) ∨ (∃ x, s.cfg.bpt = some x ∧ (x < 4 ∨ 8 < x)) ∨
      (∃ x, s.cfg.reps = some x ∧ x < 1)) →
    exec .init s = .next { s with
      status := 5#4, statusValue := .none, events := s.events ++ [.status 5#4] }) ∧
  ∀ s : State, s.faulted = false → s.configured = true →
    exec .init s = .next { s with
      status := 10#4, statusValue := .none, events := s.events ++ [.status 10#4] }

/-- 46_receiver_state_machine.md R245: the STOP command and the stop line both set `STOP_REQ`, and nothing else but the
command's completion status; while faulted the command is refused with code 9. -/
def Obligations.StopSetsRequest : Prop :=
  (∀ s : State, s.faulted = false →
    exec .stop s = .next { s with
      stopReq := true, status := 0#4, statusValue := .none, events := s.events ++ [.status 0#4] }) ∧
  (∀ s : State, s.faulted = true →
    exec .stop s = .next { s with
      status := 9#4, statusValue := .none, events := s.events ++ [.status 9#4] }) ∧
  (∀ (s : State) (ms : List HostMove), s.moves = .stopLine :: ms →
    step s = .next { s with moves := ms, stopReq := true })

/-! ### Configuration registers and the host's moves -/

/-- 70_reset_and_hazards.md R300: a host write changes its register only, and only while `CONFIGURED = 0`; while
`CONFIGURED = 1` it is ignored. The host's inputs to the sample ports change nothing else (20_memory.md R51; 60_exceptions.md
R264). -/
def Obligations.HostMovesChangeOnlyTheirTarget : Prop :=
  (∀ (s : State) (ms : List HostMove),
    (∀ c, s.moves = .supply c :: ms → step s = .next { s with moves := ms, rx := s.rx ++ c }) ∧
    (∀ b, s.moves = .setPort .tx b :: ms → step s = .next { s with moves := ms, txOpens := b }) ∧
    (∀ b, s.moves = .setPort .rx b :: ms → step s = .next { s with moves := ms, rxOpens := b })) ∧
  ∀ (s : State) (w : CfgWrite) (ms : List HostMove), s.moves = .writeCfg w :: ms →
    (s.configured = true → step s = .next { s with moves := ms }) ∧
    (s.configured = false →
      ∃ c : CfgRegs, step s = .next { s with moves := ms, cfg := c } ∧
        (∀ v, w = .seed v → c = { s.cfg with seed := some v }) ∧
        (∀ v, w = .waveform v → c = { s.cfg with waveform := v }) ∧
        (∀ v, w = .base v → c = { s.cfg with base := some v }) ∧
        (∀ v, w = .step v → c = { s.cfg with step := some v }) ∧
        (∀ v, w = .n v → c = { s.cfg with n := some v }) ∧
        (∀ v, w = .bpt v → c = { s.cfg with bpt := some v }) ∧
        (∀ v, w = .thresh v → c = { s.cfg with thresh := some v }) ∧
        (∀ v, w = .reps v → c = { s.cfg with reps := some v }))

/-- 20_memory.md R69: once the block is configured, no step changes a configuration register or the map, unless it resets the
block (the reset line, or the RESET command taken). -/
def Obligations.ConfigurationAndMapImmutable : Prop :=
  ∀ (s s' : State), s.configured = true → step s = .next s' →
    (s'.cfg = s.cfg ∧ s'.fwd = s.fwd ∧ s'.configured = true) ∨
    (∃ ms, s.moves = .resetLine :: ms) ∨
    (s.busy = false ∧ (∃ ms, s.BlockTurn ms) ∧ ∃ c rest, s.commands = c :: rest ∧ decode c.word = .ok .reset)

/-! ### Refusals and fatal causes -/

/-- 60_exceptions.md R271: each of the ten commands is refused while `CONFIGURED = 0`, with code 6, and does nothing. -/
def Obligations.UnconfiguredCommandsRefused : Prop :=
  ∀ (s : State) (i : Instr), i.needsLaunch = true → s.faulted = false → s.configured = false →
    exec i s = .next { s with
      status := 6#4, statusValue := .none, events := s.events ++ [.status 6#4] }

/-- 30_encoding.md R90 (a): while `FAULTED = 1` every command but NOP and RESET is refused with code 9 and does nothing. -/
def Obligations.FaultedCommandsRefused : Prop :=
  ∀ (s : State) (i : Instr), i ≠ .nop → i ≠ .reset → s.faulted = true →
    exec i s = .next { s with
      status := 9#4, statusValue := .none, events := s.events ++ [.status 9#4] }

/-- 30_encoding.md R87 and 93_implementation_defined.md U4: an operand of the wrong type, a symbol not below `S`, a chunk that
is not `N` samples long, or a tone with a negative frequency or power is refused with code 8, and nothing else changes. -/
def Obligations.BadOperandRefused : Prop :=
  ∀ (s : State) (l : Launch) (i : Instr), s.Ready l → i.needsLaunch = true →
    (i.wellFormed s.operand = false ∨
      (i = .mapfwd ∧ ∃ x, s.operand = .symbol x ∧ symbolSpace l.cfg.bpt ≤ x) ∨
      (i = .detect ∧ ∃ c, s.operand = .chunk c ∧ c.length ≠ l.cfg.n)) →
    exec i s = .next { s with
      status := 8#4, statusValue := .none, events := s.events ++ [.status 8#4] }

/-- 60_exceptions.md R264, R273: SEND on a TX port that cannot be opened, RXCHUNK and RECEIVE on an RX port that cannot be opened,
set `FAULTED` and `FAULT_CAUSE = 4`, report it with the port, and write or read nothing. SEND looks at the port when the message
fits its buffers. SEND and RXCHUNK leave the working state and `STOP_REQ` as they were. RECEIVE does not enter its loop, whatever
`STOP_REQ` is (log 21), and resets the working state and clears `STOP_REQ`, as on every exit (R268; logs 20 and 31). -/
def Obligations.DeviceErrorIsFatal : Prop :=
  (∀ (s : State) (l : Launch) (m : List Byte),
    s.Ready l → s.operand = .bytes m → s.txOpens = false →
    TxFits s.params l.cfg.n (encodeMessage l.cfg.bpt l.cfg.reps m) →
      exec .send s = .next { s with
        faulted := true, faultCause := 4#4, faultValue := .port .tx, running := false, portWait := .idle
        status := 4#4, statusValue := .port .tx, events := s.events ++ [.status 4#4] }) ∧
  ∀ (s : State) (l : Launch), s.Ready l → s.rxOpens = false →
    exec .rxchunk s = .next { s with
      faulted := true, faultCause := 4#4, faultValue := .port .rx, running := false, portWait := .idle
      status := 4#4, statusValue := .port .rx, events := s.events ++ [.status 4#4] } ∧
    exec .receive s = .next { s with
      stopReq := false
      faulted := true, faultCause := 4#4, faultValue := .port .rx, running := false, portWait := .idle
      work := { phase := .listening, syncbuf := [], bitbuf := [], msg := [] }
      status := 4#4, statusValue := .port .rx, events := s.events ++ [.status 4#4] }

/-- 60_exceptions.md R270: a message of more symbols than a finite symbol buffer makes ENCODE and SEND refuse with code 12, and
one of more samples than a finite waveform buffer makes SEND refuse so, before the port is looked at; nothing else changes. That
`TX_CAP` is a capacity of each of the two buffers is log 5. -/
def Obligations.TxOverflowRefused : Prop :=
  ∀ (s : State) (l : Launch) (m : List Byte) (cap : Nat) (i : Instr), s.Ready l → s.operand = .bytes m →
    ((i = .encode ∨ i = .send) ∧ s.params.txCap = some cap ∧ cap < (encodeMessage l.cfg.bpt l.cfg.reps m).length ∨
      i = .send ∧ s.params.txSampleCap = some cap ∧ cap < l.cfg.n * (encodeMessage l.cfg.bpt l.cfg.reps m).length) →
      exec i s = .next { s with
        status := 12#4, statusValue := .none, events := s.events ++ [.status 12#4] }

/-! ### The frequency map -/

/-- 40_frequency_map.md R114: for a legal configuration the built table is a permutation of the candidates, has exactly `S`
distinct values, and `REV(FWD[s]) = s` for every symbol `s`. -/
def Obligations.MapIsBijection : Prop :=
  ∀ (seed : Word32) (bpt : Nat) (base step : Freq), 0 < step →
    (buildMap seed bpt base step).Perm (candidates bpt base step) ∧
    (buildMap seed bpt base step).length = 2 ^ bpt ∧ (buildMap seed bpt base step).Nodup ∧
    ∀ s, s < 2 ^ bpt → rev (buildMap seed bpt base step) ((buildMap seed bpt base step).getD s 0) = some s

/-- 41_seed_derivation.md R139: `XS32` is a bijection on 32-bit words with the fixed point 0, so a generator started from a
value that is not 0 never reaches 0. -/
def Obligations.GeneratorIsBijective : Prop :=
  Function.Bijective xs32 ∧ xs32 0#32 = 0#32 ∧
  ∀ (seed : Word32) (k : Nat), (xs32^[k] (startValue seed)) ≠ 0#32

/-- 40_frequency_map.md R106: MAPFWD returns the map frequency of its symbol; no other state changes. -/
def Obligations.MapfwdReturnsEntry : Prop :=
  ∀ (s : State) (l : Launch) (x : Symbol), s.Ready l → s.operand = .symbol x → x < symbolSpace l.cfg.bpt →
    ∃ f, s.fwd[x]? = some f ∧
      exec .mapfwd s = .next { s with
        result := .frequency f, status := 0#4, statusValue := .none, events := s.events ++ [.status 0#4] }

/-- 40_frequency_map.md R107: MAPREV returns the symbol whose map frequency equals its operand exactly, and `NotMapped` for
every other frequency; no other state changes. -/
def Obligations.MaprevInvertsMap : Prop :=
  ∀ (s : State) (l : Launch) (f : Freq), s.Ready l → l.Built → s.operand = .frequency f →
    ∃ r, exec .maprev s = .next { s with
        result := r, status := 0#4, statusValue := .none, events := s.events ++ [.status 0#4] } ∧
      (∀ x, s.fwd[x]? = some f → r = .symbol x) ∧ (f ∉ s.fwd → r = .notMapped)

/-- 40_frequency_map.md R109 to R112: CLASSIFY answers the symbol of a map frequency `g` that no map frequency beats in
distance, the lowest such, when the distance is at most `STEP`, and `Unclassifiable` when every map frequency is farther than
`STEP`; no other state changes. -/
def Obligations.ClassifyFindsNearest : Prop :=
  ∀ (s : State) (l : Launch) (f : Freq), s.Ready l → l.Built → s.operand = .frequency f →
    ∃ r, exec .classify s = .next { s with
        result := r, status := 0#4, statusValue := .none, events := s.events ++ [.status 0#4] } ∧
      ((∃ x g, r = .symbol x ∧ s.fwd[x]? = some g ∧ |f - g| ≤ l.cfg.step ∧
          ∀ h ∈ s.fwd, |f - g| < |f - h| ∨ (|f - g| = |f - h| ∧ g ≤ h)) ∨
        (r = .unclassifiable ∧ ∀ h ∈ s.fwd, l.cfg.step < |f - h|))

/-- 40_frequency_map.md R113: the closed form of the classification; inside the band the nearest candidate is at most `STEP / 2`
away, so the tolerance test can fail only outside it. -/
def Obligations.ClassifyClosedForm : Prop :=
  ∀ (seed : Word32) (bpt : Nat) (base step f : Freq), 0 < step →
    (classify (buildMap seed bpt base step) step f =
      (candidateIndex bpt base step f).bind fun i => rev (buildMap seed bpt base step) (base + (i : Rat) * step)) ∧
    (base ≤ f → f ≤ base + ((2 ^ bpt - 1 : Nat) : Rat) * step →
      ∃ i, i < 2 ^ bpt ∧ candidateIndex bpt base step f = some i ∧ |f - (base + (i : Rat) * step)| ≤ step / 2)

/-- 10_state.md R23: the host's chunk length is the integer nearest to `FS * chunk_duration_s`, the even one of two. -/
def Obligations.ChunkLengthRoundsHalfToEven : Prop :=
  ∀ duration : Rat, 0 ≤ duration →
    |48000 * duration - (chunkLength duration : Rat)| ≤ 1 / 2 ∧
    (|48000 * duration - (chunkLength duration : Rat)| = 1 / 2 → chunkLength duration % 2 = 0)

/-! ### The tone synthesizer -/

/-- 42_tone_synthesizer.md R150, R151: RENDER returns exactly `N` samples, sample `i` being the scaled product of the window
and the shaped sine; no other state changes. -/
def Obligations.RenderReturnsTone : Prop :=
  ∀ (s : State) (l : Launch) (f : Freq), s.Ready l → s.operand = .frequency f →
    ∃ y : List Sample, y.length = l.cfg.n ∧
      (∀ i, i < l.cfg.n → y[i]? = some (19 / 20 *
        (hann s.params.hannForm i l.cfg.n * shape l.cfg.waveform (sinTurn (f * i / 48000))))) ∧
      exec .render s = .next { s with
        result := .samples y, status := 0#4, statusValue := .none, events := s.events ++ [.status 0#4] }

/-- 42_tone_synthesizer.md R155: facts about the symmetric window, and what they give for a rendered chunk. -/
def Obligations.SymmetricWindowFacts : Prop :=
  ∀ n : Nat, 2 ≤ n →
    hann .symmetric 0 n = 0 ∧ hann .symmetric (n - 1) n = 0 ∧
    (∀ i, i < n → hann .symmetric i n = hann .symmetric (n - 1 - i) n) ∧
    (∀ i, i < n → 0 ≤ hann .symmetric i n ∧ hann .symmetric i n ≤ 1) ∧
    (∀ i, i < n → (hann .symmetric i n = 1 ↔ n % 2 = 1 ∧ i = (n - 1) / 2)) ∧
    ∀ (waveform : Nat) (f : Freq),
      renderSample .symmetric waveform n f 0 = 0 ∧ renderSample .symmetric waveform n f (n - 1) = 0

/-- 42_tone_synthesizer.md R158: the shaped sample lies within 1, the window between 0 and 1, and so every sample of every chunk
is within 95% of full scale, in both window forms. -/
def Obligations.RenderedSamplesInRange : Prop :=
  ∀ (form : Config.HannForm) (waveform n : Nat) (f : Freq),
    (∀ i, |shape waveform (rawSine f i)| ≤ 1 ∧ 0 ≤ hann form i n ∧ hann form i n ≤ 1) ∧
    ∀ y ∈ render form waveform n f, |y| ≤ 19 / 20

/-- 42_tone_synthesizer.md R161 (a) to (d): the chunks of 0 Hz and 24000 Hz are all zeros; `f` and `f + FS` alias; a negative
frequency gives the negated chunk. -/
def Obligations.RenderCornerCases : Prop :=
  ∀ (form : Config.HannForm) (waveform n : Nat),
    render form waveform n 0 = List.replicate n 0 ∧ render form waveform n 24000 = List.replicate n 0 ∧
    (∀ f, render form waveform n (f + 48000) = render form waveform n f) ∧
    (∀ f, render form waveform n (48000 - f) = (render form waveform n f).map fun y => -y) ∧
    (∀ f, render form waveform n (-f) = (render form waveform n f).map fun y => -y)

/-- 42_tone_synthesizer.md R152 to R157 over the real numbers: every sample lies within 1e-8 of the real formula, for both
waveforms and both window forms, whatever the free values of `NUM` are (the tolerance is the model's choice, log 1). -/
def Obligations.RenderTracksRealFormula : Prop :=
  ∀ (form : Config.HannForm) (waveform n : Nat) (f : Freq) (i : Nat), 2 ≤ n → i < n →
    |((renderSample form waveform n f i : Rat) : ℝ) -
        0.95 * ((1 / 2 - 1 / 2 * Real.cos (2 * Real.pi * i / (windowSpan form n : Rat))) *
          (if waveform = 0 then min 1 (max (-1) (1.5 * Real.sin (2 * Real.pi * f * i / 48000)))
            else Real.sign (Real.sin (2 * Real.pi * f * i / 48000))))| ≤ 1 / 10 ^ 8

/-! ### The frame codec and the modulator -/

/-- 43_frame_codec.md R170: ENCODE of a message whose symbols fit returns the preamble followed by the data symbols; no other
state changes. ENCODE builds no waveform, so the waveform buffer does not matter. -/
def Obligations.EncodeReturnsSymbols : Prop :=
  ∀ (s : State) (l : Launch) (m : List Byte), s.Ready l → s.operand = .bytes m →
    (∀ c, s.params.txCap = some c → (encodeMessage l.cfg.bpt l.cfg.reps m).length ≤ c) →
      exec .encode s = .next { s with
        result := .symbols ((List.replicate l.cfg.reps [10, 5]).flatten ++ dataSymbols l.cfg.bpt m)
        status := 0#4, statusValue := .none, events := s.events ++ [.status 0#4] }

/-- 43_frame_codec.md R176: the lengths. -/
def Obligations.EncodedLengths : Prop :=
  ∀ (bpt reps : Nat) (m : List Byte), 4 ≤ bpt → bpt ≤ 8 →
    (encodeMessage bpt reps m).length = 2 * reps + (8 * (m.length + 2) + bpt - 1) / bpt ∧
    (bpt = 4 → (encodeMessage bpt reps m).length = 2 * reps + 2 * m.length + 4) ∧
    (bpt = 8 → (encodeMessage bpt reps m).length = 2 * reps + m.length + 2) ∧
    (encodeMessage bpt reps []).length = 2 * reps + (16 + bpt - 1) / bpt ∧
    (encodeMessage bpt reps []).length ≤ (encodeMessage bpt reps m).length

/-- 30_encoding.md R72 to R76: the bits of the data symbols, most significant first, are the bits of the frame bytes, most
significant first, followed by fewer than `BPT` zeros; every data symbol is below `S`; and all data symbols but the last lie
wholly inside the frame bits (R75). -/
def Obligations.DataSymbolsCarryFrameBits : Prop :=
  ∀ (bpt : Nat) (m : List Byte), 4 ≤ bpt → bpt ≤ 8 →
    (∃ pad, pad < bpt ∧
      (dataSymbols bpt m).flatMap (bitsOf bpt) =
        (([0x02#8] ++ m ++ [0x03#8]).flatMap fun b =>
          [b.getLsbD 7, b.getLsbD 6, b.getLsbD 5, b.getLsbD 4, b.getLsbD 3, b.getLsbD 2, b.getLsbD 1, b.getLsbD 0])
          ++ List.replicate pad false) ∧
    (∀ x ∈ dataSymbols bpt m, x < 2 ^ bpt) ∧
    ((dataSymbols bpt m).length - 1) * bpt < 8 * (m.length + 2)

/-- 44_modulator_send.md R190 to R192: SEND of a message that fits its buffers builds the whole waveform and hands it to the TX
port in one transfer; while the host has not accepted it nothing else has changed (log 8). -/
def Obligations.SendHandsOverOneWaveform : Prop :=
  ∀ (s : State) (l : Launch) (m : List Byte), s.Ready l → s.operand = .bytes m → s.txOpens = true →
    TxFits s.params l.cfg.n (encodeMessage l.cfg.bpt l.cfg.reps m) →
      exec .send s = .next { s with
        portWait := .txWrite (((encodeMessage l.cfg.bpt l.cfg.reps m).map fun x =>
          render s.params.hannForm l.cfg.waveform l.cfg.n (s.fwd.getD x 0)).flatten) }

/-- 44_modulator_send.md R191: sample `k * N + n` of the waveform is sample `n` of the chunk of symbol `k`, and nothing stands
between the chunks. -/
def Obligations.WaveformLayout : Prop :=
  ∀ (form : Config.HannForm) (l : Launch) (syms : List Symbol),
    (waveform form l syms).length = l.cfg.n * syms.length ∧
    ∀ k n x, syms[k]? = some x → n < l.cfg.n →
      (waveform form l syms)[k * l.cfg.n + n]? =
        some (renderSample form l.cfg.waveform l.cfg.n (l.fwd.getD x 0) n)

/-- 20_memory.md R50 and 44_modulator_send.md R192: SEND ends when the host has accepted the whole waveform: it stands on the TX
port as one transfer and STATUS(0) is reported; until then the block waits and nothing changes. -/
def Obligations.TxTransferCompletesOnAcceptance : Prop :=
  ∀ (s : State) (wave : List Sample), s.portWait = .txWrite wave →
    (∀ ms, s.moves = .acceptTx :: ms →
      step s = .next { s with
        moves := ms, portWait := .idle, tx := s.tx ++ [wave]
        status := 0#4, statusValue := .none, events := s.events ++ [.status 0#4] }) ∧
    (∀ ms, s.BlockTurn ms → step s = .next { s with moves := ms })

/-! ### The spectral detector -/

/-- 45_spectral_detector.md R200, R205 to R207: DETECT returns the strongest bin, the lowest of equals, as a tone at its bin
frequency with its magnitude, or silence when that magnitude is below `THRESH`; no other state changes. -/
def Obligations.DetectReturnsStrongestBin : Prop :=
  ∀ (s : State) (l : Launch) (c : List Sample), s.Ready l → s.operand = .chunk c → c.length = l.cfg.n →
    ∃ kmax, kmax ≤ l.cfg.n / 2 ∧
      (∀ j, j ≤ l.cfg.n / 2 →
        magnitude s.params.hannForm l.cfg.n c j ≤ magnitude s.params.hannForm l.cfg.n c kmax) ∧
      (∀ j, j < kmax → magnitude s.params.hannForm l.cfg.n c j < magnitude s.params.hannForm l.cfg.n c kmax) ∧
      exec .detect s = .next { s with
        result := .detection
          (if magnitude s.params.hannForm l.cfg.n c kmax < l.cfg.thresh then .silence
            else .tone (kmax * 48000 / l.cfg.n) (magnitude s.params.hannForm l.cfg.n c kmax))
        status := 0#4, statusValue := .none, events := s.events ++ [.status 0#4] }

/-- 45_spectral_detector.md R202, R204 over the real numbers: the magnitude of bin `k` lies close to the modulus of the
unnormalised discrete Fourier transform of the windowed chunk, whatever the free values of `NUM` are (the tolerance is the
model's choice, log 1). -/
def Obligations.MagnitudeTracksRealTransform : Prop :=
  ∀ (form : Config.HannForm) (n : Nat) (c : List Sample) (k : Nat), 2 ≤ n → c.length = n →
    |((magnitude form n c k : Rat) : ℝ) -
        Real.sqrt
          ((∑ i ∈ Finset.range n, (1 / 2 - 1 / 2 * Real.cos (2 * Real.pi * i / (windowSpan form n : Rat))) *
              (c.getD i 0 : Rat) * Real.cos (2 * Real.pi * k * i / n)) ^ 2 +
            (∑ i ∈ Finset.range n, (1 / 2 - 1 / 2 * Real.cos (2 * Real.pi * i / (windowSpan form n : Rat))) *
              (c.getD i 0 : Rat) * Real.sin (2 * Real.pi * k * i / n)) ^ 2)| ≤
      1 / 10 ^ 8 * (1 + ∑ i ∈ Finset.range n, |((c.getD i 0 : Rat) : ℝ)|)

/-- 45_spectral_detector.md R210 (a), (c), (d), with the symmetric window: an all-zero chunk is silence when `THRESH > 0` and a
tone of 0 Hz and magnitude 0 otherwise; the first and the last sample never matter; with `N = 2` every chunk is like the
all-zero chunk. -/
def Obligations.DetectorCornerCases : Prop :=
  ∀ (n : Nat) (thresh : Rat), 2 ≤ n →
    detect .symmetric n thresh (List.replicate n 0) = (if 0 < thresh then .silence else .tone 0 0) ∧
    (∀ (c d : List Sample), (∀ i, 0 < i → i < n - 1 → c.getD i 0 = d.getD i 0) →
      detect .symmetric n thresh c = detect .symmetric n thresh d) ∧
    (n = 2 → ∀ c, detect .symmetric n thresh c = (if 0 < thresh then .silence else .tone 0 0))

/-! ### The receiver -/

/-- 46_receiver_state_machine.md R223, R236: RXSTEP applies the transition function to the working state: it writes the working
state, appends the step's events and then STATUS(0), and returns the tag; no other state changes. The transition function
answers for every detector result when `MSG` is unbounded, and with a finite `MSG_CAP` unless a byte overflows it (R231). -/
def Obligations.RxstepAppliesTransition : Prop :=
  (∀ (s : State) (l : Launch) (d : Detection) (w : Working) (evs : List Event) (tag : StepTag),
    s.Ready l → s.operand = .detection d → d.wellFormed = true → rxStep l s.params.msgCap s.work d = .done w evs tag →
      exec .rxstep s = .next { s with
        work := w, result := .tag tag
        status := 0#4, statusValue := .none, events := s.events ++ evs ++ [.status 0#4] }) ∧
  (∀ (l : Launch) (w : Working) (d : Detection), ∃ w' evs tag, rxStep l none w d = .done w' evs tag) ∧
  ∀ (l : Launch) (cap : Nat) (w : Working) (d : Detection), l.cfg.bpt ≤ 8 → w.bitbuf.length ≤ 7 → w.msg.length < cap →
    ∃ w' evs tag, rxStep l (some cap) w d = .done w' evs tag

/-- 46_receiver_state_machine.md R224: silence while decoding resets the working state, emits nothing, and is `Aborted`. -/
def Obligations.SilenceAbortsDecoding : Prop :=
  ∀ (l : Launch) (cap : Option Nat) (w : Working), w.phase = .decoding →
    rxStep l cap w .silence = .done { phase := .listening, syncbuf := [], bitbuf := [], msg := [] } [] .aborted

/-- 46_receiver_state_machine.md R222, R225, R227: silence while listening and an unclassifiable tone in either phase change
nothing and emit nothing; the power of a tone is never read. -/
def Obligations.SilentAndNoisyChunksIgnored : Prop :=
  ∀ (l : Launch) (cap : Option Nat) (w : Working),
    (w.phase = .listening → rxStep l cap w .silence = .done w [] .idleSilence) ∧
    (∀ f p, (∀ g ∈ l.fwd, l.cfg.step < |f - g|) → rxStep l cap w (.tone f p) = .done w [] .ignored) ∧
    (∀ f p q, rxStep l cap w (.tone f p) = rxStep l cap w (.tone f q))

/-- 46_receiver_state_machine.md R226: a classified symbol while listening is appended to the sliding buffer, of which the last
`L` symbols are kept; the step enters decoding with everything cleared exactly when they are the preamble. -/
def Obligations.PreambleIsMatchedWhole : Prop :=
  ∀ (l : Launch) (cap : Option Nat) (w : Working) (f : Freq) (p : Sample) (x : Symbol),
    w.phase = .listening → w.syncbuf.length ≤ preambleLength l.cfg.reps → 1 ≤ l.cfg.reps →
    classify l.fwd l.cfg.step f = some x →
      ∃ q, q <:+ w.syncbuf ++ [x] ∧ q.length = min (w.syncbuf.length + 1) (2 * l.cfg.reps) ∧
        (q = (List.replicate l.cfg.reps [10, 5]).flatten →
          rxStep l cap w (.tone f p) =
            .done { phase := .decoding, syncbuf := [], bitbuf := [], msg := [] } [] .synced) ∧
        (q ≠ (List.replicate l.cfg.reps [10, 5]).flatten →
          rxStep l cap w (.tone f p) = .done { w with syncbuf := q } [] .shifted)

/-- 00_scope.md R19 (c): from an empty sliding buffer, `L` classified symbols end in the decoding phase exactly when they are
the preamble. -/
def Obligations.PreambleExactness : Prop :=
  ∀ (l : Launch) (cap : Option Nat) (syms : List Symbol), l.Built →
    syms.length = 2 * l.cfg.reps → (∀ x ∈ syms, x < symbolSpace l.cfg.bpt) →
      ∃ w tags, runReceiver l cap Working.reset (cleanTones l syms) = some (w, [], tags) ∧
        (w.phase = .decoding ↔ syms = (List.replicate l.cfg.reps [10, 5]).flatten) ∧
        (syms = (List.replicate l.cfg.reps [10, 5]).flatten →
          w = { phase := .decoding, syncbuf := [], bitbuf := [], msg := [] } ∧
            tags = List.replicate (2 * l.cfg.reps - 1) .shifted ++ [.synced])

/-- 46_receiver_state_machine.md R228 to R232: a classified symbol while decoding, with the buffer within its bound. Fewer than
eight bits: they are kept. Eight or more: the oldest eight are one byte; a start marker or a byte above `0x7F` is dropped, an
end marker completes the message, any other byte is appended and sent at once. -/
def Obligations.SymbolWhileDecoding : Prop :=
  ∀ (l : Launch) (w : Working) (f : Freq) (p : Sample) (x : Symbol),
    w.phase = .decoding → w.bitbuf.length ≤ 7 → 4 ≤ l.cfg.bpt → l.cfg.bpt ≤ 8 →
    classify l.fwd l.cfg.step f = some x →
      ((w.bitbuf ++ bitsOf l.cfg.bpt x).length < 8 →
        rxStep l none w (.tone f p) = .done { w with bitbuf := w.bitbuf ++ bitsOf l.cfg.bpt x } [] (.data 0)) ∧
      (∀ b : Byte, (w.bitbuf ++ bitsOf l.cfg.bpt x).take 8 = bitsOf 8 b.toNat →
        ((b = 0x02#8 ∨ 0x80 ≤ b.toNat) →
          rxStep l none w (.tone f p) =
            .done { w with bitbuf := (w.bitbuf ++ bitsOf l.cfg.bpt x).drop 8 } [] (.data 1)) ∧
        (b = 0x03#8 →
          rxStep l none w (.tone f p) =
            .done { phase := .listening, syncbuf := [], bitbuf := [], msg := [] } [.msgDone w.msg] .completed) ∧
        (b ≠ 0x02#8 → b ≠ 0x03#8 → b.toNat ≤ 0x7F →
          rxStep l none w (.tone f p) =
            .done { w with
              bitbuf := (w.bitbuf ++ bitsOf l.cfg.bpt x).drop 8, msg := w.msg ++ [Char.ofNat b.toNat] }
              [.charOut (Char.ofNat b.toNat)] (.data 1)))

/-- 46_receiver_state_machine.md R235: a step pops at most one byte and emits at most one event, and the bit buffer holds at most
seven bits after it. -/
def Obligations.ReceiverStepBounds : Prop :=
  ∀ (l : Launch) (cap : Option Nat) (w w' : Working) (d : Detection) (evs : List Event) (tag : StepTag),
    l.cfg.bpt ≤ 8 → (w.phase = .decoding → w.bitbuf.length ≤ 7) → (w.phase = .listening → w.bitbuf = []) →
    rxStep l cap w d = .done w' evs tag →
      w'.bitbuf.length ≤ 7 ∧ evs.length ≤ 1 ∧ ∀ n, tag = .data n → n ≤ 1

/-- 60_exceptions.md R268, R270, R273: with a finite `MSG_CAP` a decodable byte for a full message is the fatal `MsgOverflow`, in RXSTEP,
in RXCHUNK, and in an iteration of RECEIVE or a resumed read: the fault is latched with code 11, nothing runs or waits any more,
no character is emitted, and the samples of the chunk are consumed. RECEIVE resets the working state and clears
`STOP_REQ`, RXSTEP and RXCHUNK leave both as they were before the step (log 20). -/
def Obligations.MsgOverflowIsFatal : Prop :=
  (∀ (l : Launch) (w : Working) (f : Freq) (p : Sample) (x : Symbol) (cap : Nat) (b : Byte),
    w.phase = .decoding → classify l.fwd l.cfg.step f = some x →
    (w.bitbuf ++ bitsOf l.cfg.bpt x).take 8 = bitsOf 8 b.toNat →
    b ≠ 0x02#8 → b ≠ 0x03#8 → b.toNat ≤ 0x7F → cap ≤ w.msg.length →
      rxStep l (some cap) w (.tone f p) = .msgOverflow) ∧
  (∀ (s : State) (l : Launch) (d : Detection), s.Ready l → s.operand = .detection d → d.wellFormed = true →
    rxStep l s.params.msgCap s.work d = .msgOverflow →
      exec .rxstep s = .next { s with
        faulted := true, faultCause := 11#4, faultValue := .none, running := false, portWait := .idle
        status := 11#4, statusValue := .none, events := s.events ++ [.status 11#4] }) ∧
  (∀ (s : State) (l : Launch), s.Ready l → s.running = false → s.rxOpens = true → l.cfg.n ≤ s.rx.length →
    rxStep l s.params.msgCap s.work (detect s.params.hannForm l.cfg.n l.cfg.thresh (s.rx.take l.cfg.n)) = .msgOverflow →
      exec .rxchunk s = .next { s with
        rx := s.rx.drop l.cfg.n
        faulted := true, faultCause := 11#4, faultValue := .none, running := false, portWait := .idle
        status := 11#4, statusValue := .none, events := s.events ++ [.status 11#4] }) ∧
  ∀ (s : State) (l : Launch) (ms : List HostMove), s.launch = some l → s.BlockTurn ms →
    (s.portWait = .rxRead ∨ (s.running = true ∧ s.portWait = .idle ∧ s.stopReq = false)) → l.cfg.n ≤ s.rx.length →
    rxStep l s.params.msgCap s.work (detect s.params.hannForm l.cfg.n l.cfg.thresh (s.rx.take l.cfg.n)) = .msgOverflow →
      step s = .next { s with
        moves := ms, rx := s.rx.drop l.cfg.n
        faulted := true, faultCause := 11#4, faultValue := .none, running := false, portWait := .idle
        stopReq := if s.running then false else s.stopReq
        work := if s.running then { phase := .listening, syncbuf := [], bitbuf := [], msg := [] } else s.work
        status := 11#4, statusValue := .none, events := s.events ++ [.status 11#4] }

/-- 46_receiver_state_machine.md R237: what a clean transmission decodes to. From the reset working state, tones exactly on the map
frequencies of `TXSYMS(M)` give: `Synced` at the end of the preamble, then one CHAR_OUT for each character of the text and
MSG_DONE with the text. Without a byte `0x03` in `M` nothing follows, the last step is `Completed`, and the working state is
the reset one. The text is `M` exactly when every byte of `M` is at most `0x7F` and none is a marker. -/
def Obligations.CleanTransmissionDecodes : Prop :=
  ∀ (l : Launch) (m : List Byte), l.Built →
    (∃ w tags, runReceiver l none Working.reset (cleanTones l (preamble l.cfg.reps)) =
        some (w, [], tags ++ [.synced])) ∧
    (∃ w more tags, runReceiver l none Working.reset (cleanTones l (encodeMessage l.cfg.bpt l.cfg.reps m)) =
        some (w, (decodedText m).map .charOut ++ [.msgDone (decodedText m)] ++ more, tags) ∧
      (0x03#8 ∉ m → more = [] ∧ w = Working.reset ∧ tags.getLast? = some .completed)) ∧
    (decodedText m = (m.map fun b => Char.ofNat b.toNat) ↔
      ∀ b ∈ m, b.toNat ≤ 0x7F ∧ b ≠ 0x02#8 ∧ b ≠ 0x03#8)

/-- 46_receiver_state_machine.md R238 and 20_memory.md R51, R62: RXCHUNK with at least `N` samples supplied removes exactly the
first `N` samples, and applies the detector and the transition function in one transition; the tag is its result. An RXCHUNK that
waited inside its read does the same in the step in which the samples are there (logs 9 and 10). -/
def Obligations.RxchunkProcessesOneChunk : Prop :=
  ∀ (s : State) (l : Launch) (w : Working) (evs : List Event) (tag : StepTag),
    s.running = false → l.cfg.n ≤ s.rx.length →
    rxStep l s.params.msgCap s.work (detect s.params.hannForm l.cfg.n l.cfg.thresh (s.rx.take l.cfg.n)) = .done w evs tag →
      (s.Ready l → s.rxOpens = true →
        exec .rxchunk s = .next { s with
          work := w, result := .tag tag, rx := s.rx.drop l.cfg.n, portWait := .idle
          status := 0#4, statusValue := .none, events := s.events ++ evs ++ [.status 0#4] }) ∧
      (∀ ms, s.launch = some l → s.portWait = .rxRead → s.BlockTurn ms →
        step s = .next { s with
          moves := ms, work := w, result := .tag tag, rx := s.rx.drop l.cfg.n, portWait := .idle
          status := 0#4, statusValue := .none, events := s.events ++ evs ++ [.status 0#4] })

/-- 20_memory.md R51 and 46_receiver_state_machine.md R243: without `N` samples RXCHUNK, and an iteration of RECEIVE without a stop
request, enter `RxRead` and wait there: nothing is consumed and nothing else changes, step after step, until the host supplies
them (logs 9 and 10). -/
def Obligations.RxReadBlocksWithoutSamples : Prop :=
  (∀ (s : State) (l : Launch), s.Ready l → s.rxOpens = true → s.rx.length < l.cfg.n →
    exec .rxchunk s = .next { s with portWait := .rxRead }) ∧
  (∀ (s : State) (l : Launch) (ms : List HostMove), s.launch = some l → s.running = true → s.portWait = .idle →
    s.stopReq = false → s.rx.length < l.cfg.n → s.BlockTurn ms →
      step s = .next { s with moves := ms, portWait := .rxRead }) ∧
  ∀ (s : State) (l : Launch) (ms : List HostMove), s.launch = some l → s.portWait = .rxRead → s.rx.length < l.cfg.n →
    s.BlockTurn ms → step s = .next { s with moves := ms }

/-- 46_receiver_state_machine.md R240, R241: RECEIVE sets `RUNNING` and begins from the reset working state; no other state
changes. -/
def Obligations.ReceiveStartsLoop : Prop :=
  ∀ (s : State) (l : Launch), s.Ready l → s.rxOpens = true →
    exec .receive s = .next { s with
      running := true, work := { phase := .listening, syncbuf := [], bitbuf := [], msg := [] } }

/-- 46_receiver_state_machine.md R243, R244: at the iteration boundary a stop request ends RECEIVE: no sample is read, `STOP_REQ`
and `RUNNING` are cleared, the working state is reset, no MSG_DONE is emitted, STATUS(0) is reported. -/
def Obligations.ReceiveStopsAtBoundary : Prop :=
  ∀ (s : State) (l : Launch) (ms : List HostMove), s.launch = some l → s.running = true → s.portWait = .idle →
    s.stopReq = true → s.BlockTurn ms →
      step s = .next { s with
        moves := ms, running := false, stopReq := false
        work := { phase := .listening, syncbuf := [], bitbuf := [], msg := [] }
        status := 0#4, statusValue := .none, events := s.events ++ [.status 0#4] }

/-- 20_memory.md R62, R68 and 46_receiver_state_machine.md R242, R243: inside RECEIVE a chunk is one transition. It is processed
when the block is at a boundary without a stop request, or already inside `RxRead` whatever `STOP_REQ` is; a request raised
meanwhile stays latched and does not cut the iteration short. -/
def Obligations.ReceiveIterationIsAtomic : Prop :=
  ∀ (s : State) (l : Launch) (ms : List HostMove) (w : Working) (evs : List Event) (tag : StepTag),
    s.launch = some l → s.running = true → s.BlockTurn ms →
    (s.portWait = .rxRead ∨ (s.portWait = .idle ∧ s.stopReq = false)) → l.cfg.n ≤ s.rx.length →
    rxStep l s.params.msgCap s.work (detect s.params.hannForm l.cfg.n l.cfg.thresh (s.rx.take l.cfg.n)) = .done w evs tag →
      step s = .next { s with
        moves := ms, work := w, rx := s.rx.drop l.cfg.n, portWait := .idle, events := s.events ++ evs }

/-! ### Invariants -/

/-- 10_state.md R37: every receiver step keeps the invariant of the working state, and its widths, and every character it sends
on its own or in a message is at most U+007F (60_exceptions.md R266). -/
def Obligations.WorkingStateInvariantKept : Prop :=
  ∀ (l : Launch) (cap : Option Nat) (w w' : Working) (d : Detection) (evs : List Event) (tag : StepTag),
    l.cfg.legal = true → l.fwd.length = symbolSpace l.cfg.bpt → w.Inv l.cfg.reps → w.Typed l.cfg.bpt →
    rxStep l cap w d = .done w' evs tag →
      w'.Inv l.cfg.reps ∧ w'.Typed l.cfg.bpt ∧ (∀ c, .charOut c ∈ evs → c.toNat ≤ 0x7F) ∧
        ∀ t, .msgDone t ∈ evs → ∀ c ∈ t, c.toNat ≤ 0x7F

/-- Every step keeps the invariant of the whole block: the map is the one INIT builds from the frozen configuration, the working
state keeps 10_state.md R37, the fault bit and its cause agree, nothing runs after a fatal cause, the block does not send while
it receives, and every TX sample is within 95% of full scale. -/
def Obligations.StepKeepsInvariant : Prop := ∀ s s' : State, s.Inv → step s = .next s' → s'.Inv

/-- The invariant holds after reset. -/
def Obligations.ResetSatisfiesInvariant : Prop := State.reset.Inv

/-- 70_reset_and_hazards.md R292: no step recalls an event or a TX transfer: what was emitted or written, in this launch or an
earlier one, stays, in order. -/
def Obligations.OutputsAreNeverRecalled : Prop :=
  ∀ s s' : State, step s = .next s' →
    (s.pastEvents ++ s.events <+: s'.pastEvents ++ s'.events) ∧ (s.pastTx ++ s.tx <+: s'.pastTx ++ s'.tx)
end

