-- ==== Sys2Proof/Laws/FrameCodec.lean ====
section
/-! SUPPORT. What the bit sequences and the symbol slicing can answer, said once (00_scope.md R12; 30_encoding.md R72 to
R76). -/

namespace Sys2Proof.Machine

@[simp] theorem bitsOf_length (w v : Nat) : (bitsOf w v).length = w := by simp [bitsOf]

theorem bitsOf_getElem? {w v i : Nat} (h : i < w) : (bitsOf w v)[i]? = some (v.testBit (w - 1 - i)) := by
  simp [bitsOf, h]

/-- The bits of a byte, first the most significant one. -/
theorem bitsOf_eight (b : Byte) :
    bitsOf 8 b.toNat =
      [b.getLsbD 7, b.getLsbD 6, b.getLsbD 5, b.getLsbD 4, b.getLsbD 3, b.getLsbD 2, b.getLsbD 1, b.getLsbD 0] := rfl

/-- A first bit moves the value of the rest up. -/
theorem bitsValue_cons (b : Bit) (q : List Bit) : bitsValue (b :: q) = b.toNat * 2 ^ q.length + bitsValue q := by
  have h : ∀ (q : List Bit) (a : Nat),
      q.foldl (fun acc b => 2 * acc + b.toNat) a = a * 2 ^ q.length + bitsValue q := by
    intro q
    induction q with
    | nil => simp [bitsValue]
    | cons c t ih =>
      intro a
      simp only [List.foldl_cons, List.length_cons, bitsValue]
      rw [ih, ih]
      simp only [bitsValue]
      ring
  simp only [bitsValue, List.foldl_cons, Nat.mul_zero, Nat.zero_add]
  rw [h]; rfl

@[simp] theorem bitsValue_nil : bitsValue [] = 0 := rfl

theorem bitsValue_lt (q : List Bit) : bitsValue q < 2 ^ q.length := by
  induction q with
  | nil => simp
  | cons b t ih =>
    rw [bitsValue_cons, List.length_cons, pow_succ]
    cases b <;> simp <;> omega

/-- Reading the bits of a value gives the value back, within its width. -/
theorem bitsValue_bitsOf (w v : Nat) : bitsValue (bitsOf w v) = v % 2 ^ w := by
  induction w generalizing v with
  | zero => simp [bitsOf, Nat.mod_one]
  | succ w ih =>
    have : bitsOf (w + 1) v = v.testBit w :: bitsOf w v := by
      simp only [bitsOf, List.range_succ_eq_map, List.map_cons, List.map_map]
      congr 1
      apply List.map_congr_left
      intro i _
      simp only [Function.comp]
      congr 1
      omega
    rw [this, bitsValue_cons, ih, bitsOf_length, Nat.mod_pow_succ, Nat.toNat_testBit]
    ring

/-- Writing the value of a bit sequence gives the bit sequence back. -/
theorem bitsOf_bitsValue (q : List Bit) : bitsOf q.length (bitsValue q) = q := by
  have inj : ∀ p q : List Bit, p.length = q.length → bitsValue p = bitsValue q → p = q := by
    intro p
    induction p with
    | nil => intro q h _; simpa using h.symm
    | cons a t ih =>
      intro q h hv
      cases q with
      | nil => simp at h
      | cons b u =>
        have hl : t.length = u.length := by simpa using h
        rw [bitsValue_cons, bitsValue_cons, hl] at hv
        have h1 := bitsValue_lt t
        have h2 := bitsValue_lt u
        rw [hl] at h1
        have hab : a = b := by
          cases a <;> cases b <;> simp at hv ⊢ <;> omega
        subst hab
        rw [ih u hl (Nat.add_left_cancel hv)]
  apply inj
  · simp
  · rw [bitsValue_bitsOf, Nat.mod_eq_of_lt (bitsValue_lt q)]

@[simp] theorem frame_length (m : List Byte) : (frame m).length = m.length + 2 := by simp [frame]

@[simp] theorem frameBits_length (m : List Byte) : (frameBits m).length = 8 * (m.length + 2) := by
  simp [frameBits, List.length_flatMap, Nat.mul_comm]

/-- The padding is shorter than a symbol and completes the last one (30_encoding.md R73). -/
theorem padLength_spec {bpt : Nat} (h : 0 < bpt) (len : Nat) : padLength bpt len < bpt ∧ bpt ∣ len + padLength bpt len := by
  refine ⟨Nat.mod_lt _ h, ?_⟩
  unfold padLength
  have hm := Nat.mod_lt len h
  rcases Nat.eq_zero_or_pos (len % bpt) with h0 | h0
  · rw [h0, Nat.sub_zero, Nat.mod_self, Nat.add_zero]; exact Nat.dvd_of_mod_eq_zero h0
  · rw [Nat.mod_eq_of_lt (by omega)]
    refine ⟨len / bpt + 1, ?_⟩
    have := Nat.div_add_mod len bpt
    rw [Nat.mul_add, Nat.mul_one]
    omega

@[simp] theorem sliceSymbols_length (bpt : Nat) (q : List Bit) : (sliceSymbols bpt q).length = q.length / bpt := by
  simp [sliceSymbols]

/-- A bit sequence of whole symbols: its first group is the first symbol. -/
theorem sliceSymbols_append {bpt : Nat} (h : 0 < bpt) (p q : List Bit) (hp : p.length = bpt) :
    sliceSymbols bpt (p ++ q) = bitsValue p :: sliceSymbols bpt q := by
  have hl : (p ++ q).length / bpt = q.length / bpt + 1 := by
    rw [List.length_append, hp, Nat.add_comm, Nat.add_div_right _ h]
  simp only [sliceSymbols, hl, List.range_succ_eq_map, List.map_cons, List.map_map]
  congr 1
  · simp [← hp]
  · apply List.map_congr_left
    intro k _
    simp only [Function.comp]
    have : (k + 1) * bpt = p.length + k * bpt := by rw [hp]; ring
    rw [this, ← List.drop_drop, List.drop_left]

/-- Slicing loses no bit: the bits of the symbols are the sliced bits (30_encoding.md R74, R76). -/
theorem flatMap_sliceSymbols {bpt : Nat} (h : 0 < bpt) (q : List Bit) (hq : bpt ∣ q.length) :
    (sliceSymbols bpt q).flatMap (bitsOf bpt) = q := by
  obtain ⟨k, hk⟩ := hq
  induction k generalizing q with
  | zero =>
    have : q = [] := by simpa using hk
    subst this
    simp [sliceSymbols]
  | succ k ih =>
    have hp : (q.take bpt).length = bpt := by rw [List.length_take, hk]; exact Nat.min_eq_left (Nat.le_mul_of_pos_right _ (by omega))
    have e := sliceSymbols_append h (q.take bpt) (q.drop bpt) hp
    rw [List.take_append_drop] at e
    rw [e, List.flatMap_cons, ih (q.drop bpt) (by rw [List.length_drop, hk, Nat.mul_succ]; omega)]
    have hb := bitsOf_bitsValue (q.take bpt)
    rw [hp] at hb
    rw [hb, List.take_append_drop]

/-- A symbol of a sliced sequence is a `BPT`-bit value (30_encoding.md R76). -/
theorem mem_sliceSymbols_lt {bpt : Nat} {q : List Bit} {x : Symbol} (h : x ∈ sliceSymbols bpt q) : x < 2 ^ bpt := by
  simp only [sliceSymbols, List.mem_map, List.mem_range] at h
  obtain ⟨k, -, rfl⟩ := h
  exact lt_of_lt_of_le (bitsValue_lt _) (Nat.pow_le_pow_right (by norm_num) (by simp))

@[simp] theorem preamble_length (reps : Nat) : (preamble reps).length = preambleLength reps := by
  simp [preamble, preambleLength, Config.preambleBase, Nat.mul_comm]

/-- What a finite capacity turns away. -/
theorem overCap_iff {cap : Option Nat} {count : Nat} : overCap cap count = true ↔ ∃ c, cap = some c ∧ c < count := by
  cases cap <;> simp [overCap]

/-- What a capacity lets pass. -/
theorem overCap_eq_false {cap : Option Nat} {count : Nat} : overCap cap count = false ↔ ∀ c, cap = some c → count ≤ c := by
  cases cap <;> simp [overCap]

end Sys2Proof.Machine
end

