-- ==== Sys2Proof/Laws/FrequencyMap.lean ====
section
/-! SUPPORT. What the map construction, the lookups and the nearest-frequency search can answer, said once
(40_frequency_map.md). -/

namespace Sys2Proof.Machine

/-! ### The construction -/

@[simp] theorem swapEntries_length (w : List Freq) (i j : Nat) : (swapEntries w i j).length = w.length := by
  simp [swapEntries]

/-- An exchange only reorders the working list. -/
theorem swapEntries_perm {w : List Freq} {i j : Nat} (hi : i < w.length) (hj : j < w.length) :
    (swapEntries w i j).Perm w := by
  have : swapEntries w i j = (w.set i w[j]).set j w[i] := by simp [swapEntries, hi, hj]
  rw [this]
  exact List.set_set_perm hi hj

@[simp] theorem shuffle_length (i : Nat) (x : Word32) (w : List Freq) : (shuffle i x w).length = w.length := by
  induction i generalizing x w with
  | zero => rfl
  | succ i ih => simp [shuffle, ih]

/-- The shuffle only reorders the working list (40_frequency_map.md R103, R114). -/
theorem shuffle_perm (i : Nat) (x : Word32) (w : List Freq) (h : i < w.length) : (shuffle i x w).Perm w := by
  induction i generalizing x w with
  | zero => exact .refl _
  | succ i ih =>
    have hj : (xs32 x).toNat % (i + 2) < w.length := lt_of_lt_of_le (Nat.mod_lt _ (by omega)) (by omega)
    exact (ih _ _ (by simp; omega)).trans (swapEntries_perm h hj)

@[simp] theorem candidates_length (bpt : Nat) (base step : Freq) : (candidates bpt base step).length = symbolSpace bpt := by
  simp [candidates]

@[simp] theorem buildMap_length (seed : Word32) (bpt : Nat) (base step : Freq) :
    (buildMap seed bpt base step).length = symbolSpace bpt := by simp [buildMap]

theorem symbolSpace_pos (bpt : Nat) : 0 < symbolSpace bpt := Nat.two_pow_pos bpt

/-- Distinct candidates, in rising order, when the spacing is positive (10_state.md R25). -/
theorem candidates_nodup (bpt : Nat) {base step : Freq} (h : 0 < step) : (candidates bpt base step).Nodup := by
  refine List.Nodup.map ?_ List.nodup_range
  intro a b hab
  have : (a : Rat) * step = (b : Rat) * step := by simpa using hab
  exact_mod_cast mul_right_cancel₀ h.ne' this

theorem mem_candidates {bpt : Nat} {base step g : Freq} :
    g ∈ candidates bpt base step ↔ ∃ i, i < symbolSpace bpt ∧ g = base + (i : Rat) * step := by
  simp [candidates, eq_comm]

/-! ### The lookups -/

/-- What `REV` answers on a map without repeats: the index, on the map frequencies only (10_state.md R30). -/
theorem rev_eq_some {fwd : List Freq} (h : fwd.Nodup) {g : Freq} {s : Symbol} : rev fwd g = some s ↔ fwd[s]? = some g := by
  rw [rev, List.idxOf?_eq_some_iff]
  constructor
  · rintro ⟨hl, hg, -⟩
    rw [List.getElem?_eq_getElem hl, hg]
  · intro hs
    obtain ⟨hl, hg⟩ := List.getElem?_eq_some_iff.1 hs
    refine ⟨hl, hg, fun j hj he => ?_⟩
    exact hj.ne ((h.getElem_inj_iff).1 (he.trans hg.symm))

theorem rev_eq_none {fwd : List Freq} {g : Freq} : rev fwd g = none ↔ g ∉ fwd := by
  simp [rev]

/-! ### The nearest map frequency -/

/-- `g` beats every frequency of `hs`: nearer to `f`, or as near and not higher (40_frequency_map.md R109, R111). -/
def IsNearest (f g : Freq) (hs : List Freq) : Prop :=
  ∀ h ∈ hs, |f - g| < |f - h| ∨ (|f - g| = |f - h| ∧ g ≤ h)

theorem closer_cases (f g h : Freq) :
    (closer f g h = g ∧ (|f - g| < |f - h| ∨ (|f - g| = |f - h| ∧ g ≤ h))) ∨
    (closer f g h = h ∧ (|f - h| < |f - g| ∨ (|f - h| = |f - g| ∧ h ≤ g))) := by
  unfold closer
  split
  · rename_i hc
    exact .inr ⟨rfl, hc.imp_right fun x => ⟨x.1, x.2.le⟩⟩
  · rename_i hc
    push Not at hc
    refine .inl ⟨rfl, ?_⟩
    rcases hc.1.lt_or_eq with h1 | h1
    · exact .inl h1
    · exact .inr ⟨h1, hc.2 h1.symm⟩

theorem closer_trans {f a b c : Freq} (h1 : |f - a| < |f - b| ∨ (|f - a| = |f - b| ∧ a ≤ b))
    (h2 : |f - b| < |f - c| ∨ (|f - b| = |f - c| ∧ b ≤ c)) : |f - a| < |f - c| ∨ (|f - a| = |f - c| ∧ a ≤ c) := by
  rcases h1 with h1 | ⟨h1, h1'⟩ <;> rcases h2 with h2 | ⟨h2, h2'⟩
  · exact .inl (h1.trans h2)
  · exact .inl (h2 ▸ h1)
  · exact .inl (h1 ▸ h2)
  · exact .inr ⟨h1.trans h2, h1'.trans h2'⟩

theorem foldl_closer_spec (f : Freq) (gs : List Freq) (g : Freq) :
    gs.foldl (closer f) g ∈ g :: gs ∧ IsNearest f (gs.foldl (closer f) g) (g :: gs) := by
  induction gs generalizing g with
  | nil => simp [IsNearest]
  | cons h t ih =>
    obtain ⟨hm, hn⟩ := ih (closer f g h)
    simp only [List.foldl_cons]
    have hc := hn (closer f g h) (by simp)
    rcases closer_cases f g h with ⟨e, hb⟩ | ⟨e, hb⟩ <;> rw [e] at hm hn hc ⊢
    · refine ⟨?_, ?_⟩
      · rcases List.mem_cons.1 hm with hm | hm
        · rw [hm]; simp
        · exact List.mem_cons_of_mem _ (List.mem_cons_of_mem _ hm)
      · intro x hx
        rcases List.mem_cons.1 hx with rfl | hx
        · exact hc
        rcases List.mem_cons.1 hx with rfl | hx
        · exact closer_trans hc hb
        · exact hn x (List.mem_cons_of_mem _ hx)
    · refine ⟨List.mem_cons_of_mem _ hm, ?_⟩
      intro x hx
      rcases List.mem_cons.1 hx with rfl | hx
      · exact closer_trans hc hb
      · exact hn x hx

/-- What `Nearest` answers: a map frequency that beats all map frequencies (40_frequency_map.md R109, R111). -/
theorem nearest_eq_some {fwd : List Freq} {f g : Freq} (h : nearest fwd f = some g) : g ∈ fwd ∧ IsNearest f g fwd := by
  cases fwd with
  | nil => simp [nearest] at h
  | cons a t =>
    simp only [nearest, Option.some.injEq] at h
    subst h
    exact foldl_closer_spec f t a

theorem nearest_ne_none {fwd : List Freq} (h : fwd ≠ []) (f : Freq) : ∃ g, nearest fwd f = some g := by
  cases fwd with
  | nil => exact absurd rfl h
  | cons a t => exact ⟨_, rfl⟩

/-- The nearest frequency is unique, so it depends on the set of map frequencies only. -/
theorem nearest_eq_of {fwd : List Freq} {f g : Freq} (hm : g ∈ fwd) (hn : IsNearest f g fwd) : nearest fwd f = some g := by
  obtain ⟨x, hx⟩ := nearest_ne_none (List.ne_nil_of_mem hm) f
  obtain ⟨xm, xn⟩ := nearest_eq_some hx
  rw [hx]
  have a := hn x xm
  have b := xn g hm
  rcases a with a | ⟨a, a'⟩ <;> rcases b with b | ⟨b, b'⟩
  · exact absurd a b.not_gt
  · exact absurd b a.ne'
  · exact absurd a b.ne'
  · rw [le_antisymm b' a']

/-- What `Classify` can answer (40_frequency_map.md R110, R112). -/
theorem classify_cases (fwd : List Freq) (step f : Freq) :
    (∃ g, nearest fwd f = some g ∧ |f - g| ≤ step ∧ classify fwd step f = rev fwd g) ∨
    (classify fwd step f = none ∧ ∀ g, nearest fwd f = some g → step < |f - g|) := by
  unfold classify
  cases h : nearest fwd f with
  | none => exact .inr ⟨rfl, by simp⟩
  | some g =>
    by_cases hs : step < |f - g|
    · exact .inr ⟨by simp [hs], by rintro x ⟨⟩; exact hs⟩
    · exact .inl ⟨g, rfl, not_lt.1 hs, by simp [hs]⟩

/-- A map frequency classifies to its own symbol (40_frequency_map.md R112). -/
theorem classify_mem {fwd : List Freq} {step : Freq} (h : fwd.Nodup) (hs : 0 ≤ step) {s : Symbol} {g : Freq}
    (hg : fwd[s]? = some g) : classify fwd step g = some s := by
  have hm : g ∈ fwd := List.mem_of_getElem? hg
  have hn : nearest fwd g = some g := nearest_eq_of hm (by
    intro x _
    rcases eq_or_ne g x with rfl | hne
    · exact .inr ⟨rfl, le_refl _⟩
    · exact .inl (by simpa using abs_pos.2 (sub_ne_zero.2 hne)))
  simp [classify, hn, not_lt.2 hs, (rev_eq_some h).2 hg]

end Sys2Proof.Machine
end

