-- ==== Sys2Proof/Laws/Numerics.lean ====
section
/-! SUPPORT. What the operations of `NUM` can answer, said once: their bounds, their symmetries, and how far they lie from
the real sine and the real square root (42_tone_synthesizer.md R160; log 1). -/

namespace Sys2Proof.Machine

open Sys2Proof.Config

/-! ### `clamp` -/

theorem clamp_mem {lo hi : Rat} (r : Rat) (h : lo ≤ hi) : lo ≤ clamp lo hi r ∧ clamp lo hi r ≤ hi :=
  ⟨le_max_left _ _, max_le h (min_le_left _ _)⟩

/-- Moving into an interval brings a value no farther from any point of the interval. -/
theorem clamp_near {lo hi r : Rat} {x e : ℝ} (hx : (lo : ℝ) ≤ x ∧ x ≤ (hi : ℝ)) (h : |(r : ℝ) - x| ≤ e) :
    |((clamp lo hi r : Rat) : ℝ) - x| ≤ e := by
  simp only [clamp, Rat.cast_max, Rat.cast_min]
  rw [abs_le] at h ⊢
  constructor
  · have : x - e ≤ min (hi : ℝ) r := le_min (by linarith) (by linarith)
    linarith [le_max_right (lo : ℝ) (min (hi : ℝ) r)]
  · have : max (lo : ℝ) (min (hi : ℝ) r) ≤ x + e := max_le (by linarith) ((min_le_right _ _).trans (by linarith))
    linarith

/-! ### The first quadrant -/

/-- The interval of the first quadrant: between `4 t` and `1/2 + 4 t - 8 t^2`. -/
theorem sinQuarter_mem {t : Rat} (h0 : 0 ≤ t) (h1 : t ≤ 1 / 4) :
    4 * t ≤ sinQuarter t ∧ sinQuarter t ≤ 1 / 2 + 4 * t - 8 * t ^ 2 := by
  unfold sinQuarter
  split
  · subst t; norm_num
  · split
    · subst t; norm_num
    · split
      · subst t; norm_num
      · exact clamp_mem _ (by nlinarith)

theorem sinQuarter_nonneg {t : Rat} (h0 : 0 ≤ t) (h1 : t ≤ 1 / 4) : 0 ≤ sinQuarter t := by
  linarith [(sinQuarter_mem h0 h1).1]

theorem sinQuarter_le_one {t : Rat} (h0 : 0 ≤ t) (h1 : t ≤ 1 / 4) : sinQuarter t ≤ 1 := by
  have := (sinQuarter_mem h0 h1).2
  nlinarith [sq_nonneg (1 - 4 * t)]

@[simp] theorem sinQuarter_zero : sinQuarter 0 = 0 := by simp [sinQuarter]

@[simp] theorem sinQuarter_quarter : sinQuarter (1 / 4) = 1 := by norm_num [sinQuarter]

theorem sinQuarter_pos {t : Rat} (h0 : 0 < t) (h1 : t ≤ 1 / 4) : 0 < sinQuarter t := by
  linarith [(sinQuarter_mem h0.le h1).1]

theorem sinQuarter_lt_one {t : Rat} (h0 : 0 ≤ t) (h1 : t < 1 / 4) : sinQuarter t < 1 := by
  have := (sinQuarter_mem h0 h1.le).2
  nlinarith [mul_pos (sub_pos.2 h1) (sub_pos.2 h1)]

/-! ### The whole turn -/

theorem turnPart_mem (t : Rat) : 0 ≤ turnPart t ∧ turnPart t < 1 :=
  ⟨Int.fract_nonneg t, Int.fract_lt_one t⟩

theorem turnPart_add_int (t : Rat) (k : Int) : turnPart (t + k) = turnPart t := Int.fract_add_intCast t k

theorem turnPart_of_mem {t : Rat} (h0 : 0 ≤ t) (h1 : t < 1) : turnPart t = t := Int.fract_eq_self.2 ⟨h0, h1⟩

theorem turnPart_of_mem_second {t : Rat} (h0 : 1 ≤ t) (h1 : t < 2) : turnPart t = t - 1 := by
  have h := turnPart_add_int (t - 1) 1
  rw [turnPart_of_mem (t := t - 1) (by linarith) (by linarith)] at h
  simpa using h

/-- A whole number of turns changes nothing (42_tone_synthesizer.md R161 (b)). -/
theorem sinTurn_add_int (t : Rat) (k : Int) : sinTurn (t + k) = sinTurn t := by simp only [sinTurn, turnPart_add_int]

/-- What the sine of a turn is in each quadrant. -/
theorem sinTurn_cases (t : Rat) :
    ∃ u, 0 ≤ u ∧ u ≤ 1 / 4 ∧
      ((turnPart t = u ∧ sinTurn t = sinQuarter u) ∨ (turnPart t = 1 / 2 - u ∧ sinTurn t = sinQuarter u) ∨
        (turnPart t = 1 / 2 + u ∧ sinTurn t = -sinQuarter u) ∨ (turnPart t = 1 - u ∧ sinTurn t = -sinQuarter u)) := by
  have h := turnPart_mem t
  simp only [sinTurn]
  by_cases h1 : turnPart t ≤ 1 / 4
  · exact ⟨turnPart t, h.1, h1, .inl ⟨rfl, by rw [if_pos h1]⟩⟩
  by_cases h2 : turnPart t ≤ 1 / 2
  · exact ⟨1 / 2 - turnPart t, by linarith, by linarith, .inr (.inl ⟨by ring, by rw [if_neg h1, if_pos h2]⟩)⟩
  by_cases h3 : turnPart t ≤ 3 / 4
  · exact ⟨turnPart t - 1 / 2, by linarith, by linarith,
      .inr (.inr (.inl ⟨by ring, by rw [if_neg h1, if_neg h2, if_pos h3]⟩))⟩
  · exact ⟨1 - turnPart t, by linarith, by linarith,
      .inr (.inr (.inr ⟨by ring, by rw [if_neg h1, if_neg h2, if_neg h3]⟩))⟩

theorem abs_sinTurn_le_one (t : Rat) : |sinTurn t| ≤ 1 := by
  obtain ⟨u, h0, h1, h | h | h | h⟩ := sinTurn_cases t <;>
    rw [h.2] <;> simp only [abs_neg, abs_of_nonneg (sinQuarter_nonneg h0 h1), sinQuarter_le_one h0 h1]

/-- The sine is odd (42_tone_synthesizer.md R161 (d)). -/
theorem sinTurn_neg (t : Rat) : sinTurn (-t) = -sinTurn t := by
  by_cases h0 : turnPart t = 0
  · have h0' : turnPart (-t) = 0 := by
      rw [turnPart, ← Int.fract] at h0 ⊢; rwa [Int.fract_neg_eq_zero]
    simp [sinTurn, h0, h0']
  · have hn : turnPart (-t) = 1 - turnPart t := Int.fract_neg h0
    have h := turnPart_mem t
    have hp : 0 < turnPart t := lt_of_le_of_ne h.1 (Ne.symm h0)
    simp only [sinTurn, hn]
    generalize turnPart t = u at *
    split_ifs <;> first
      | (exfalso; linarith)
      | (rw [neg_neg]; congr 1; linarith)
      | (congr 2; linarith)
      | (obtain rfl : u = 1 / 2 := by linarith
         norm_num)

/-- The sine of half a turn minus `t` is the sine of `t`. -/
theorem sinTurn_half_sub (t : Rat) : sinTurn (1 / 2 - t) = sinTurn t := by
  have key : ∀ u : Rat, 0 ≤ u → u < 1 → sinTurn (1 / 2 - u) = sinTurn u := by
    intro u h0 h1
    have hu := turnPart_of_mem h0 h1
    by_cases h : u ≤ 1 / 2
    · have hv : turnPart (1 / 2 - u) = 1 / 2 - u := turnPart_of_mem (by linarith) (by linarith)
      simp only [sinTurn, hu, hv]
      split_ifs <;> first
        | (exfalso; linarith)
        | (congr 1 <;> linarith)
    · have hv : turnPart (1 / 2 - u) = 3 / 2 - u := by
        rw [← turnPart_add_int _ 1, turnPart_of_mem] <;> push_cast <;> linarith
      simp only [sinTurn, hu, hv]
      split_ifs <;> first
        | (exfalso; linarith)
        | (congr 2; linarith)
  have ht : t = turnPart t + (⌊t⌋ : Int) := by unfold turnPart; ring
  have h := key _ (turnPart_mem t).1 (turnPart_mem t).2
  calc sinTurn (1 / 2 - t) = sinTurn (1 / 2 - turnPart t + ((-⌊t⌋ : Int) : Rat)) := by
        congr 1; push_cast; linarith
    _ = sinTurn (turnPart t) := by rw [sinTurn_add_int, h]
    _ = sinTurn t := by rw [← sinTurn_add_int (turnPart t) ⌊t⌋, ← ht]

@[simp] theorem sinTurn_zero : sinTurn 0 = 0 := by simp [sinTurn, turnPart]

theorem cosTurn_add_int (t : Rat) (k : Int) : cosTurn (t + k) = cosTurn t := by
  rw [cosTurn, cosTurn, ← sinTurn_add_int (t + 1 / 4) k]; congr 1; ring

theorem abs_cosTurn_le_one (t : Rat) : |cosTurn t| ≤ 1 := abs_sinTurn_le_one _

/-- The cosine is even. -/
theorem cosTurn_neg (t : Rat) : cosTurn (-t) = cosTurn t := by
  rw [cosTurn, cosTurn, ← sinTurn_half_sub]; congr 1; ring

@[simp] theorem cosTurn_zero : cosTurn 0 = 1 := by
  have : turnPart (0 + 1 / 4) = 1 / 4 := by rw [zero_add]; exact turnPart_of_mem (by norm_num) (by norm_num)
  simp only [cosTurn, sinTurn, this]; norm_num

/-- The cosine is -1 at odd half turns only. -/
theorem cosTurn_eq_neg_one_iff {t : Rat} (h0 : 0 ≤ t) (h1 : t ≤ 1) : cosTurn t = -1 ↔ t = 1 / 2 := by
  have hq : ∀ u : Rat, 0 ≤ u → u ≤ 1 / 4 → sinQuarter u = 1 → u = 1 / 4 := by
    intro u a b h
    by_contra hne
    exact absurd h (sinQuarter_lt_one a (lt_of_le_of_ne b hne)).ne
  constructor
  · intro h
    obtain ⟨u, a, b, hc | hc | hc | hc⟩ := sinTurn_cases (t + 1 / 4)
    · rw [cosTurn, hc.2] at h; linarith [sinQuarter_nonneg a b]
    · rw [cosTurn, hc.2] at h; linarith [sinQuarter_nonneg a b]
    all_goals
      rw [cosTurn, hc.2, neg_inj] at h
      obtain rfl := hq u a b h
      by_cases hlt : t + 1 / 4 < 1
      · have := turnPart_of_mem (by linarith : (0 : Rat) ≤ t + 1 / 4) hlt
        linarith [hc.1]
      · have := turnPart_of_mem_second (by linarith : 1 ≤ t + 1 / 4) (by linarith)
        linarith [hc.1]
  · rintro rfl
    have : turnPart (1 / 2 + 1 / 4) = 3 / 4 := by
      rw [turnPart_of_mem] <;> norm_num
    simp only [cosTurn, sinTurn, this]; norm_num

/-! ### How far the operations lie from the real functions -/

/-- The nine terms of the sine series. -/
theorem sineSeries_eq (x : Rat) :
    sineSeries x 9 1 x = x - x ^ 3 / 6 + x ^ 5 / 120 - x ^ 7 / 5040 + x ^ 9 / 362880 - x ^ 11 / 39916800 +
      x ^ 13 / 6227020800 - x ^ 15 / 1307674368000 + x ^ 17 / 355687428096000 := by
  simp only [sineSeries]; push_cast; ring

/-- The series against the real sine in the first quadrant. -/
theorem sine_taylor_near {x : ℝ} (h0 : 0 ≤ x) (h1 : x ≤ 1.6) :
    |Real.sin x - (x - x ^ 3 / 6 + x ^ 5 / 120 - x ^ 7 / 5040 + x ^ 9 / 362880 - x ^ 11 / 39916800 +
      x ^ 13 / 6227020800 - x ^ 15 / 1307674368000 + x ^ 17 / 355687428096000)| ≤ 1 / 10 ^ 11 := by
  have hn : ‖(x : ℂ) * Complex.I‖ = x := by simp [abs_of_nonneg h0]
  have hb := Complex.exp_bound' (x := (x : ℂ) * Complex.I) (n := 19) (by rw [hn]; norm_num; linarith)
  have him := (Complex.abs_im_le_norm _).trans hb
  rw [hn] at him
  have e1 : (Complex.exp ((x : ℂ) * Complex.I)).im = Real.sin x := Complex.exp_ofReal_mul_I_im x
  have e2 : (∑ m ∈ Finset.range 19, ((x : ℂ) * Complex.I) ^ m / (m.factorial : ℂ)) =
      ((1 - x ^ 2 / 2 + x ^ 4 / 24 - x ^ 6 / 720 + x ^ 8 / 40320 - x ^ 10 / 3628800 + x ^ 12 / 479001600
        - x ^ 14 / 87178291200 + x ^ 16 / 20922789888000 - x ^ 18 / 6402373705728000 : ℝ) : ℂ) +
      ((x - x ^ 3 / 6 + x ^ 5 / 120 - x ^ 7 / 5040 + x ^ 9 / 362880 - x ^ 11 / 39916800 +
      x ^ 13 / 6227020800 - x ^ 15 / 1307674368000 + x ^ 17 / 355687428096000 : ℝ) : ℂ) * Complex.I := by
    have i2 : Complex.I ^ 2 = -1 := Complex.I_sq
    have i3 : Complex.I ^ 3 = -Complex.I := Complex.I_pow_three
    have i4 : Complex.I ^ 4 = 1 := Complex.I_pow_four
    have ip : ∀ k r : ℕ, Complex.I ^ (4 * k + r) = Complex.I ^ r := by
      intro k r; rw [pow_add, pow_mul, i4, one_pow, one_mul]
    simp only [Finset.sum_range_succ, Finset.sum_range_zero, mul_pow, Nat.factorial]
    rw [ip 1 0, ip 1 1, ip 1 2, ip 1 3, ip 2 0, ip 2 1, ip 2 2, ip 2 3, ip 3 0, ip 3 1, ip 3 2, ip 3 3, ip 4 0, ip 4 1, ip 4 2]
    simp only [i2, i3]
    push_cast
    ring
  rw [e2, Complex.sub_im, e1, Complex.add_im, Complex.ofReal_im, Complex.im_ofReal_mul] at him
  simp only [Complex.I_im, mul_one, zero_add] at him
  refine him.trans ?_
  have : x ^ 19 ≤ 1.6 ^ 19 := pow_le_pow_left₀ h0 h1 19
  have hf : (Nat.factorial 19 : ℝ) = 121645100408832000 := by norm_num [Nat.factorial]
  rw [hf]
  calc x ^ 19 / 121645100408832000 * 2 ≤ 1.6 ^ 19 / 121645100408832000 * 2 := by gcongr
    _ ≤ 1 / 10 ^ 11 := by norm_num

theorem piApprox_near : |(piApprox : ℝ) - Real.pi| ≤ 1 / 10 ^ 19 := by
  have h1 := Real.pi_gt_d20
  have h2 := Real.pi_lt_d20
  rw [abs_le]; unfold piApprox; push_cast; constructor <;> norm_num at * <;> linarith

/-- The centre of a free sine against the real sine. -/
theorem sineCentre_near {t : Rat} (h0 : 0 ≤ t) (h1 : t ≤ 1 / 4) :
    |((sineCentre t : Rat) : ℝ) - Real.sin (2 * Real.pi * t)| ≤ 1 / 10 ^ 10 := by
  have h0' : (0 : ℝ) ≤ t := by exact_mod_cast h0
  have h1' : (t : ℝ) ≤ 1 / 4 := by simpa using (Rat.cast_le (K := ℝ)).2 h1
  have hp := abs_le.1 piApprox_near
  have pl : (piApprox : ℝ) ≤ 3.15 := by unfold piApprox; push_cast; norm_num
  have pg : (0 : ℝ) ≤ piApprox := by unfold piApprox; push_cast; norm_num
  have hs := sine_taylor_near (x := 2 * piApprox * t) (by positivity) (by nlinarith)
  have hd : |Real.sin (2 * piApprox * t) - Real.sin (2 * Real.pi * t)| ≤ 1 / 10 ^ 19 := by
    refine (Real.abs_sin_sub_sin_le _ _).trans ?_
    have : 2 * (piApprox : ℝ) * t - 2 * Real.pi * t = (2 * t) * (piApprox - Real.pi) := by ring
    rw [this, abs_mul, abs_of_nonneg (by linarith : (0 : ℝ) ≤ 2 * t)]
    calc 2 * (t : ℝ) * |(piApprox : ℝ) - Real.pi| ≤ 1 * (1 / 10 ^ 19) := by
          gcongr
          · linarith
          · exact piApprox_near
      _ = _ := by norm_num
  rw [sineCentre, sineSeries_eq]
  push_cast
  rw [abs_le] at *
  constructor <;> norm_num at * <;> linarith

/-- The real sine of `t` turns lies in the interval of the first quadrant. -/
theorem real_sin_mem {t : ℝ} (h0 : 0 ≤ t) (h1 : t ≤ 1 / 4) :
    4 * t ≤ Real.sin (2 * Real.pi * t) ∧ Real.sin (2 * Real.pi * t) ≤ 1 / 2 + 4 * t - 8 * t ^ 2 := by
  have hp := Real.pi_pos
  constructor
  · have := Real.mul_le_sin (x := 2 * Real.pi * t) (by positivity) (by nlinarith)
    calc 4 * t = 2 / Real.pi * (2 * Real.pi * t) := by field_simp; ring
      _ ≤ _ := this
  · have := Real.cos_le_one_sub_mul_cos_sq (x := Real.pi / 2 - 2 * Real.pi * t) (by
      rw [abs_le]; constructor <;> nlinarith)
    rw [Real.cos_pi_div_two_sub] at this
    refine this.trans (le_of_eq ?_)
    field_simp
    ring

/-- The sine of the first quadrant against the real sine. -/
theorem sinQuarter_near {t : Rat} (h0 : 0 ≤ t) (h1 : t ≤ 1 / 4) :
    |((sinQuarter t : Rat) : ℝ) - Real.sin (2 * Real.pi * t)| ≤ 11 / 10 ^ 10 := by
  have h0' : (0 : ℝ) ≤ t := by exact_mod_cast h0
  have h1' : (t : ℝ) ≤ 1 / 4 := by simpa using (Rat.cast_le (K := ℝ)).2 h1
  unfold sinQuarter
  split
  · subst t; norm_num
  · split
    · subst t
      have : 2 * Real.pi * ((1 / 12 : Rat) : ℝ) = Real.pi / 6 := by push_cast; ring
      rw [this, Real.sin_pi_div_six]; push_cast; norm_num
    · split
      · subst t
        have : 2 * Real.pi * ((1 / 4 : Rat) : ℝ) = Real.pi / 2 := by push_cast; ring
        rw [this, Real.sin_pi_div_two]; norm_num
      · refine clamp_near ?_ ?_
        · have := real_sin_mem h0' h1'
          push_cast; exact this
        · have hc := abs_le.1 (sineCentre_near h0 h1)
          have hm := clamp_mem (lo := sineCentre t - numTol) (hi := sineCentre t + numTol) (sineValue t)
            (by unfold numTol; linarith)
          have m1 : ((sineCentre t - numTol : Rat) : ℝ) ≤ _ := Rat.cast_le.2 hm.1
          have m2 : _ ≤ ((sineCentre t + numTol : Rat) : ℝ) := Rat.cast_le.2 hm.2
          unfold numTol at *
          push_cast at m1 m2
          rw [abs_le]
          constructor <;> norm_num at * <;> linarith

/-- The sine against the real sine (42_tone_synthesizer.md R152, R160; log 1). -/
theorem sinTurn_near (t : Rat) :
    |((sinTurn t : Rat) : ℝ) - Real.sin (2 * Real.pi * t)| ≤ 11 / 10 ^ 10 := by
  obtain ⟨u, h0, h1, hc⟩ := sinTurn_cases t
  have hq := sinQuarter_near h0 h1
  have ht : (t : ℝ) = (turnPart t : Rat) + ((⌊t⌋ : Int) : ℝ) := by unfold turnPart; push_cast; ring
  have hs : Real.sin (2 * Real.pi * t) = Real.sin (2 * Real.pi * (turnPart t : Rat)) := by
    rw [ht, show 2 * Real.pi * ((turnPart t : ℝ) + ((⌊t⌋ : Int) : ℝ)) =
      2 * Real.pi * (turnPart t : ℝ) + (⌊t⌋ : Int) * (2 * Real.pi) by ring, Real.sin_add_int_mul_two_pi]
  rw [hs]
  rcases hc with h | h | h | h <;> rw [h.1, h.2]
  · exact hq
  · rwa [show 2 * Real.pi * ((1 / 2 - u : Rat) : ℝ) = Real.pi - 2 * Real.pi * u by push_cast; ring, Real.sin_pi_sub]
  · rw [show 2 * Real.pi * ((1 / 2 + u : Rat) : ℝ) = 2 * Real.pi * u + Real.pi by push_cast; ring, Real.sin_add_pi]
    rwa [Rat.cast_neg, ← abs_neg, neg_sub_neg, neg_sub]
  · rw [show 2 * Real.pi * ((1 - u : Rat) : ℝ) = 2 * Real.pi - 2 * Real.pi * u by push_cast; ring, Real.sin_two_pi_sub]
    rwa [Rat.cast_neg, ← abs_neg, neg_sub_neg, neg_sub]

/-- The cosine against the real cosine. -/
theorem cosTurn_near (t : Rat) :
    |((cosTurn t : Rat) : ℝ) - Real.cos (2 * Real.pi * t)| ≤ 11 / 10 ^ 10 := by
  have := sinTurn_near (t + 1 / 4)
  rwa [show 2 * Real.pi * ((t + 1 / 4 : Rat) : ℝ) = 2 * Real.pi * t + Real.pi / 2 by push_cast; ring,
    Real.sin_add_pi_div_two] at this

/-- The sign of the sine is the sign of the real sine. -/
theorem sign_sinTurn (t : Rat) : Real.sign ((sinTurn t : Rat) : ℝ) = Real.sign (Real.sin (2 * Real.pi * t)) := by
  obtain ⟨u, h0, h1, hc⟩ := sinTurn_cases t
  have ht : (t : ℝ) = (turnPart t : Rat) + ((⌊t⌋ : Int) : ℝ) := by unfold turnPart; push_cast; ring
  have hs : Real.sin (2 * Real.pi * t) = Real.sin (2 * Real.pi * (turnPart t : Rat)) := by
    rw [ht, show 2 * Real.pi * ((turnPart t : ℝ) + ((⌊t⌋ : Int) : ℝ)) =
      2 * Real.pi * (turnPart t : ℝ) + (⌊t⌋ : Int) * (2 * Real.pi) by ring, Real.sin_add_int_mul_two_pi]
  have hq : Real.sign ((sinQuarter u : Rat) : ℝ) = Real.sign (Real.sin (2 * Real.pi * u)) := by
    rcases h0.eq_or_lt with rfl | hpos
    · simp
    · have a : (0 : ℝ) < (sinQuarter u : Rat) := by exact_mod_cast sinQuarter_pos hpos h1
      have h0' : (0 : ℝ) < u := by exact_mod_cast hpos
      have h1' : (u : ℝ) ≤ 1 / 4 := by simpa using (Rat.cast_le (K := ℝ)).2 h1
      have b : 0 < Real.sin (2 * Real.pi * u) := by linarith [(real_sin_mem h0'.le h1').1]
      rw [Real.sign_of_pos a, Real.sign_of_pos b]
  rw [hs]
  rcases hc with h | h | h | h <;> rw [h.1, h.2]
  · exact hq
  · rwa [show 2 * Real.pi * ((1 / 2 - u : Rat) : ℝ) = Real.pi - 2 * Real.pi * u by push_cast; ring, Real.sin_pi_sub]
  · rw [show 2 * Real.pi * ((1 / 2 + u : Rat) : ℝ) = 2 * Real.pi * u + Real.pi by push_cast; ring, Real.sin_add_pi]
    rw [Rat.cast_neg, Real.sign_neg, Real.sign_neg, hq]
  · rw [show 2 * Real.pi * ((1 - u : Rat) : ℝ) = 2 * Real.pi - 2 * Real.pi * u by push_cast; ring, Real.sin_two_pi_sub]
    rw [Rat.cast_neg, Real.sign_neg, Real.sign_neg, hq]

/-! ### The square root -/

theorem isqrtDigits_spec (fuel n : Nat) (h : n < 4 ^ fuel) :
    isqrtDigits fuel n * isqrtDigits fuel n ≤ n ∧ n < (isqrtDigits fuel n + 1) * (isqrtDigits fuel n + 1) := by
  induction fuel generalizing n with
  | zero => simp at h; subst h; simp [isqrtDigits]
  | succ k ih =>
    have hk := ih (n / 4) (by rw [pow_succ] at h; omega)
    simp only [isqrtDigits]
    generalize isqrtDigits k (n / 4) = r at *
    have e : n = 4 * (n / 4) + n % 4 := by omega
    have m : n % 4 < 4 := Nat.mod_lt _ (by norm_num)
    split
    · rename_i hle
      refine ⟨hle, ?_⟩
      nlinarith
    · rename_i hle
      refine ⟨?_, by omega⟩
      calc 2 * r * (2 * r) = 4 * (r * r) := by ring
        _ ≤ 4 * (n / 4) := by omega
        _ ≤ n := by omega

/-- `isqrt n` is the integer square root. -/
theorem isqrt_eq (n : Nat) : isqrt n = Nat.sqrt n := by
  have h := isqrtDigits_spec (Nat.log2 n + 1) n (by
    have := Nat.lt_log2_self (n := n)
    calc n < 2 ^ (n.log2 + 1) := this
      _ ≤ 4 ^ (n.log2 + 1) := Nat.pow_le_pow_left (by norm_num) _)
  exact (Nat.eq_sqrt.2 h)

/-- The square root: exact where the real root is rational, else within `numTol` above a lower bound of it. In both cases it
is not negative and lies within `numTol` of the real root (45_spectral_detector.md R204; log 1). -/
theorem sqrtNum_near {q : Rat} (h : 0 ≤ q) :
    0 ≤ sqrtNum q ∧ |((sqrtNum q : Rat) : ℝ) - Real.sqrt q| ≤ 1 / 10 ^ 9 := by
  simp only [sqrtNum]
  split
  · rename_i hx
    have hq : ((isqrt q.num.toNat : Rat) / (isqrt q.den : Rat)) ^ 2 = q := by
      have hn : ((q.num.toNat : Nat) : Rat) = (q.num : Rat) := by
        have : ((q.num.toNat : Nat) : Int) = q.num := Int.toNat_of_nonneg (Rat.num_nonneg.2 h)
        exact_mod_cast congrArg (Int.cast (R := Rat)) this
      rw [div_pow, pow_two, pow_two]
      have a : (isqrt q.num.toNat : Rat) * (isqrt q.num.toNat : Rat) = (q.num.toNat : Rat) := by exact_mod_cast hx.1
      have b : (isqrt q.den : Rat) * (isqrt q.den : Rat) = (q.den : Rat) := by exact_mod_cast hx.2
      rw [a, b, hn, Rat.num_div_den]
    have h0 : 0 ≤ (isqrt q.num.toNat : Rat) / (isqrt q.den : Rat) := by positivity
    refine ⟨h0, ?_⟩
    have : Real.sqrt (q : ℝ) = (((isqrt q.num.toNat : Rat) / (isqrt q.den : Rat) : Rat) : ℝ) := by
      conv_lhs => rw [← hq]
      push_cast
      exact Real.sqrt_sq (by positivity)
    rw [this]; norm_num
  · have hf : ((⌊q * 10 ^ 18⌋.toNat : Nat) : Int) = ⌊q * 10 ^ 18⌋ := Int.toNat_of_nonneg (Int.floor_nonneg.2 (by positivity))
    generalize hm : ⌊q * 10 ^ 18⌋.toNat = m at *
    rw [isqrt_eq]
    have f1 : (m : ℝ) ≤ q * 10 ^ 18 := by
      have := Int.floor_le (q * 10 ^ 18)
      rw [← hf] at this; exact_mod_cast this
    have f2 : (q : ℝ) * 10 ^ 18 < m + 1 := by
      have := Int.lt_floor_add_one (q * 10 ^ 18)
      rw [← hf] at this; exact_mod_cast this
    have s1 : (Nat.sqrt m : ℝ) ^ 2 ≤ m := by exact_mod_cast Nat.sqrt_le' m
    have s2 : (m : ℝ) + 1 ≤ ((Nat.sqrt m : ℝ) + 1) ^ 2 := by exact_mod_cast Nat.succ_le_succ_sqrt' m
    have hq : (0 : ℝ) ≤ q := by exact_mod_cast h
    have l1 : (Nat.sqrt m : ℝ) / 10 ^ 9 ≤ Real.sqrt q := by
      apply Real.le_sqrt_of_sq_le
      rw [div_pow, div_le_iff₀ (by positivity)]
      norm_num at *; linarith
    have l2 : Real.sqrt q ≤ (Nat.sqrt m : ℝ) / 10 ^ 9 + 1 / 10 ^ 9 := by
      apply Real.sqrt_le_iff.2
      refine ⟨by positivity, ?_⟩
      rw [← add_div, div_pow, le_div_iff₀ (by positivity)]
      norm_num at *; linarith
    have hc := clamp_mem (lo := (Nat.sqrt m : Rat) / 10 ^ 9) (hi := (Nat.sqrt m : Rat) / 10 ^ 9 + numTol) (rootValue q)
      (by unfold numTol; norm_num)
    refine ⟨le_trans (by positivity) hc.1, ?_⟩
    have m1 : (((Nat.sqrt m : Rat) / 10 ^ 9 : Rat) : ℝ) ≤ _ := Rat.cast_le.2 hc.1
    have m2 : _ ≤ (((Nat.sqrt m : Rat) / 10 ^ 9 + numTol : Rat) : ℝ) := Rat.cast_le.2 hc.2
    unfold numTol at *
    push_cast at m1 m2
    rw [abs_le]
    constructor <;> norm_num at * <;> linarith

@[simp] theorem sqrtNum_zero : sqrtNum 0 = 0 := by decide +kernel

end Sys2Proof.Machine
end

