-- ==== Sys2Proof/Laws/State.lean ====
section
/-! SUPPORT. One lemma per field per update of the state, true by `rfl`, so that no proof unfolds a record update; and what
the composed updates are made of. -/

namespace Sys2Proof.Machine

variable (s : State)

/-! ### `State.emit` -/

@[simp] theorem State.emit_cfg (es : List Event) : (s.emit es).cfg = s.cfg := rfl
@[simp] theorem State.emit_fwd (es : List Event) : (s.emit es).fwd = s.fwd := rfl
@[simp] theorem State.emit_work (es : List Event) : (s.emit es).work = s.work := rfl
@[simp] theorem State.emit_configured (es : List Event) : (s.emit es).configured = s.configured := rfl
@[simp] theorem State.emit_running (es : List Event) : (s.emit es).running = s.running := rfl
@[simp] theorem State.emit_stopReq (es : List Event) : (s.emit es).stopReq = s.stopReq := rfl
@[simp] theorem State.emit_faulted (es : List Event) : (s.emit es).faulted = s.faulted := rfl
@[simp] theorem State.emit_faultCause (es : List Event) : (s.emit es).faultCause = s.faultCause := rfl
@[simp] theorem State.emit_faultValue (es : List Event) : (s.emit es).faultValue = s.faultValue := rfl
@[simp] theorem State.emit_status (es : List Event) : (s.emit es).status = s.status := rfl
@[simp] theorem State.emit_statusValue (es : List Event) : (s.emit es).statusValue = s.statusValue := rfl
@[simp] theorem State.emit_operand (es : List Event) : (s.emit es).operand = s.operand := rfl
@[simp] theorem State.emit_result (es : List Event) : (s.emit es).result = s.result := rfl
@[simp] theorem State.emit_rx (es : List Event) : (s.emit es).rx = s.rx := rfl
@[simp] theorem State.emit_tx (es : List Event) : (s.emit es).tx = s.tx := rfl
@[simp] theorem State.emit_events (es : List Event) : (s.emit es).events = s.events ++ es := rfl
@[simp] theorem State.emit_portWait (es : List Event) : (s.emit es).portWait = s.portWait := rfl
@[simp] theorem State.emit_txOpens (es : List Event) : (s.emit es).txOpens = s.txOpens := rfl
@[simp] theorem State.emit_rxOpens (es : List Event) : (s.emit es).rxOpens = s.rxOpens := rfl
@[simp] theorem State.emit_commands (es : List Event) : (s.emit es).commands = s.commands := rfl
@[simp] theorem State.emit_moves (es : List Event) : (s.emit es).moves = s.moves := rfl
@[simp] theorem State.emit_pastTx (es : List Event) : (s.emit es).pastTx = s.pastTx := rfl
@[simp] theorem State.emit_pastEvents (es : List Event) : (s.emit es).pastEvents = s.pastEvents := rfl
@[simp] theorem State.emit_params (es : List Event) : (s.emit es).params = s.params := rfl
@[simp] theorem State.emit_draws (es : List Event) : (s.emit es).draws = s.draws := rfl

/-! ### `State.report` -/

@[simp] theorem State.report_cfg (c : Code) (v : CauseValue) : (s.report c v).cfg = s.cfg := rfl
@[simp] theorem State.report_fwd (c : Code) (v : CauseValue) : (s.report c v).fwd = s.fwd := rfl
@[simp] theorem State.report_work (c : Code) (v : CauseValue) : (s.report c v).work = s.work := rfl
@[simp] theorem State.report_configured (c : Code) (v : CauseValue) : (s.report c v).configured = s.configured := rfl
@[simp] theorem State.report_running (c : Code) (v : CauseValue) : (s.report c v).running = s.running := rfl
@[simp] theorem State.report_stopReq (c : Code) (v : CauseValue) : (s.report c v).stopReq = s.stopReq := rfl
@[simp] theorem State.report_faulted (c : Code) (v : CauseValue) : (s.report c v).faulted = s.faulted := rfl
@[simp] theorem State.report_faultCause (c : Code) (v : CauseValue) : (s.report c v).faultCause = s.faultCause := rfl
@[simp] theorem State.report_faultValue (c : Code) (v : CauseValue) : (s.report c v).faultValue = s.faultValue := rfl
@[simp] theorem State.report_status (c : Code) (v : CauseValue) : (s.report c v).status = c := rfl
@[simp] theorem State.report_statusValue (c : Code) (v : CauseValue) : (s.report c v).statusValue = v := rfl
@[simp] theorem State.report_operand (c : Code) (v : CauseValue) : (s.report c v).operand = s.operand := rfl
@[simp] theorem State.report_result (c : Code) (v : CauseValue) : (s.report c v).result = s.result := rfl
@[simp] theorem State.report_rx (c : Code) (v : CauseValue) : (s.report c v).rx = s.rx := rfl
@[simp] theorem State.report_tx (c : Code) (v : CauseValue) : (s.report c v).tx = s.tx := rfl
@[simp] theorem State.report_events (c : Code) (v : CauseValue) : (s.report c v).events = s.events ++ [.status c] := rfl
@[simp] theorem State.report_portWait (c : Code) (v : CauseValue) : (s.report c v).portWait = s.portWait := rfl
@[simp] theorem State.report_txOpens (c : Code) (v : CauseValue) : (s.report c v).txOpens = s.txOpens := rfl
@[simp] theorem State.report_rxOpens (c : Code) (v : CauseValue) : (s.report c v).rxOpens = s.rxOpens := rfl
@[simp] theorem State.report_commands (c : Code) (v : CauseValue) : (s.report c v).commands = s.commands := rfl
@[simp] theorem State.report_moves (c : Code) (v : CauseValue) : (s.report c v).moves = s.moves := rfl
@[simp] theorem State.report_pastTx (c : Code) (v : CauseValue) : (s.report c v).pastTx = s.pastTx := rfl
@[simp] theorem State.report_pastEvents (c : Code) (v : CauseValue) : (s.report c v).pastEvents = s.pastEvents := rfl
@[simp] theorem State.report_params (c : Code) (v : CauseValue) : (s.report c v).params = s.params := rfl
@[simp] theorem State.report_draws (c : Code) (v : CauseValue) : (s.report c v).draws = s.draws := rfl

/-! ### `State.setFault` -/

@[simp] theorem State.setFault_cfg (c : Cause) : (s.setFault c).cfg = s.cfg := rfl
@[simp] theorem State.setFault_fwd (c : Cause) : (s.setFault c).fwd = s.fwd := rfl
@[simp] theorem State.setFault_work (c : Cause) : (s.setFault c).work = s.work := rfl
@[simp] theorem State.setFault_configured (c : Cause) : (s.setFault c).configured = s.configured := rfl
@[simp] theorem State.setFault_running (c : Cause) : (s.setFault c).running = false := rfl
@[simp] theorem State.setFault_stopReq (c : Cause) : (s.setFault c).stopReq = s.stopReq := rfl
@[simp] theorem State.setFault_faulted (c : Cause) : (s.setFault c).faulted = true := rfl
@[simp] theorem State.setFault_faultCause (c : Cause) : (s.setFault c).faultCause = c.code := rfl
@[simp] theorem State.setFault_faultValue (c : Cause) : (s.setFault c).faultValue = c.value := rfl
@[simp] theorem State.setFault_status (c : Cause) : (s.setFault c).status = s.status := rfl
@[simp] theorem State.setFault_statusValue (c : Cause) : (s.setFault c).statusValue = s.statusValue := rfl
@[simp] theorem State.setFault_operand (c : Cause) : (s.setFault c).operand = s.operand := rfl
@[simp] theorem State.setFault_result (c : Cause) : (s.setFault c).result = s.result := rfl
@[simp] theorem State.setFault_rx (c : Cause) : (s.setFault c).rx = s.rx := rfl
@[simp] theorem State.setFault_tx (c : Cause) : (s.setFault c).tx = s.tx := rfl
@[simp] theorem State.setFault_events (c : Cause) : (s.setFault c).events = s.events := rfl
@[simp] theorem State.setFault_portWait (c : Cause) : (s.setFault c).portWait = .idle := rfl
@[simp] theorem State.setFault_txOpens (c : Cause) : (s.setFault c).txOpens = s.txOpens := rfl
@[simp] theorem State.setFault_rxOpens (c : Cause) : (s.setFault c).rxOpens = s.rxOpens := rfl
@[simp] theorem State.setFault_commands (c : Cause) : (s.setFault c).commands = s.commands := rfl
@[simp] theorem State.setFault_moves (c : Cause) : (s.setFault c).moves = s.moves := rfl
@[simp] theorem State.setFault_pastTx (c : Cause) : (s.setFault c).pastTx = s.pastTx := rfl
@[simp] theorem State.setFault_pastEvents (c : Cause) : (s.setFault c).pastEvents = s.pastEvents := rfl
@[simp] theorem State.setFault_params (c : Cause) : (s.setFault c).params = s.params := rfl
@[simp] theorem State.setFault_draws (c : Cause) : (s.setFault c).draws = s.draws := rfl

/-! ### `State.setStop` -/

@[simp] theorem State.setStop_cfg : (s.setStop).cfg = s.cfg := rfl
@[simp] theorem State.setStop_fwd : (s.setStop).fwd = s.fwd := rfl
@[simp] theorem State.setStop_work : (s.setStop).work = s.work := rfl
@[simp] theorem State.setStop_configured : (s.setStop).configured = s.configured := rfl
@[simp] theorem State.setStop_running : (s.setStop).running = s.running := rfl
@[simp] theorem State.setStop_stopReq : (s.setStop).stopReq = true := rfl
@[simp] theorem State.setStop_faulted : (s.setStop).faulted = s.faulted := rfl
@[simp] theorem State.setStop_faultCause : (s.setStop).faultCause = s.faultCause := rfl
@[simp] theorem State.setStop_faultValue : (s.setStop).faultValue = s.faultValue := rfl
@[simp] theorem State.setStop_status : (s.setStop).status = s.status := rfl
@[simp] theorem State.setStop_statusValue : (s.setStop).statusValue = s.statusValue := rfl
@[simp] theorem State.setStop_operand : (s.setStop).operand = s.operand := rfl
@[simp] theorem State.setStop_result : (s.setStop).result = s.result := rfl
@[simp] theorem State.setStop_rx : (s.setStop).rx = s.rx := rfl
@[simp] theorem State.setStop_tx : (s.setStop).tx = s.tx := rfl
@[simp] theorem State.setStop_events : (s.setStop).events = s.events := rfl
@[simp] theorem State.setStop_portWait : (s.setStop).portWait = s.portWait := rfl
@[simp] theorem State.setStop_txOpens : (s.setStop).txOpens = s.txOpens := rfl
@[simp] theorem State.setStop_rxOpens : (s.setStop).rxOpens = s.rxOpens := rfl
@[simp] theorem State.setStop_commands : (s.setStop).commands = s.commands := rfl
@[simp] theorem State.setStop_moves : (s.setStop).moves = s.moves := rfl
@[simp] theorem State.setStop_pastTx : (s.setStop).pastTx = s.pastTx := rfl
@[simp] theorem State.setStop_pastEvents : (s.setStop).pastEvents = s.pastEvents := rfl
@[simp] theorem State.setStop_params : (s.setStop).params = s.params := rfl
@[simp] theorem State.setStop_draws : (s.setStop).draws = s.draws := rfl

/-! ### `State.present` -/

@[simp] theorem State.present_cfg (c : Command) (rest : List Command) : (s.present c rest).cfg = s.cfg := rfl
@[simp] theorem State.present_fwd (c : Command) (rest : List Command) : (s.present c rest).fwd = s.fwd := rfl
@[simp] theorem State.present_work (c : Command) (rest : List Command) : (s.present c rest).work = s.work := rfl
@[simp] theorem State.present_configured (c : Command) (rest : List Command) : (s.present c rest).configured = s.configured := rfl
@[simp] theorem State.present_running (c : Command) (rest : List Command) : (s.present c rest).running = s.running := rfl
@[simp] theorem State.present_stopReq (c : Command) (rest : List Command) : (s.present c rest).stopReq = s.stopReq := rfl
@[simp] theorem State.present_faulted (c : Command) (rest : List Command) : (s.present c rest).faulted = s.faulted := rfl
@[simp] theorem State.present_faultCause (c : Command) (rest : List Command) : (s.present c rest).faultCause = s.faultCause := rfl
@[simp] theorem State.present_faultValue (c : Command) (rest : List Command) : (s.present c rest).faultValue = s.faultValue := rfl
@[simp] theorem State.present_status (c : Command) (rest : List Command) : (s.present c rest).status = s.status := rfl
@[simp] theorem State.present_statusValue (c : Command) (rest : List Command) : (s.present c rest).statusValue = s.statusValue := rfl
@[simp] theorem State.present_operand (c : Command) (rest : List Command) : (s.present c rest).operand = c.operand := rfl
@[simp] theorem State.present_result (c : Command) (rest : List Command) : (s.present c rest).result = s.result := rfl
@[simp] theorem State.present_rx (c : Command) (rest : List Command) : (s.present c rest).rx = s.rx := rfl
@[simp] theorem State.present_tx (c : Command) (rest : List Command) : (s.present c rest).tx = s.tx := rfl
@[simp] theorem State.present_events (c : Command) (rest : List Command) : (s.present c rest).events = s.events := rfl
@[simp] theorem State.present_portWait (c : Command) (rest : List Command) : (s.present c rest).portWait = s.portWait := rfl
@[simp] theorem State.present_txOpens (c : Command) (rest : List Command) : (s.present c rest).txOpens = s.txOpens := rfl
@[simp] theorem State.present_rxOpens (c : Command) (rest : List Command) : (s.present c rest).rxOpens = s.rxOpens := rfl
@[simp] theorem State.present_commands (c : Command) (rest : List Command) : (s.present c rest).commands = rest := rfl
@[simp] theorem State.present_moves (c : Command) (rest : List Command) : (s.present c rest).moves = s.moves := rfl
@[simp] theorem State.present_pastTx (c : Command) (rest : List Command) : (s.present c rest).pastTx = s.pastTx := rfl
@[simp] theorem State.present_pastEvents (c : Command) (rest : List Command) : (s.present c rest).pastEvents = s.pastEvents := rfl
@[simp] theorem State.present_params (c : Command) (rest : List Command) : (s.present c rest).params = s.params := rfl
@[simp] theorem State.present_draws (c : Command) (rest : List Command) : (s.present c rest).draws = s.draws := rfl

/-! ### `State.toReset` -/

@[simp] theorem State.toReset_cfg : (s.toReset).cfg = CfgRegs.reset := rfl
@[simp] theorem State.toReset_fwd : (s.toReset).fwd = [] := rfl
@[simp] theorem State.toReset_work : (s.toReset).work = Working.reset := rfl
@[simp] theorem State.toReset_configured : (s.toReset).configured = false := rfl
@[simp] theorem State.toReset_running : (s.toReset).running = false := rfl
@[simp] theorem State.toReset_stopReq : (s.toReset).stopReq = false := rfl
@[simp] theorem State.toReset_faulted : (s.toReset).faulted = false := rfl
@[simp] theorem State.toReset_faultCause : (s.toReset).faultCause = 0#4 := rfl
@[simp] theorem State.toReset_faultValue : (s.toReset).faultValue = .none := rfl
@[simp] theorem State.toReset_status : (s.toReset).status = 0#4 := rfl
@[simp] theorem State.toReset_statusValue : (s.toReset).statusValue = .none := rfl
@[simp] theorem State.toReset_operand : (s.toReset).operand = s.operand := rfl
@[simp] theorem State.toReset_result : (s.toReset).result = .none := rfl
@[simp] theorem State.toReset_rx : (s.toReset).rx = s.rx := rfl
@[simp] theorem State.toReset_tx : (s.toReset).tx = [] := rfl
@[simp] theorem State.toReset_events : (s.toReset).events = [] := rfl
@[simp] theorem State.toReset_portWait : (s.toReset).portWait = .idle := rfl
@[simp] theorem State.toReset_txOpens : (s.toReset).txOpens = s.txOpens := rfl
@[simp] theorem State.toReset_rxOpens : (s.toReset).rxOpens = s.rxOpens := rfl
@[simp] theorem State.toReset_commands : (s.toReset).commands = s.commands := rfl
@[simp] theorem State.toReset_moves : (s.toReset).moves = s.moves := rfl
@[simp] theorem State.toReset_pastTx : (s.toReset).pastTx = s.pastTx ++ (s.tx ++ s.leftover) := rfl
@[simp] theorem State.toReset_pastEvents : (s.toReset).pastEvents = s.pastEvents ++ s.events := rfl
@[simp] theorem State.toReset_params : (s.toReset).params = s.params := rfl
@[simp] theorem State.toReset_draws : (s.toReset).draws = s.drawsAfterReset := rfl

/-! ### The composed updates -/

@[simp] theorem State.succeed_eq : s.succeed = s.report 0#4 .none := rfl
@[simp] theorem State.answer_eq (r : ResultVal) : s.answer r = State.report { s with result := r } 0#4 .none := rfl
@[simp] theorem State.refuse_eq (c : Cause) : s.refuse c = s.report c.code c.value := rfl
@[simp] theorem State.fatal_eq (c : Cause) : s.fatal c = (s.setFault c).report c.code c.value := rfl
@[simp] theorem State.leaveReceive_eq :
    s.leaveReceive = { s with stopReq := false, work := Working.reset, running := false } := rfl
@[simp] theorem State.fatalReceive_eq (c : Cause) : s.fatalReceive c =
    (State.setFault { s with stopReq := false, work := Working.reset, running := false } c).report c.code c.value := rfl
@[simp] theorem State.exitReceive_eq : s.exitReceive =
    State.report { s with stopReq := false, work := Working.reset, running := false } 0#4 .none := rfl

end Sys2Proof.Machine
end

