-- ==== Sys2Proof/Laws/Ops.lean ====
section
/-! SUPPORT. What each shared operation can do, said once: acceptance of a command, the operand check, the ports, the fetch,
and the step. -/

namespace Sys2Proof.Machine

/-- A launch is there exactly when the block is configured with a complete, legal configuration and a map of `S` entries. -/
theorem State.launch_eq_some {s : State} {l : Launch} :
    s.launch = some l ↔ s.configured = true ∧ s.cfg.values = some l.cfg ∧ l.cfg.legal = true ∧ l.fwd = s.fwd ∧
      s.fwd.length = symbolSpace l.cfg.bpt := by
  unfold State.launch
  constructor
  · intro h
    split at h
    · split at h
      · split at h
        · rename_i hc _ v hv hl
          cases h
          simp only [Bool.and_eq_true, decide_eq_true_eq] at hl
          exact ⟨hc, hv, hl.1, rfl, hl.2⟩
        · cases h
      · cases h
    · cases h
  · rintro ⟨hc, hv, hl, hf, hn⟩
    simp only [hc, hv, hl, hn, if_true, Bool.true_and, decide_true]
    rw [← hf]

/-- The launch reads the configuration, the map and `CONFIGURED`, and nothing else. -/
theorem State.launch_congr {s t : State} (hc : t.configured = s.configured) (hg : t.cfg = s.cfg) (hf : t.fwd = s.fwd) :
    t.launch = s.launch := by simp [State.launch, hc, hg, hf]

theorem State.launch_unconfigured {s : State} (h : s.configured = false) : s.launch = none := by simp [State.launch, h]

theorem State.Ready.fwd_eq {s : State} {l : Launch} (h : s.Ready l) : l.fwd = s.fwd := (State.launch_eq_some.1 h.2).2.2.2.1

theorem State.Ready.legal {s : State} {l : Launch} (h : s.Ready l) : l.cfg.legal = true := (State.launch_eq_some.1 h.2).2.2.1

theorem State.Ready.length {s : State} {l : Launch} (h : s.Ready l) : s.fwd.length = symbolSpace l.cfg.bpt :=
  (State.launch_eq_some.1 h.2).2.2.2.2

/-- The six conditions of `LegalCfg` (10_state.md R27). -/
theorem CfgValues.legal_iff {v : CfgValues} :
    v.legal = true ↔ v.waveform ≤ 1 ∧ 0 < v.step ∧ 2 ≤ v.n ∧ 4 ≤ v.bpt ∧ v.bpt ≤ 8 ∧ 1 ≤ v.reps := by
  simp [CfgValues.legal, and_assoc]

theorem State.accept_of_ready {s : State} {l : Launch} (h : s.Ready l) (k : Launch → State) : s.accept k = k l := by
  simp [State.accept, h.1, h.2]

theorem State.accept_of_faulted {s : State} (h : s.faulted = true) (k : Launch → State) :
    s.accept k = s.refuse .refusedFaulted := by simp [State.accept, h]

theorem State.accept_of_no_launch {s : State} (hf : s.faulted = false) (h : s.launch = none) (k : Launch → State) :
    s.accept k = s.refuse .notConfigured := by simp [State.accept, hf, h]

/-- What `State.accept` can do: refuse as faulted, refuse as not configured, or go on in the block's launch. -/
theorem State.accept_cases (s : State) (k : Launch → State) :
    (s.faulted = true ∧ s.accept k = s.refuse .refusedFaulted) ∨
    (s.faulted = false ∧ s.launch = none ∧ s.accept k = s.refuse .notConfigured) ∨
    ∃ l, s.Ready l ∧ s.accept k = k l := by
  cases hf : s.faulted
  · cases hl : s.launch with
    | none => exact .inr (.inl ⟨rfl, rfl, State.accept_of_no_launch hf hl k⟩)
    | some l => exact .inr (.inr ⟨l, ⟨hf, hl⟩, State.accept_of_ready ⟨hf, hl⟩ k⟩)
  · exact .inl ⟨rfl, State.accept_of_faulted hf k⟩

@[simp] theorem State.withOperand_some {α : Type} (s : State) (a : α) (k : α → State) : s.withOperand (some a) k = k a := rfl

@[simp] theorem State.withOperand_none {α : Type} (s : State) (k : α → State) :
    s.withOperand none k = s.refuse .badOperand := rfl

/-- What `State.withOperand` can do: refuse the operand, or go on with it. -/
theorem State.withOperand_cases {α : Type} (s : State) (o : Option α) (k : α → State) :
    s.withOperand o k = s.refuse .badOperand ∨ ∃ a, o = some a ∧ s.withOperand o k = k a := by
  cases o with
  | none => exact .inl rfl
  | some a => exact .inr ⟨a, rfl, rfl⟩

/-- What `TxWrite` can do: hand the waveform over, or take the fatal `DeviceError`. -/
theorem State.txWrite_cases (s : State) (wave : List Sample) :
    (s.txOpens = true ∧ s.txWrite wave = { s with portWait := .txWrite wave }) ∨
    (s.txOpens = false ∧ s.txWrite wave = s.fatal (.deviceError .tx)) := by
  cases h : s.txOpens <;> simp [State.txWrite, h]

/-- A reserved word is one that the decoder rejects, and it rejects it by name. -/
theorem decode_reserved {w : Byte} (h : reservedWord w = true) : decode w = .error (.reservedOpcode w) := by
  revert w; decide +kernel

/-- What the decoder answers on each of the 256 words, checked word by word. -/
theorem decode_all (w : Byte) :
    (match decode w with
      | .ok i => decide (w = encode i) && !reservedWord w
      | .error (.reservedOpcode v) => decide (v = w) && reservedWord w) = true := by
  revert w; decide +kernel

/-- The decoder accepts exactly the encoded words. -/
theorem decode_eq_ok {w : Byte} {i : Instr} : decode w = .ok i ↔ w = encode i := by
  constructor
  · intro h
    have hw := decode_all w
    simp only [h, Bool.and_eq_true, decide_eq_true_eq] at hw
    exact hw.1
  · rintro rfl; cases i <;> rfl

/-- What the fetch finds when a command with a defined word is pending. -/
theorem State.fetch_command {s : State} {c : Command} {rest : List Command} {i : Instr}
    (hc : s.commands = c :: rest) (hd : decode c.word = .ok i) : s.fetch = .command i (s.present c rest) := by
  simp [State.fetch, hc, hd]

/-- What the fetch finds when a reserved word is pending. -/
theorem State.fetch_illegal {s : State} {c : Command} {rest : List Command}
    (hc : s.commands = c :: rest) (hd : reservedWord c.word = true) :
    s.fetch = .illegal ((s.present c rest).refuse (.illegalCommand c.word)) := by
  simp [State.fetch, hc, decode_reserved hd]

/-- Every command answers a next state. -/
theorem exec_next (i : Instr) (s : State) : ∃ t, exec i s = .next t := by
  cases i <;> exact ⟨_, rfl⟩

/-- A step in which the host makes no move, or lets the block go on, is the block's. -/
theorem step_of_blockTurn {s : State} {ms : List HostMove} (h : s.BlockTurn ms) : step s = blockStep { s with moves := ms } := by
  obtain ⟨hm, rfl⟩ | hm := h
  · have hs : { s with moves := [] } = s := by cases s; cases hm; rfl
    rw [hs]; simp [step, hm]
  · simp [step, hm]

/-- A busy block goes on with its operation. -/
theorem blockStep_of_busy {s : State} (h : s.busy = true) : blockStep s = .next s.advance := by simp [blockStep, h]

/-- What one step can be: a move of the host, a busy block going on, an idle block waiting, a command, or a reserved word. -/
theorem step_cases {s s' : State} (h : step s = .next s') :
    (∃ m ms, s.moves = m :: ms ∧ m ≠ .run ∧ s' = State.hostMove { s with moves := ms } m) ∨
    ∃ ms, s.BlockTurn ms ∧
      ((s.busy = true ∧ s' = State.advance { s with moves := ms }) ∨
       (s.busy = false ∧ s.commands = [] ∧ s' = { s with moves := ms }) ∨
       (s.busy = false ∧ ∃ c rest i, s.commands = c :: rest ∧ decode c.word = .ok i ∧
          exec i (State.present { s with moves := ms } c rest) = .next s') ∨
       (s.busy = false ∧ ∃ c rest w, s.commands = c :: rest ∧ decode c.word = .error (.reservedOpcode w) ∧
          s' = (State.present { s with moves := ms } c rest).refuse (.illegalCommand w))) := by
  have block : ∀ ms, blockStep { s with moves := ms } = .next s' →
      ((s.busy = true ∧ s' = State.advance { s with moves := ms }) ∨
       (s.busy = false ∧ s.commands = [] ∧ s' = { s with moves := ms }) ∨
       (s.busy = false ∧ ∃ c rest i, s.commands = c :: rest ∧ decode c.word = .ok i ∧
          exec i (State.present { s with moves := ms } c rest) = .next s') ∨
       (s.busy = false ∧ ∃ c rest w, s.commands = c :: rest ∧ decode c.word = .error (.reservedOpcode w) ∧
          s' = (State.present { s with moves := ms } c rest).refuse (.illegalCommand w))) := by
    intro ms hb
    have hbusy : State.busy { s with moves := ms } = s.busy := rfl
    unfold blockStep at hb
    rw [hbusy] at hb
    cases hx : s.busy
    · simp only [hx, Bool.false_eq_true, if_false] at hb
      cases hc : s.commands with
      | nil =>
        simp only [State.fetch, hc] at hb
        cases hb
        exact .inr (.inl ⟨rfl, rfl, rfl⟩)
      | cons c rest =>
        simp only [State.fetch, hc] at hb
        cases hd : decode c.word with
        | ok i =>
          simp only [hd] at hb
          exact .inr (.inr (.inl ⟨rfl, c, rest, i, rfl, hd, hb⟩))
        | error e =>
          obtain ⟨w⟩ := e
          simp only [hd] at hb
          cases hb
          exact .inr (.inr (.inr ⟨rfl, c, rest, w, rfl, hd, rfl⟩))
    · simp only [hx, if_true] at hb
      cases hb
      exact .inl ⟨rfl, rfl⟩
  cases hm : s.moves with
  | nil =>
    refine .inr ⟨[], .inl ⟨hm, rfl⟩, block [] ?_⟩
    rw [← step_of_blockTurn (.inl ⟨hm, rfl⟩)]
    exact h
  | cons m ms =>
    cases m with
    | run => exact .inr ⟨ms, .inr hm, block ms (by simpa [step, hm] using h)⟩
    | _ =>
      refine .inl ⟨_, ms, rfl, by simp, ?_⟩
      simpa [step, hm] using h.symm

end Sys2Proof.Machine
end

