-- ==== Sys2Proof/Laws/Receiver.lean ====
section
/-! SUPPORT. What the receiver's transition function and the receiver commands can answer, said once
(46_receiver_state_machine.md). -/

namespace Sys2Proof.Machine

/-! ### The byte loop -/

/-- The popped byte is the oldest eight bits (30_encoding.md R79). -/
theorem bitsOf_popByte {q : List Bit} (h : 8 ≤ q.length) : bitsOf 8 (popByte q).toNat = q.take 8 := by
  have hl : (q.take 8).length = 8 := by simp [h]
  have hv := bitsValue_lt (q.take 8)
  have hb := bitsOf_bitsValue (q.take 8)
  rw [hl] at hv hb
  rw [popByte, BitVec.toNat_ofNat, Nat.mod_eq_of_lt hv, hb]

/-- Eight bits that are those of a byte pop as that byte. -/
theorem popByte_eq {q : List Bit} {b : Byte} (h : q.take 8 = bitsOf 8 b.toNat) : popByte q = b := by
  rw [popByte, h, bitsValue_bitsOf, Nat.mod_eq_of_lt b.isLt, BitVec.ofNat_toNat, BitVec.setWidth_eq]

/-- What a byte does, test by test (46_receiver_state_machine.md R228 to R232). -/
theorem byteEffect_cases (b : Byte) :
    ((b = 0x02#8 ∨ 0x80 ≤ b.toNat) ∧ byteEffect b = .skip) ∨ (b = 0x03#8 ∧ byteEffect b = .finish) ∨
      (b ≠ 0x02#8 ∧ b ≠ 0x03#8 ∧ b.toNat ≤ 0x7F ∧ byteEffect b = .append (Char.ofNat b.toNat)) := by
  unfold byteEffect decodeStandalone Config.startMarker Config.endMarker
  by_cases h2 : b = 0x02#8
  · exact .inl ⟨.inl h2, by rw [if_pos h2]⟩
  by_cases h3 : b = 0x03#8
  · exact .inr (.inl ⟨h3, by rw [if_neg h2, if_pos h3]⟩)
  by_cases h7 : b.toNat ≤ 0x7F
  · exact .inr (.inr ⟨h2, h3, h7, by rw [if_neg h2, if_neg h3, if_pos h7]⟩)
  · exact .inl ⟨.inr (by omega), by rw [if_neg h2, if_neg h3, if_neg h7]⟩

/-- An ASCII byte's character has the byte's number (46_receiver_state_machine.md R231). -/
theorem toNat_ofNat_ascii {n : Nat} (h : n ≤ 0x7F) : (Char.ofNat n).toNat = n := by
  have hv : n.isValidChar := .inl (by omega)
  simp [Char.ofNat, hv, Char.ofNatAux, Char.toNat]

/-- A message under `MSG_CAP`. -/
@[simp] theorem msgFull_none (len : Nat) : msgFull none len = false := rfl

/-- What a symbol does while decoding, when the buffer holds at most seven bits before it and a symbol at most eight: no
byte, or exactly one (46_receiver_state_machine.md R228, R235). -/
theorem stepDecoding_cases {bpt : Nat} (cap : Option Nat) {w : Working} (sym : Symbol) (hb : bpt ≤ 8) (hw : w.bitbuf.length ≤ 7) :
    let q := w.bitbuf ++ bitsOf bpt sym
    (q.length < 8 ∧ stepDecoding bpt cap w sym = .done { w with bitbuf := q } [] (.data 0)) ∨
    (8 ≤ q.length ∧
      ((byteEffect (popByte q) = .skip ∧ stepDecoding bpt cap w sym = .done { w with bitbuf := q.drop 8 } [] (.data 1)) ∨
       (byteEffect (popByte q) = .finish ∧ stepDecoding bpt cap w sym = .done Working.reset [.msgDone w.msg] .completed) ∨
       ∃ c, byteEffect (popByte q) = .append c ∧
        ((msgFull cap w.msg.length = true ∧ stepDecoding bpt cap w sym = .msgOverflow) ∨
         (msgFull cap w.msg.length = false ∧ stepDecoding bpt cap w sym =
            .done { w with bitbuf := q.drop 8, msg := w.msg ++ [c] } [.charOut c] (.data 1))))) := by
  intro q
  have hl : q.length ≤ 15 := by simp [q]; omega
  by_cases h : q.length < 8
  · left
    refine ⟨h, ?_⟩
    have h0 : q.length / 8 = 0 := by omega
    show popBytes cap (q.length / 8) _ 0 [] = _
    rw [h0, popBytes]
  · right
    have h1 : q.length / 8 = 1 := by omega
    have e : stepDecoding bpt cap w sym = popBytes cap 1 { w with bitbuf := q } 0 [] := by
      show popBytes cap (q.length / 8) _ 0 [] = _
      rw [h1]
    refine ⟨by omega, ?_⟩
    rw [e]
    simp only [popBytes, h, if_false]
    cases byteEffect (popByte q) with
    | skip => left; simp
    | finish => right; left; simp
    | append c =>
      right; right
      cases msgFull cap w.msg.length <;> simp

/-! ### Listening -/

/-- The sliding buffer keeps the last `len` symbols (46_receiver_state_machine.md R226). -/
theorem slide_spec {len : Nat} {q : List Symbol} (x : Symbol) (h : q.length ≤ len) :
    slide len q x <:+ q ++ [x] ∧ (slide len q x).length = min (q.length + 1) len := by
  unfold slide
  simp only [List.length_append, List.length_singleton]
  split
  · refine ⟨List.drop_suffix _ _, ?_⟩
    simp only [List.length_drop, List.length_append, List.length_singleton]; omega
  · refine ⟨List.suffix_refl _, ?_⟩
    simp only [List.length_append, List.length_singleton]; omega

/-- What a symbol does while listening (46_receiver_state_machine.md R226). -/
theorem stepListening_cases (reps : Nat) (w : Working) (x : Symbol) :
    let q := slide (preambleLength reps) w.syncbuf x
    (q = preamble reps ∧
      stepListening reps w x = .done { phase := .decoding, syncbuf := [], bitbuf := [], msg := [] } [] .synced) ∨
    (q ≠ preamble reps ∧ stepListening reps w x = .done { w with syncbuf := q } [] .shifted) := by
  intro q
  by_cases h : q = preamble reps
  · exact .inl ⟨h, if_pos h⟩
  · exact .inr ⟨h, if_neg h⟩

/-- What one receiver step can do (46_receiver_state_machine.md R223). -/
theorem rxStep_cases (l : Launch) (cap : Option Nat) (w : Working) (d : Detection) :
    (d = .silence ∧ w.phase = .decoding ∧ rxStep l cap w d = .done Working.reset [] .aborted) ∨
    (d = .silence ∧ w.phase = .listening ∧ rxStep l cap w d = .done w [] .idleSilence) ∨
    ∃ f p, d = .tone f p ∧
      ((classify l.fwd l.cfg.step f = none ∧ rxStep l cap w d = .done w [] .ignored) ∨
       ∃ x, classify l.fwd l.cfg.step f = some x ∧
        ((w.phase = .listening ∧ rxStep l cap w d = stepListening l.cfg.reps w x) ∨
         (w.phase = .decoding ∧ rxStep l cap w d = stepDecoding l.cfg.bpt cap w x))) := by
  cases d with
  | silence =>
    cases h : w.phase
    · exact .inr (.inl ⟨rfl, rfl, by simp [rxStep, stepSilence, h]⟩)
    · exact .inl ⟨rfl, rfl, by simp [rxStep, stepSilence, h]⟩
  | tone f p =>
    refine .inr (.inr ⟨f, p, rfl, ?_⟩)
    cases hc : classify l.fwd l.cfg.step f with
    | none => exact .inl ⟨rfl, by simp [rxStep, hc]⟩
    | some x =>
      refine .inr ⟨x, rfl, ?_⟩
      cases h : w.phase
      · exact .inl ⟨rfl, by simp [rxStep, hc, stepSymbol, h]⟩
      · exact .inr ⟨rfl, by simp [rxStep, hc, stepSymbol, h]⟩

/-! ### The receiver commands -/

/-- What a read that returns can do: the chunk leaves the stream and is processed, inside RECEIVE or alone, or a finite
`MSG_CAP` overflows, and then only RECEIVE clears `STOP_REQ` and the working state (46_receiver_state_machine.md R238, R240; log 20). -/
theorem State.finishRead_cases (s : State) (l : Launch) :
    (∃ w evs tag,
      rxStep l s.params.msgCap s.work (detect s.params.hannForm l.cfg.n l.cfg.thresh (s.rx.take l.cfg.n)) = .done w evs tag ∧
      ((s.running = true ∧ s.finishRead l =
          { s with rx := s.rx.drop l.cfg.n, portWait := .idle, work := w, events := s.events ++ evs }) ∨
       (s.running = false ∧ s.finishRead l =
          { s with
            rx := s.rx.drop l.cfg.n, portWait := .idle, work := w, result := .tag tag
            status := okCode, statusValue := .none, events := s.events ++ evs ++ [.status okCode] }))) ∨
    (rxStep l s.params.msgCap s.work (detect s.params.hannForm l.cfg.n l.cfg.thresh (s.rx.take l.cfg.n)) = .msgOverflow ∧
      ((s.running = true ∧ s.finishRead l =
          State.fatalReceive { s with rx := s.rx.drop l.cfg.n, portWait := .idle } .msgOverflow) ∨
       (s.running = false ∧ s.finishRead l =
          State.fatal { s with rx := s.rx.drop l.cfg.n, portWait := .idle } .msgOverflow))) := by
  cases h : rxStep l s.params.msgCap s.work (detect s.params.hannForm l.cfg.n l.cfg.thresh (s.rx.take l.cfg.n)) with
  | done w evs tag =>
    refine .inl ⟨w, evs, tag, rfl, ?_⟩
    cases hr : s.running
    · exact .inr ⟨rfl, by simp [State.finishRead, h, hr, State.emit, State.answer, State.succeed, State.report]⟩
    · exact .inl ⟨rfl, by simp [State.finishRead, h, hr, State.emit]⟩
  | msgOverflow => cases hr : s.running <;> simp [State.finishRead, h, hr]

/-- What a busy block does in one step by itself: it waits, a read returns, the loop leaves, or it enters its next read
(20_memory.md R50, R51; 46_receiver_state_machine.md R240). -/
theorem State.advance_cases (s : State) :
    s.advance = s ∨
    ∃ l, s.launch = some l ∧
      ((s.portWait = .rxRead ∧ l.cfg.n ≤ s.rx.length ∧ s.advance = s.finishRead l) ∨
       (s.portWait = .idle ∧ s.running = true ∧
        ((s.stopReq = true ∧ s.advance = s.exitReceive) ∨
         (s.stopReq = false ∧ s.rx.length < l.cfg.n ∧ s.advance = { s with portWait := .rxRead }) ∨
         (s.stopReq = false ∧ l.cfg.n ≤ s.rx.length ∧
            s.advance = State.finishRead { s with portWait := .rxRead } l)))) := by
  cases hl : s.launch with
  | none => exact .inl (by simp [State.advance, hl])
  | some l =>
    cases hp : s.portWait with
    | txWrite wave => exact .inl (by simp [State.advance, hl, hp])
    | rxRead =>
      by_cases hn : l.cfg.n ≤ s.rx.length
      · exact .inr ⟨l, rfl, .inl ⟨rfl, hn, by simp [State.advance, hl, hp, State.continueRead, State.chunkReady, hn]⟩⟩
      · exact .inl (by simp [State.advance, hl, hp, State.continueRead, State.chunkReady, hn])
    | idle =>
      cases hr : s.running
      · exact .inl (by simp [State.advance, hl, hp, hr])
      · refine .inr ⟨l, rfl, .inr ⟨rfl, rfl, ?_⟩⟩
        cases hs : s.stopReq
        · right
          by_cases hn : l.cfg.n ≤ s.rx.length
          · exact .inr ⟨rfl, hn, by
              simp [State.advance, hl, hp, hr, State.loopBoundary, hs, State.enterRead, State.continueRead, State.chunkReady, hn]⟩
          · exact .inl ⟨rfl, by omega, by
              simp [State.advance, hl, hp, hr, State.loopBoundary, hs, State.enterRead, State.continueRead, State.chunkReady, hn]⟩
        · exact .inl ⟨rfl, by simp [State.advance, hl, hp, hr, State.loopBoundary, hs]⟩

/-- The step in which a read returns: the samples are there, and the block waits inside the read or comes to it at an iteration
boundary without a stop request (20_memory.md R51; 46_receiver_state_machine.md R240, R243). -/
theorem step_finishes_read {s : State} {l : Launch} {ms : List HostMove} (hm : s.BlockTurn ms) (hl : s.launch = some l)
    (hc : s.portWait = .rxRead ∨ (s.running = true ∧ s.portWait = .idle ∧ s.stopReq = false)) (hn : l.cfg.n ≤ s.rx.length) :
    step s = .next (State.finishRead { s with moves := ms, portWait := .rxRead } l) := by
  have key : ∀ t : State, t.launch = some l →
      (t.portWait = .rxRead ∨ (t.running = true ∧ t.portWait = .idle ∧ t.stopReq = false)) → l.cfg.n ≤ t.rx.length →
      t.advance = State.finishRead { t with portWait := .rxRead } l := by
    rintro t hl (hp | ⟨hr, hp, hs⟩) hn
    · have : { t with portWait := .rxRead } = t := by cases t; cases hp; rfl
      rw [this]; simp [State.advance, hl, hp, State.continueRead, State.chunkReady, hn]
    · simp [State.advance, hl, hp, hr, hs, State.loopBoundary, State.enterRead, State.continueRead, State.chunkReady, hn]
  rw [step_of_blockTurn hm, blockStep_of_busy (by rcases hc with h | h <;> simp [State.busy, h]),
    key { s with moves := ms } hl hc hn]

end Sys2Proof.Machine
end

