-- ==== Sys2Proof/Laws/Signal.lean ====
section
/-! SUPPORT. What the window, the shaping, the waveform and the search for the strongest bin can answer, said once
(42_tone_synthesizer.md; 44_modulator_send.md; 45_spectral_detector.md). -/

namespace Sys2Proof.Machine

open Sys2Proof.Config

/-- The window lies between 0 and 1 (42_tone_synthesizer.md R155). -/
theorem hann_mem (form : HannForm) (i n : Nat) : 0 ≤ hann form i n ∧ hann form i n ≤ 1 := by
  have := abs_le.1 (abs_cosTurn_le_one ((i : Rat) / windowSpan form n))
  unfold hann
  constructor <;> linarith [this.1, this.2]

/-- The shaped sample lies between -1 and 1 (42_tone_synthesizer.md R153). -/
theorem abs_shape_le_one (waveform : Nat) (a : Rat) : |shape waveform a| ≤ 1 := by
  unfold shape
  rw [abs_le]
  split
  · exact ⟨le_min (by norm_num) (le_max_left _ _), min_le_left _ _⟩
  · split_ifs <;> constructor <;> norm_num

@[simp] theorem shape_zero (waveform : Nat) : shape waveform 0 = 0 := by
  unfold shape; split <;> norm_num

/-- Both shapes are odd (42_tone_synthesizer.md R161 (d)). -/
theorem shape_neg (waveform : Nat) (a : Rat) : shape waveform (-a) = -shape waveform a := by
  unfold shape
  split
  · rw [mul_neg]
    generalize clipGain * a = x
    rcases le_total x (-1) with h1 | h1
    · have a1 : max (-1) (-x) = -x := max_eq_right (by linarith)
      have a2 : min 1 (-x) = 1 := min_eq_left (by linarith)
      have a3 : min (1 : Rat) (-1) = -1 := by norm_num
      rw [a1, a2, max_eq_left h1, a3, neg_neg]
    · rcases le_total x 1 with h2 | h2
      · have a1 : max (-1) (-x) = -x := max_eq_right (by linarith)
        have a2 : min 1 (-x) = -x := min_eq_right (by linarith)
        rw [a1, a2, max_eq_right h1, min_eq_right h2]
      · have a1 : max (-1) (-x) = -1 := max_eq_left (by linarith)
        have a2 : min (1 : Rat) (-1) = -1 := by norm_num
        rw [a1, a2, max_eq_right h1, min_eq_left h2]
  · rcases lt_trichotomy a 0 with h | h | h
    · simp [h, h.not_gt]
    · simp [h]
    · simp [h, h.not_gt]

@[simp] theorem render_length (form : HannForm) (w n : Nat) (f : Freq) : (render form w n f).length = n := by simp [render]

theorem render_getElem? {form : HannForm} {w n i : Nat} {f : Freq} (h : i < n) :
    (render form w n f)[i]? = some (renderSample form w n f i) := by simp [render, h]

theorem mem_render {form : HannForm} {w n : Nat} {f : Freq} {y : Sample} :
    y ∈ render form w n f ↔ ∃ i, i < n ∧ y = renderSample form w n f i := by
  simp [render, eq_comm]

@[simp] theorem magnitudes_length (form : HannForm) (n : Nat) (c : List Sample) :
    (magnitudes form n c).length = n / 2 + 1 := by simp [magnitudes]

theorem magnitudes_getElem? {form : HannForm} {n k : Nat} {c : List Sample} (h : k ≤ n / 2) :
    (magnitudes form n c)[k]? = some (magnitude form n c k) := by
  simp [magnitudes, Nat.lt_succ_of_le h]

/-- A magnitude is not negative. -/
theorem magnitude_nonneg (form : HannForm) (n : Nat) (c : List Sample) (k : Nat) : 0 ≤ magnitude form n c k :=
  (sqrtNum_near (by positivity)).1

theorem peakFrom_spec (ms : List Rat) (k best : Nat) (peak : Rat) :
    let p := peakFrom k best peak ms
    (p = (best, peak) ∧ (∀ x ∈ ms, x ≤ peak)) ∨
    (peak < p.2 ∧ ∃ j, p.1 = k + j ∧ ms[j]? = some p.2 ∧ (∀ x ∈ ms, x ≤ p.2) ∧ ∀ i x, i < j → ms[i]? = some x → x < p.2) := by
  induction ms generalizing k best peak with
  | nil => left; simp [peakFrom]
  | cons m t ih =>
    simp only [peakFrom]
    split
    · rename_i hlt
      right
      rcases ih (k + 1) k m with ⟨e, hb⟩ | ⟨hp, j, e1, e2, hb, hs⟩
      · rw [e]
        refine ⟨hlt, 0, rfl, rfl, ?_, by simp⟩
        intro x hx
        rcases List.mem_cons.1 hx with rfl | hx
        · exact le_refl _
        · exact hb x hx
      · refine ⟨hlt.trans hp, j + 1, by rw [e1]; omega, by simpa using e2, ?_, ?_⟩
        · intro x hx
          rcases List.mem_cons.1 hx with rfl | hx
          · exact hp.le
          · exact hb x hx
        · intro i x hi hx
          cases i with
          | zero => simp only [List.getElem?_cons_zero, Option.some.injEq] at hx; rw [← hx]; exact hp
          | succ i => exact hs i x (by omega) (by simpa using hx)
    · rename_i hge
      have hge := not_lt.1 hge
      rcases ih (k + 1) best peak with ⟨e, hb⟩ | ⟨hp, j, e1, e2, hb, hs⟩
      · left
        refine ⟨e, ?_⟩
        intro x hx
        rcases List.mem_cons.1 hx with rfl | hx
        · exact hge
        · exact hb x hx
      · right
        refine ⟨hp, j + 1, by rw [e1]; omega, by simpa using e2, ?_, ?_⟩
        · intro x hx
          rcases List.mem_cons.1 hx with rfl | hx
          · exact hge.trans hp.le
          · exact hb x hx
        · intro i x hi hx
          cases i with
          | zero => simp only [List.getElem?_cons_zero, Option.some.injEq] at hx; rw [← hx]; exact lt_of_le_of_lt hge hp
          | succ i => exact hs i x (by omega) (by simpa using hx)

/-- What the search answers on a list that is not empty: the least index of its greatest entry, and that entry
(45_spectral_detector.md R205). -/
theorem peakBin_spec {ms : List Rat} (h : ms ≠ []) :
    ms[(peakBin ms).1]? = some (peakBin ms).2 ∧ (∀ x ∈ ms, x ≤ (peakBin ms).2) ∧
      ∀ i x, i < (peakBin ms).1 → ms[i]? = some x → x < (peakBin ms).2 := by
  cases ms with
  | nil => exact absurd rfl h
  | cons m t =>
    rcases peakFrom_spec t 1 0 m with ⟨e, hb⟩ | ⟨hp, j, e1, e2, hb, hs⟩
    · simp only [peakBin, e]
      refine ⟨rfl, ?_, by simp⟩
      intro x hx
      rcases List.mem_cons.1 hx with rfl | hx
      · exact le_refl _
      · exact hb x hx
    · simp only [peakBin]
      refine ⟨by rw [e1, Nat.add_comm]; simpa using e2, ?_, ?_⟩
      · intro x hx
        rcases List.mem_cons.1 hx with rfl | hx
        · exact hp.le
        · exact hb x hx
      · intro i x hi hx
        rw [e1] at hi
        cases i with
        | zero => simp only [List.getElem?_cons_zero, Option.some.injEq] at hx; rw [← hx]; exact hp
        | succ i => exact hs i x (by omega) (by simpa using hx)

end Sys2Proof.Machine
end

