-- ==== Sys2Proof/Tests/Slice0.lean ====
section
/-! SUPPORT. The author's own checks: the smoke test of WellFormed, words written out from the opcode map, the worked vectors of
95_test_vectors.md (each theorem names its vector), and one witness for every statement that has hypotheses. -/

namespace Sys2Proof.Tests

set_option Elab.async false

open Sys2Proof.Machine

/-! ### Small states -/

/-- Configuration A of 95_test_vectors.md. -/
def cfgA : CfgRegs :=
  { seed := some 0xBA7816BF#32, waveform := 0, base := some 1000, step := some 100, n := some 480, bpt := some 4
    thresh := some 10, reps := some 4 }

/-- The values of configuration A. -/
def valuesA : CfgValues :=
  { seed := 0xBA7816BF#32, waveform := 0, base := 1000, step := 100, n := 480, bpt := 4, thresh := 10, reps := 4 }

/-- The map of configuration A, from 40_frequency_map.md R116. -/
def mapA : List Freq :=
  [1000, 2200, 2500, 1700, 2300, 1300, 1400, 2400, 1200, 2100, 1500, 1100, 1600, 1900, 2000, 1800]

/-- A configuration with chunks of `n` samples, preamble `[10, 5]` and the map of A. -/
def launchN (n : Nat) (thresh : Rat) : Launch := { cfg := { valuesA with n, thresh, reps := 1 }, fwd := mapA }

def launchA : Launch := { cfg := valuesA, fwd := mapA }

/-- The block with configuration A written, before INIT. -/
def fresh : State := { State.reset with cfg := cfgA }

/-- The block after INIT under configuration A. -/
def ready : State := { State.reset with cfg := cfgA, fwd := mapA, configured := true }

/-- The block after INIT with chunks of four samples and preamble `[10, 5]`. -/
def small : State :=
  { ready with cfg := { cfgA with n := some 4, thresh := some (1 / 2), reps := some 1 } }

def launchSmall : Launch := launchN 4 (1 / 2)

/-- The configured block with an operand. -/
def given (op : Operand) : State := { ready with operand := op }

/-- The state after a command. -/
def after (i : Instr) (s : State) : State :=
  match exec i s with
  | .next t => t
  | .fault _ => s
  | .refused _ => s

/-- The state after one step. -/
def stepped (s : State) : State :=
  match step s with
  | .next t => t
  | .fault _ => s
  | .refused _ => s

/-- The working state while decoding, with bits and text. -/
def decoding (q : List Bit) (t : List Char) : Working := { phase := .decoding, syncbuf := [], bitbuf := q, msg := t }

theorem launch_ready {s : State} (hc : s.configured = true) (hg : s.cfg = cfgA) (hf : s.fwd = mapA) :
    s.launch = some launchA :=
  State.launch_eq_some.2 ⟨hc, by rw [hg]; rfl, by decide +kernel, hf.symm, by rw [hf]; rfl⟩

theorem launch_small {s : State} (hc : s.configured = true) (hg : s.cfg = small.cfg) (hf : s.fwd = mapA) :
    s.launch = some launchSmall :=
  State.launch_eq_some.2 ⟨hc, by rw [hg]; rfl, by decide +kernel, hf.symm, by rw [hf]; rfl⟩

/-- The values of configuration A with `BASE = 0`, chunks of four samples and preamble `[10, 5]`. -/
def valuesZero : CfgValues := { valuesA with base := 0, n := 4, thresh := 1 / 2, reps := 1 }

/-- The map of configuration A moved down by 1000 Hz, which is the map of `BASE = 0`: symbol 0 is the tone of 0 Hz. -/
def launchZero : Launch := { cfg := valuesZero, fwd := mapA.map fun f => f - 1000 }

/-- That configuration in the middle of the character `@`, with a chunk of 0 Hz supplied and room for `cap` characters. -/
def zero (cap : Nat) : State :=
  { ready with
    cfg := { cfgA with base := some 0, n := some 4, thresh := some (1 / 2), reps := some 1 }
    fwd := launchZero.fwd, rx := [0, 3, 4, 0, 7], work := decoding [false, true, false, false] ['A']
    params := { Config.referenceParams with msgCap := some cap } }

theorem launch_zero {s : State} {cap : Nat} (hc : s.configured = true) (hg : s.cfg = (zero cap).cfg) (hf : s.fwd = launchZero.fwd) :
    s.launch = some launchZero :=
  State.launch_eq_some.2 ⟨hc, by rw [hg]; rfl, by decide +kernel, hf.symm, by rw [hf]; rfl⟩

/-- Hand calculation: that chunk is a tone of 0 Hz, the symbol 0, which completes `@`; there is room for it, or there is not. -/
theorem step_zero :
    rxStep launchZero (some 2) (zero 2).work (detect .symmetric 4 (1 / 2) [0, 3, 4, 0]) =
      .done (decoding [] ['A', '@']) [.charOut '@'] (.data 1) ∧
    rxStep launchZero (some 1) (zero 1).work (detect .symmetric 4 (1 / 2) [0, 3, 4, 0]) = .msgOverflow := by decide +kernel

theorem ready_given (op : Operand) : (given op).Ready launchA := ⟨rfl, launch_ready rfl rfl rfl⟩

/-- V4: the built map of configuration A. -/
theorem test_map_of_A : buildMap 0xBA7816BF#32 4 1000 100 = mapA := by decide +kernel

theorem built_A : launchA.Built := ⟨by decide +kernel, test_map_of_A.symm⟩

/-! ### WellFormed: an ill-formed term for each check -/

theorem test_wf_symbol_refuses_frequency : Instr.wellFormed .mapfwd (.frequency 1000) = false := by decide
theorem test_wf_frequency_refuses_symbol : Instr.wellFormed .classify (.symbol 3) = false := by decide
theorem test_wf_bytes_refuses_none : Instr.wellFormed .encode .none = false := by decide
theorem test_wf_chunk_refuses_bytes : Instr.wellFormed .detect (.bytes [0x41#8]) = false := by decide
theorem test_wf_detection_refuses_chunk : Instr.wellFormed .rxstep (.chunk []) = false := by decide
theorem test_wf_detection_refuses_negative_frequency : Instr.wellFormed .rxstep (.detection (.tone (-1) 0)) = false := by
  decide +kernel
theorem test_wf_detection_refuses_negative_power : Instr.wellFormed .rxstep (.detection (.tone 1000 (-1))) = false := by
  decide +kernel
theorem test_wf_detection_admits_silence : Instr.wellFormed .rxstep (.detection .silence) = true := by decide
/-- V52: the reserved words. -/
theorem test_wf_reserved_words :
    [0x0D#8, 0x0E#8, 0x10#8, 0x7F#8, 0x80#8, 0xFF#8].all reservedWord = true := by decide
theorem test_wf_defined_words_are_not_reserved : [0x00#8, 0x0C#8, 0x0F#8].any reservedWord = false := by decide
/-- V51: what `LegalCfg` refuses and admits. -/
theorem test_legal_refuses :
    ({ valuesA with bpt := 3 }.legal || { valuesA with bpt := 9 }.legal || { valuesA with step := 0 }.legal
      || { valuesA with step := -100 }.legal || { valuesA with n := 1 }.legal || { valuesA with reps := 0 }.legal
      || { valuesA with waveform := 2 }.legal) = false := by decide +kernel
theorem test_legal_admits : ({ valuesA with base := -5000 }.legal && { valuesA with base := 30000 }.legal) = true := by
  decide +kernel

/-! ### Words, bit by bit from the opcode map (30_encoding.md R86; V52) -/

theorem test_decode_map_family :
    decode 0b00000010#8 = .ok .mapfwd ∧ decode 0b00000011#8 = .ok .maprev ∧ decode 0b00000100#8 = .ok .classify := ⟨rfl, rfl, rfl⟩
theorem test_decode_transmit_family :
    decode 0b00000101#8 = .ok .render ∧ decode 0b00000110#8 = .ok .encode ∧ decode 0b00000111#8 = .ok .send := ⟨rfl, rfl, rfl⟩
theorem test_decode_receive_family :
    decode 0b00001000#8 = .ok .detect ∧ decode 0b00001001#8 = .ok .rxstep ∧ decode 0b00001010#8 = .ok .rxchunk ∧
    decode 0b00001011#8 = .ok .receive := ⟨rfl, rfl, rfl, rfl⟩
theorem test_decode_system_family :
    decode 0b00000000#8 = .ok .nop ∧ decode 0b00000001#8 = .ok .init ∧ decode 0b00001100#8 = .ok .stop ∧
    decode 0b00001111#8 = .ok .reset := ⟨rfl, rfl, rfl, rfl⟩
theorem test_decode_reserved : decode 0b00001101#8 = .error (.reservedOpcode 0x0D#8) := rfl
theorem test_table_word : decodeTableWord 8 0x0F = some .reset ∧ decodeTableWord 8 0x0E = none ∧ decodeTableWord 8 256 = none := by
  decide

/-! ### Vectors -/

/-- V1: seeds of "abc" and of the empty key. -/
theorem test_seed_of_key : seedOfKey ['a', 'b', 'c'] = 0xBA7816BF#32 ∧ seedOfKey [] = 0xE3B0C442#32 := by decide +kernel
/-- V1: the seed of a key with a character of two bytes. -/
theorem test_seed_of_two_byte_key : seedOfKey ['é'] = 0x4A99557E#32 := by decide +kernel
/-- V2, V3: the generator. -/
theorem test_generator :
    xs32 1#32 = 0x00042021#32 ∧ xs32 0x00042021#32 = 0x04080601#32 ∧ xs32 0x04080601#32 = 0x9DCCA8C5#32 ∧
    startValue 0#32 = 0x9E3779B9#32 := by decide +kernel
/-- V7: rational map frequencies. -/
theorem test_rational_map :
    (buildMap 7#32 4 1500 (125 / 2)).take 3 = [2375, 3125 / 2, 1750] := by decide +kernel
/-- 10_state.md R23: ties go to the even integer. -/
theorem test_chunk_length :
    chunkLength (1 / 100) = 480 ∧ chunkLength (5 / 96000) = 2 ∧ chunkLength (7 / 96000) = 4 := by decide +kernel

/-- P1 line 1. -/
theorem test_init_builds_map : (after .init fresh).fwd = mapA ∧ (after .init fresh).configured = true := by decide +kernel
/-- V51: `THRESH` never supplied. -/
theorem test_init_missing_thresh : (after .init { fresh with cfg := { cfgA with thresh := none } }).status = 5#4 := by
  decide +kernel
theorem test_nop : (after .nop ready).events = [] ∧ (after .nop ready).status = 0#4 := by decide +kernel
/-- P1 line 2. -/
theorem test_mapfwd : (after .mapfwd (given (.symbol 10))).result = .frequency 1500 := by decide +kernel
/-- V9. -/
theorem test_mapfwd_bad_operand : (after .mapfwd (given (.symbol 16))).status = 8#4 := by decide +kernel
/-- S4, V9. -/
theorem test_maprev :
    (after .maprev (given (.frequency 1500))).result = .symbol 10 ∧
    (after .maprev (given (.frequency 1050))).result = .notMapped := by decide +kernel
/-- V9: a tie goes to the lower frequency. -/
theorem test_classify_tie :
    (after .classify (given (.frequency 1550))).result = .symbol 10 ∧
    (after .classify (given (.frequency 1551))).result = .symbol 12 := by decide +kernel
/-- V9: the edges of the range. -/
theorem test_classify_edges :
    (after .classify (given (.frequency 900))).result = .symbol 0 ∧
    (after .classify (given (.frequency 899))).result = .unclassifiable ∧
    (after .classify (given (.frequency 2600))).result = .symbol 2 ∧
    (after .classify (given (.frequency 2601))).result = .unclassifiable := by decide +kernel
/-- V10, V14 and hand calculation: with `N = 4`, 12000 Hz is 0, 1, 0, -1 and the window 0, 3/4, 3/4, 0. -/
theorem test_render_quarter_turns :
    (after .render { small with operand := .frequency 12000 }).result = .samples [0, 57 / 80, 0, 0] := by decide +kernel
/-- Hand calculation: with `N = 3` the middle window value is 1, and at 4000 Hz the raw sine of sample 1 is 1/2, times 3/2. -/
theorem test_render_gain :
    (render .symmetric 0 3 4000)[1]? = some (57 / 80) ∧ (render .symmetric 1 3 4000)[1]? = some (19 / 20) := by decide +kernel
/-- V15, `BPT = 4`. -/
theorem test_encode_Hi :
    (after .encode (given (.bytes [0x48#8, 0x69#8]))).result =
      .symbols [10, 5, 10, 5, 10, 5, 10, 5, 0, 2, 4, 8, 6, 9, 0, 3] := by decide +kernel
/-- V15, `BPT = 5`: three pad bits. -/
theorem test_encode_pads : encodeMessage 5 1 [0x48#8, 0x69#8] = [10, 5, 0, 9, 4, 6, 18, 0, 24] := by decide +kernel
/-- V16 with `N = 4`: the empty message is six chunks, nothing is on the TX port yet. -/
theorem test_send_waits :
    ∃ wave, (after .send { small with operand := .bytes [] }).portWait = .txWrite wave ∧ wave.length = 24 ∧
      (after .send { small with operand := .bytes [] }).events = [] := ⟨_, rfl, by decide +kernel, rfl⟩
/-- P5 line 8. -/
theorem test_send_device_error :
    (after .send { given (.bytes [0x48#8, 0x69#8]) with txOpens := false }).faultCause = 4#4 := by decide +kernel
/-- Hand calculation: windowed 0, 9/4, 3, 0; the magnitudes are 21/4, 15/4, 3/4. -/
theorem test_detect_bin_zero :
    (after .detect { small with operand := .chunk [0, 3, 4, 0] }).result = .detection (.tone 0 (21 / 4)) := by decide +kernel
/-- Hand calculation: windowed 0, 3, -9/4, 0; the magnitudes are 3/4, 15/4, 21/4, so bin 2 of 12000 Hz each. -/
theorem test_detect_bin_two :
    detect .symmetric 4 (21 / 4) [0, 4, -3, 0] = .tone 24000 (21 / 4) ∧ detect .symmetric 4 6 [0, 4, -3, 0] = .silence := by
  decide +kernel
/-- V30 step 12: the byte `H` is complete. -/
theorem test_rxstep_char :
    let t := after .rxstep { given (.detection (.tone 1200 50)) with work := decoding [false, true, false, false] [] }
    t.work = decoding [] ['H'] ∧ t.result = .tag (.data 1) ∧ t.events = [.charOut 'H', .status 0#4] := by decide +kernel
/-- V37: the last symbol completes the message with three pad bits left, `BPT = 5`. -/
theorem test_rxstep_completed :
    stepDecoding 5 none (decoding [false, false, false, false, false, false] ['H', 'i']) 24 =
      .done Working.reset [.msgDone ['H', 'i']] .completed := by decide +kernel
/-- V20 and V32 in one chunk: a silent chunk while listening leaves the buffer and consumes four samples. -/
theorem test_rxchunk_silence :
    let t := after .rxchunk { small with rx := [0, 0, 0, 0, 7], work := { Working.reset with syncbuf := [10] } }
    t.rx = [7] ∧ t.result = .tag .idleSilence ∧ t.work.syncbuf = [10] := by decide +kernel
/-- 20_memory.md R51: without the samples the read waits. -/
theorem test_rxchunk_waits : (after .rxchunk { small with rx := [0, 0, 0] }).portWait = .rxRead := by decide +kernel
theorem test_receive_starts : (after .receive ready).running = true := by decide +kernel
/-- V53: a stop before the first read. -/
theorem test_receive_stopped_before_read :
    let t := stepped { small with running := true, stopReq := true, rx := [1, 2, 3, 4] }
    t.running = false ∧ t.stopReq = false ∧ t.rx = [1, 2, 3, 4] ∧ t.events = [.status 0#4] := by decide +kernel
/-- V50: STOP of an unconfigured block. -/
theorem test_stop : (after .stop State.reset).stopReq = true ∧ (after .stop State.reset).status = 0#4 := by decide +kernel
/-- P5 line 11. -/
theorem test_reset :
    (after .reset { ready with faulted := true, faultCause := 4#4 }).configured = false ∧
    (after .reset { ready with faulted := true, faultCause := 4#4 }).faultCause = 0#4 := by decide +kernel
/-- The host's two questions: the command placed by `withFetchWord` is the one the next step runs. -/
theorem test_fetch_word :
    (stepped (State.reset.withFetchWord 8 0x0C)).stopReq = true ∧
    (stepped (State.reset.withFetchWord 8 0x02)).status = 6#4 ∧
    (stepped (State.reset.withFetchWord 8 0x0D)).statusValue = .opcode 0x0D#8 := by decide +kernel

/-! ### Witnesses: states and operands that meet the hypotheses of the statements

`<Name>` in the docstring is the statement. -/

/-- `ReservedOpcodeRefused`, at the four ends of the reserved ranges, in a faulted, unconfigured block, with and without the move
`run`. -/
theorem witness_reserved (w : Byte) (h : w = 0x0D#8 ∨ w = 0x0E#8 ∨ w = 0x10#8 ∨ w = 0xFF#8) :
    let s : State := { State.reset with faulted := true, commands := [⟨w, .none⟩] }
    let t : State := { s with moves := [.run, .stopLine] }
    (reservedWord w = true ∧ s.busy = false ∧ s.BlockTurn [] ∧ s.commands = [⟨w, .none⟩]) ∧
    (t.busy = false ∧ t.BlockTurn [.stopLine] ∧ t.commands = [⟨w, .none⟩]) := by
  refine ⟨⟨?_, rfl, .inl ⟨rfl, rfl⟩, rfl⟩, rfl, .inr rfl, rfl⟩
  rcases h with rfl | rfl | rfl | rfl <;> decide

/-- `StepRunsDecodedCommand`, with and without the move `run`. -/
theorem witness_step_runs :
    let s : State := { ready with commands := [⟨0x02#8, .symbol 15⟩] }
    let t : State := { s with moves := [.run, .stopLine] }
    (s.busy = false ∧ s.commands = [⟨0x02#8, .symbol 15⟩] ∧ decode 0x02#8 = .ok .mapfwd ∧ s.moves = []) ∧
    (t.busy = false ∧ t.commands = [⟨0x02#8, .symbol 15⟩] ∧ t.moves = [.run, .stopLine]) :=
  ⟨⟨rfl, rfl, rfl, rfl⟩, rfl, rfl, rfl⟩

/-- `CommandsTakenOnlyWhenIdle`: a busy block with a pending command, and an idle block without one, with and without `run`. -/
theorem witness_busy :
    let s : State := { small with running := true, stopReq := true, commands := [⟨0x00#8, .none⟩] }
    let r : State := { s with moves := [.run] }
    let i : State := { ready with moves := [.run] }
    (s.busy = true ∧ s.BlockTurn [] ∧ ∃ t, step s = .next t) ∧ (r.busy = true ∧ r.BlockTurn [] ∧ ∃ t, step r = .next t) ∧
    (ready.busy = false ∧ ready.commands = [] ∧ ready.BlockTurn []) ∧ (i.busy = false ∧ i.commands = [] ∧ i.BlockTurn []) :=
  ⟨⟨rfl, .inl ⟨rfl, rfl⟩, _, rfl⟩, ⟨rfl, .inr rfl, _, rfl⟩, ⟨rfl, rfl, .inl ⟨rfl, rfl⟩⟩, rfl, rfl, .inr rfl⟩

/-- `ResetCommandResetsEverything`. -/
theorem witness_reset_command : ready.portWait = .idle := rfl

/-- `ResetLineResetsEverything`: in the middle of SEND, and in the middle of nothing. -/
theorem witness_reset_line :
    let s : State := { ready with moves := [.resetLine], portWait := .txWrite [1, 2, 3] }
    let t : State := { ready with moves := [.resetLine] }
    (s.moves = [.resetLine] ∧ s.portWait = .txWrite [1, 2, 3]) ∧ (t.moves = [.resetLine] ∧ ∀ w, t.portWait ≠ .txWrite w) :=
  ⟨⟨rfl, rfl⟩, rfl, by simp [ready, State.reset]⟩

/-- `InitBuildsMap`. -/
theorem witness_init :
    fresh.faulted = false ∧ fresh.configured = false ∧ fresh.cfg.values = some valuesA ∧ valuesA.legal = true :=
  ⟨rfl, rfl, rfl, by decide +kernel⟩

/-- `InitRefusals`: one state for each way a configuration fails, at the edge of its range, and a configured block. -/
theorem witness_init_refusals :
    (fresh.faulted = false ∧ fresh.configured = false) ∧
    ({ fresh with cfg := CfgRegs.reset } : State).cfg.seed = none ∧
    1 < ({ fresh with cfg := { cfgA with waveform := 2 } } : State).cfg.waveform ∧
    (∃ x, ({ fresh with cfg := { cfgA with step := some 0 } } : State).cfg.step = some x ∧ x ≤ 0) ∧
    (∃ x, ({ fresh with cfg := { cfgA with n := some 1 } } : State).cfg.n = some x ∧ x < 2) ∧
    (∃ x, ({ fresh with cfg := { cfgA with bpt := some 3 } } : State).cfg.bpt = some x ∧ (x < 4 ∨ 8 < x)) ∧
    (∃ x, ({ fresh with cfg := { cfgA with bpt := some 9 } } : State).cfg.bpt = some x ∧ (x < 4 ∨ 8 < x)) ∧
    (∃ x, ({ fresh with cfg := { cfgA with reps := some 0 } } : State).cfg.reps = some x ∧ x < 1) ∧
    (ready.faulted = false ∧ ready.configured = true) :=
  ⟨⟨rfl, rfl⟩, rfl, by decide, ⟨0, rfl, le_rfl⟩, ⟨1, rfl, by decide⟩, ⟨3, rfl, by decide⟩, ⟨9, rfl, by decide⟩,
    ⟨0, rfl, by decide⟩, rfl, rfl⟩

/-- A block after a fatal cause. -/
def faultedState : State := { ready with faulted := true, faultCause := 4#4 }

/-- `StopSetsRequest`, `FaultedCommandsRefused`. -/
theorem witness_stop :
    ready.faulted = false ∧ faultedState.faulted = true ∧ Instr.stop ≠ .nop ∧ Instr.stop ≠ .reset ∧
    ({ ready with moves := [.stopLine] } : State).moves = [.stopLine] := ⟨rfl, rfl, by decide, by decide, rfl⟩

/-- `HostMovesChangeOnlyTheirTarget`: a write before and after INIT, and each input of a sample port. -/
theorem witness_host_moves :
    (({ ready with moves := [.writeCfg (.step 50)] } : State).moves = [.writeCfg (.step 50)] ∧ ready.configured = true) ∧
    (({ fresh with moves := [.writeCfg (.reps 1)] } : State).moves = [.writeCfg (.reps 1)] ∧ fresh.configured = false) ∧
    ({ ready with moves := [.supply [1]] } : State).moves = [.supply [1]] ∧
    ({ ready with moves := [.setPort .tx false] } : State).moves = [.setPort .tx false] ∧
    ({ ready with moves := [.setPort .rx true] } : State).moves = [.setPort .rx true] :=
  ⟨⟨rfl, rfl⟩, ⟨rfl, rfl⟩, rfl, rfl, rfl⟩

/-- Buffers that just suffice. -/
theorem txFits_of {p : Config.Params} {n : Nat} {syms : List Symbol} (h1 : p.txCap = some syms.length)
    (h2 : p.txSampleCap = some (n * syms.length)) : TxFits p n syms :=
  ⟨fun c h => by rw [h1] at h; cases h; exact le_rfl, fun c h => by rw [h2] at h; cases h; exact le_rfl⟩

/-- `ConfigurationAndMapImmutable`: a step that keeps them, the reset line, and a RESET command taken after the move `run`. -/
theorem witness_immutable :
    (ready.configured = true ∧ ∃ t, step ready = .next t) ∧
    (∃ t, step { ready with moves := [.resetLine] } = .next t) ∧
    ∃ t, step { ready with commands := [⟨0x0F#8, .none⟩], moves := [.run] } = .next t := ⟨⟨rfl, _, rfl⟩, ⟨_, rfl⟩, _, rfl⟩

/-- `UnconfiguredCommandsRefused`. -/
theorem witness_unconfigured :
    Instr.needsLaunch .mapfwd = true ∧ fresh.faulted = false ∧ fresh.configured = false := ⟨rfl, rfl, rfl⟩

/-- `BadOperandRefused`: a wrong type, a negative tone, the first symbol not below `S`, a chunk one sample short. -/
theorem witness_bad_operand :
    ((given (.symbol 16)).Ready launchA ∧ symbolSpace launchA.cfg.bpt ≤ 16) ∧
    ((given .none).Ready launchA ∧ Instr.wellFormed .encode .none = false) ∧
    ((given (.detection (.tone (-1) 0))).Ready launchA ∧ Instr.wellFormed .rxstep (.detection (.tone (-1) 0)) = false) ∧
    ((given (.chunk (List.replicate 479 0))).Ready launchA ∧ (List.replicate 479 (0 : Sample)).length ≠ launchA.cfg.n) :=
  ⟨⟨ready_given _, by decide⟩, ⟨ready_given _, rfl⟩, ⟨ready_given _, by decide +kernel⟩, ready_given _, by decide +kernel⟩

/-- `DeviceErrorIsFatal`, in the middle of a message, with buffers that just suffice: "H" is fourteen symbols of 480 samples under configuration A. -/
theorem witness_device_error :
    let s : State :=
      { given (.bytes [0x48#8]) with
        txOpens := false, params := { Config.referenceParams with txCap := some 14, txSampleCap := some 6720 } }
    let t : State := { ready with rxOpens := false, stopReq := true, work := decoding [true] ['H'] }
    (s.Ready launchA ∧ s.operand = .bytes [0x48#8] ∧ s.txOpens = false ∧
      TxFits s.params launchA.cfg.n (encodeMessage launchA.cfg.bpt launchA.cfg.reps [0x48#8])) ∧
    (t.Ready launchA ∧ t.rxOpens = false) :=
  ⟨⟨⟨rfl, launch_ready rfl rfl rfl⟩, rfl, rfl, txFits_of (by decide +kernel) (by decide +kernel)⟩,
    ⟨rfl, launch_ready rfl rfl rfl⟩, rfl⟩

/-- `TxOverflowRefused`, at the greatest capacities that are too small: "Hi" is sixteen symbols and 7680 samples under
configuration A. -/
theorem witness_tx_overflow :
    let s : State := { given (.bytes [0x48#8, 0x69#8]) with params := { Config.referenceParams with txCap := some 15 } }
    let t : State := { s with params := { Config.referenceParams with txSampleCap := some 7679 } }
    (s.Ready launchA ∧ s.operand = .bytes [0x48#8, 0x69#8] ∧ s.params.txCap = some 15 ∧
      15 < (encodeMessage launchA.cfg.bpt launchA.cfg.reps [0x48#8, 0x69#8]).length) ∧
    (t.Ready launchA ∧ t.operand = .bytes [0x48#8, 0x69#8] ∧ t.params.txSampleCap = some 7679 ∧
      7679 < launchA.cfg.n * (encodeMessage launchA.cfg.bpt launchA.cfg.reps [0x48#8, 0x69#8]).length) :=
  ⟨⟨⟨rfl, launch_ready rfl rfl rfl⟩, rfl, rfl, by decide +kernel⟩, ⟨rfl, launch_ready rfl rfl rfl⟩, rfl, rfl, by decide +kernel⟩

/-- `MapIsBijection`, and `ClassifyClosedForm` at both ends of the band. -/
theorem witness_map :
    (0 : Rat) < 100 ∧ (15 : Nat) < 2 ^ 4 ∧ (1000 : Rat) ≤ 1000 ∧ (2500 : Rat) ≤ 1000 + ((2 ^ 4 - 1 : Nat) : Rat) * 100 ∧
    candidateIndex 4 1000 100 1000 = some 0 ∧ candidateIndex 4 1000 100 2500 = some 15 := by decide +kernel

/-- `MapfwdReturnsEntry`, at the greatest symbol. -/
theorem witness_mapfwd :
    (given (.symbol 15)).Ready launchA ∧ (given (.symbol 15)).operand = .symbol 15 ∧ 15 < symbolSpace launchA.cfg.bpt :=
  ⟨ready_given _, rfl, by decide⟩

/-- `MaprevInvertsMap`, `ClassifyFindsNearest`, `RenderReturnsTone`: a map frequency and one that is none. -/
theorem witness_frequency :
    ((given (.frequency 1500)).Ready launchA ∧ launchA.Built ∧ (given (.frequency 1500)).operand = .frequency 1500 ∧
      (given (.frequency 1500)).fwd[10]? = some 1500) ∧
    ((given (.frequency 899)).Ready launchA ∧ (899 : Freq) ∉ (given (.frequency 899)).fwd) :=
  ⟨⟨ready_given _, built_A, rfl, rfl⟩, ready_given _, by decide +kernel⟩

/-- `ChunkLengthRoundsHalfToEven`, at a tie. -/
theorem witness_chunk_length :
    (0 : Rat) ≤ 5 / 96000 ∧ |48000 * (5 / 96000 : Rat) - (chunkLength (5 / 96000) : Rat)| = 1 / 2 := by decide +kernel

/-- `SymmetricWindowFacts`, `RenderTracksRealFormula`, `MagnitudeTracksRealTransform`, `DetectorCornerCases`, at the smallest
`N`; two different chunks that agree off the ends. -/
theorem witness_window :
    2 ≤ 2 ∧ 1 < 2 ∧ ([1, 0] : List Sample).length = 2 ∧
    ∀ i, 0 < i → i < 3 - 1 → ([1, 5, 2] : List Sample).getD i 0 = ([7, 5, 8] : List Sample).getD i 0 := by
  refine ⟨le_rfl, by decide, rfl, fun i h0 h1 => ?_⟩
  obtain rfl : i = 1 := by omega
  rfl

/-- `RenderedSamplesInRange`. -/
theorem witness_rendered : renderSample .symmetric 1 3 4000 1 ∈ render .symmetric 1 3 4000 := by
  simp [render]; exact ⟨1, by decide, rfl⟩

/-- `EncodeReturnsSymbols`, `SendHandsOverOneWaveform`: without a capacity, and with capacities that just suffice. -/
theorem witness_encode :
    let s : State := { given (.bytes [0x48#8, 0x69#8]) with params := { Config.referenceParams with txCap := some 16, txSampleCap := some 7680 } }
    (s.Ready launchA ∧ s.operand = .bytes [0x48#8, 0x69#8] ∧ s.txOpens = true ∧
      TxFits s.params launchA.cfg.n (encodeMessage launchA.cfg.bpt launchA.cfg.reps [0x48#8, 0x69#8])) ∧
    ((given (.bytes [])).Ready launchA ∧
      TxFits (given (.bytes [])).params launchA.cfg.n (encodeMessage launchA.cfg.bpt launchA.cfg.reps [])) :=
  ⟨⟨⟨rfl, launch_ready rfl rfl rfl⟩, rfl, rfl, txFits_of (by decide +kernel) (by decide +kernel)⟩, ready_given _,
    (fun _ h => nomatch h), fun _ h => nomatch h⟩

/-- `EncodedLengths`, `DataSymbolsCarryFrameBits`, at both ends of `BPT`. -/
theorem witness_bpt : (4 ≤ 4 ∧ 4 ≤ 8) ∧ (4 ≤ 8 ∧ 8 ≤ 8) := by decide

/-- `WaveformLayout`, at the last symbol and the last sample. -/
theorem witness_waveform : ([10, 5] : List Symbol)[1]? = some 5 ∧ 479 < launchA.cfg.n := by decide

/-- `TxTransferCompletesOnAcceptance`. -/
theorem witness_transfer :
    let s : State := { ready with portWait := .txWrite [0, 1] }
    (s.portWait = .txWrite [0, 1] ∧ s.BlockTurn []) ∧ ({ s with moves := [.run, .acceptTx] } : State).BlockTurn [.acceptTx] ∧
    ({ s with moves := [.acceptTx] } : State).moves = [.acceptTx] := ⟨⟨rfl, .inl ⟨rfl, rfl⟩⟩, .inr rfl, rfl⟩

/-- `DetectReturnsStrongestBin`. -/
theorem witness_detect :
    let s : State := { small with operand := .chunk [0, 3, 4, 0] }
    s.Ready launchSmall ∧ s.operand = .chunk [0, 3, 4, 0] ∧ ([0, 3, 4, 0] : List Sample).length = launchSmall.cfg.n :=
  ⟨⟨rfl, launch_small rfl rfl rfl⟩, rfl, rfl⟩

/-- `RxstepAppliesTransition`: without a capacity, and with a finite one that has room for exactly one more character. -/
theorem witness_rxstep :
    let s := given (.detection (.tone 1500 0))
    let t : State := { zero 2 with operand := .detection (.tone 0 1) }
    (s.Ready launchA ∧ s.operand = .detection (.tone 1500 0) ∧ Detection.wellFormed (.tone 1500 0) = true ∧
      rxStep launchA s.params.msgCap s.work (.tone 1500 0) = .done { Working.reset with syncbuf := [10] } [] .shifted) ∧
    (t.Ready launchZero ∧ t.operand = .detection (.tone 0 1) ∧ Detection.wellFormed (.tone 0 1) = true ∧
      rxStep launchZero t.params.msgCap t.work (.tone 0 1) = .done (decoding [] ['A', '@']) [.charOut '@'] (.data 1)) ∧
    (launchZero.cfg.bpt ≤ 8 ∧ t.work.bitbuf.length ≤ 7 ∧ t.work.msg.length < 2) :=
  ⟨⟨ready_given _, rfl, by decide +kernel, by decide +kernel⟩,
    ⟨⟨rfl, launch_zero (cap := 2) rfl rfl rfl⟩, rfl, by decide +kernel, by decide +kernel⟩, by decide, by decide, by decide⟩

/-- `SilenceAbortsDecoding`. -/
theorem witness_silence : (decoding [true] ['H']).phase = .decoding := rfl

/-- `SilentAndNoisyChunksIgnored`: V40's silence, and V35's unclassifiable 2700 Hz. -/
theorem witness_noise : Working.reset.phase = .listening ∧ ∀ g ∈ launchA.fwd, launchA.cfg.step < |2700 - g| := by decide +kernel

/-- `PreambleIsMatchedWhole`: the symbol that completes the preamble, and one that does not. -/
theorem witness_preamble :
    let w : Working := { Working.reset with syncbuf := [10] }
    (w.phase = .listening ∧ w.syncbuf.length ≤ preambleLength launchSmall.cfg.reps ∧ 1 ≤ launchSmall.cfg.reps ∧
      classify launchSmall.fwd launchSmall.cfg.step 1300 = some 5) ∧
    classify launchSmall.fwd launchSmall.cfg.step 1400 = some 6 ∧
    ([10, 5] : List Symbol) = (List.replicate launchSmall.cfg.reps [10, 5]).flatten ∧
    ([10, 6] : List Symbol) ≠ (List.replicate launchSmall.cfg.reps [10, 5]).flatten := by decide +kernel

/-- `PreambleExactness`: V30's preamble, and V32's with one wrong symbol. -/
theorem witness_preamble_exact :
    launchA.Built ∧ ([10, 5, 10, 5, 10, 5, 10, 5] : List Symbol).length = 2 * launchA.cfg.reps ∧
    (∀ x ∈ [10, 5, 10, 5, 10, 5, 10, 4], x < symbolSpace launchA.cfg.bpt) ∧
    ([10, 5, 10, 5, 10, 5, 10, 5] : List Symbol) = (List.replicate launchA.cfg.reps [10, 5]).flatten ∧
    ([10, 5, 10, 5, 10, 5, 10, 4] : List Symbol) ≠ (List.replicate launchA.cfg.reps [10, 5]).flatten :=
  ⟨built_A, rfl, by decide, rfl, by decide⟩

/-- `SymbolWhileDecoding`: too few bits; a start marker; a byte above `0x7F`; an end marker; a character at `0x7F`. -/
theorem witness_symbol :
    (4 ≤ launchA.cfg.bpt ∧ launchA.cfg.bpt ≤ 8 ∧ (decoding [false, true, true, true] []).bitbuf.length ≤ 7) ∧
    (classify launchA.fwd launchA.cfg.step 1800 = some 15 ∧ ([] ++ bitsOf launchA.cfg.bpt 15).length < 8) ∧
    (classify launchA.fwd launchA.cfg.step 2500 = some 2 ∧
      ([false, false, false, false] ++ bitsOf launchA.cfg.bpt 2).take 8 = bitsOf 8 (0x02#8 : Byte).toNat) ∧
    (classify launchA.fwd launchA.cfg.step 1000 = some 0 ∧
      ([true, false, false, false] ++ bitsOf launchA.cfg.bpt 0).take 8 = bitsOf 8 (0x80#8 : Byte).toNat) ∧
    (classify launchA.fwd launchA.cfg.step 1700 = some 3 ∧
      ([false, false, false, false] ++ bitsOf launchA.cfg.bpt 3).take 8 = bitsOf 8 (0x03#8 : Byte).toNat) ∧
    ([false, true, true, true] ++ bitsOf launchA.cfg.bpt 15).take 8 = bitsOf 8 (0x7F#8 : Byte).toNat := by decide +kernel

/-- `ReceiverStepBounds`, `WorkingStateInvariantKept`: the step of V30 that completes the character `H`, and one that completes a
message. -/
theorem witness_receiver_step :
    let w := decoding [false, true, false, false] []
    launchA.cfg.bpt ≤ 8 ∧ launchA.cfg.legal = true ∧ launchA.fwd.length = symbolSpace launchA.cfg.bpt ∧
    w.Inv launchA.cfg.reps ∧ w.Typed launchA.cfg.bpt ∧
    rxStep launchA none w (.tone 1200 0) = .done (decoding [] ['H']) [.charOut 'H'] (.data 1) ∧
    rxStep launchA none (decoding [false, false, false, false] ['H']) (.tone 1700 0) =
      .done Working.reset [.msgDone ['H']] .completed := by
  refine ⟨by decide, by decide +kernel, rfl, ?_, ?_, by decide +kernel, by decide +kernel⟩
  · constructor <;> simp [decoding]
  · constructor <;> simp [decoding]

/-- `MsgOverflowIsFatal`, with the smallest message that is full: the byte, RXSTEP, RXCHUNK, an iteration of RECEIVE from a
boundary and from its read with a stop request raised, and a resumed RXCHUNK after the move `run`. -/
theorem witness_msg_overflow :
    let s := zero 1
    let d : State := { s with operand := .detection (.tone 0 1) }
    let r : State := { s with running := true }
    let v : State := { r with portWait := .rxRead, stopReq := true }
    let q : State := { s with portWait := .rxRead, moves := [.run] }
    (s.work.phase = .decoding ∧ classify launchZero.fwd launchZero.cfg.step 0 = some 0 ∧
      (s.work.bitbuf ++ bitsOf launchZero.cfg.bpt 0).take 8 = bitsOf 8 (0x40#8 : Byte).toNat ∧
      (0x40#8 : Byte) ≠ 0x02#8 ∧ (0x40#8 : Byte) ≠ 0x03#8 ∧ (0x40#8 : Byte).toNat ≤ 0x7F ∧ 1 ≤ s.work.msg.length) ∧
    (d.Ready launchZero ∧ d.operand = .detection (.tone 0 1) ∧ Detection.wellFormed (.tone 0 1) = true ∧
      rxStep launchZero d.params.msgCap d.work (.tone 0 1) = .msgOverflow) ∧
    (s.Ready launchZero ∧ s.running = false ∧ s.rxOpens = true ∧ launchZero.cfg.n ≤ s.rx.length ∧
      rxStep launchZero s.params.msgCap s.work
        (detect s.params.hannForm launchZero.cfg.n launchZero.cfg.thresh (s.rx.take launchZero.cfg.n)) = .msgOverflow) ∧
    (r.launch = some launchZero ∧ r.BlockTurn [] ∧ r.running = true ∧ r.portWait = .idle ∧ r.stopReq = false) ∧
    (v.launch = some launchZero ∧ v.BlockTurn [] ∧ v.portWait = .rxRead ∧ v.running = true ∧ v.stopReq = true) ∧
    (q.launch = some launchZero ∧ q.BlockTurn [] ∧ q.portWait = .rxRead) :=
  ⟨⟨rfl, by decide +kernel, by decide +kernel, by decide, by decide, by decide, by decide⟩,
    ⟨⟨rfl, launch_zero (cap := 1) rfl rfl rfl⟩, rfl, by decide +kernel, by decide +kernel⟩,
    ⟨⟨rfl, launch_zero (cap := 1) rfl rfl rfl⟩, rfl, rfl, by decide, step_zero.2⟩,
    ⟨launch_zero (cap := 1) rfl rfl rfl, .inl ⟨rfl, rfl⟩, rfl, rfl, rfl⟩,
    ⟨launch_zero (cap := 1) rfl rfl rfl, .inl ⟨rfl, rfl⟩, rfl, rfl, rfl⟩, launch_zero (cap := 1) rfl rfl rfl, .inr rfl, rfl⟩

/-- `CleanTransmissionDecodes`: a message without `0x03`, and V34's with one. -/
theorem witness_clean :
    launchA.Built ∧ (0x03#8 : Byte) ∉ [0x48#8, 0x69#8] ∧ (0x03#8 : Byte) ∈ [0x41#8, 0x03#8, 0x42#8] ∧
    decodedText [0x41#8, 0x03#8, 0x42#8] = ['A'] := ⟨built_A, by decide, by decide, by decide +kernel⟩

/-- `RxchunkProcessesOneChunk`, with a finite capacity that has room: the samples are there, or a wait is over. -/
theorem witness_rxchunk :
    let s := zero 2
    let q : State := { s with portWait := .rxRead, moves := [.run] }
    (s.running = false ∧ launchZero.cfg.n ≤ s.rx.length ∧
      rxStep launchZero s.params.msgCap s.work
        (detect s.params.hannForm launchZero.cfg.n launchZero.cfg.thresh (s.rx.take launchZero.cfg.n)) =
          .done (decoding [] ['A', '@']) [.charOut '@'] (.data 1)) ∧
    (s.Ready launchZero ∧ s.rxOpens = true) ∧
    (q.running = false ∧ q.launch = some launchZero ∧ q.portWait = .rxRead ∧ q.BlockTurn []) :=
  ⟨⟨rfl, by decide, step_zero.1⟩, ⟨⟨rfl, launch_zero (cap := 2) rfl rfl rfl⟩, rfl⟩, rfl, launch_zero (cap := 2) rfl rfl rfl,
    rfl, .inr rfl⟩

/-- `RxReadBlocksWithoutSamples`, one sample short: RXCHUNK, an iteration of RECEIVE, and a wait with and without `run`. -/
theorem witness_rxread :
    let s : State := { small with rx := [0, 3, 4] }
    let r : State := { s with running := true }
    let t : State := { s with portWait := .rxRead }
    (s.Ready launchSmall ∧ s.rxOpens = true ∧ s.rx.length < launchSmall.cfg.n) ∧
    (r.launch = some launchSmall ∧ r.running = true ∧ r.portWait = .idle ∧ r.stopReq = false ∧ r.BlockTurn []) ∧
    (t.launch = some launchSmall ∧ t.portWait = .rxRead ∧ t.rx.length < launchSmall.cfg.n ∧ t.BlockTurn []) ∧
    ({ t with moves := [.run, .supply [0]] } : State).BlockTurn [.supply [0]] :=
  ⟨⟨⟨rfl, launch_small rfl rfl rfl⟩, rfl, by decide⟩, ⟨launch_small rfl rfl rfl, rfl, rfl, rfl, .inl ⟨rfl, rfl⟩⟩,
    ⟨launch_small rfl rfl rfl, rfl, by decide, .inl ⟨rfl, rfl⟩⟩, .inr rfl⟩

/-- `ReceiveStartsLoop`. -/
theorem witness_receive : ready.Ready launchA ∧ ready.rxOpens = true := ⟨⟨rfl, launch_ready rfl rfl rfl⟩, rfl⟩

/-- `ReceiveStopsAtBoundary`, with and without the move `run`. -/
theorem witness_boundary :
    let s : State := { small with running := true, stopReq := true }
    (s.launch = some launchSmall ∧ s.running = true ∧ s.portWait = .idle ∧ s.stopReq = true ∧ s.BlockTurn []) ∧
    ({ s with moves := [.run] } : State).BlockTurn [] :=
  ⟨⟨launch_small rfl rfl rfl, rfl, rfl, rfl, .inl ⟨rfl, rfl⟩⟩, .inr rfl⟩

/-- `ReceiveIterationIsAtomic`, with a finite capacity that has room: inside the read with a stop request raised, and at a
boundary without one after the move `run`. -/
theorem witness_iteration :
    let s : State := { zero 2 with running := true, stopReq := true, portWait := .rxRead }
    let t : State := { zero 2 with running := true, moves := [.run] }
    (s.launch = some launchZero ∧ s.running = true ∧ s.BlockTurn [] ∧ s.portWait = .rxRead ∧
      launchZero.cfg.n ≤ s.rx.length ∧
      rxStep launchZero s.params.msgCap s.work
        (detect s.params.hannForm launchZero.cfg.n launchZero.cfg.thresh (s.rx.take launchZero.cfg.n)) =
          .done (decoding [] ['A', '@']) [.charOut '@'] (.data 1)) ∧
    (t.launch = some launchZero ∧ t.BlockTurn [] ∧ t.portWait = .idle ∧ t.stopReq = false) :=
  ⟨⟨launch_zero (cap := 2) rfl rfl rfl, rfl, .inl ⟨rfl, rfl⟩, rfl, by decide, step_zero.1⟩,
    launch_zero (cap := 2) rfl rfl rfl, .inr rfl, rfl, rfl⟩

/-- `StepKeepsInvariant`, `OutputsAreNeverRecalled`: the configured block of configuration A in the middle of a message, with the
next chunk's samples there. -/
theorem witness_invariant :
    let s : State := { ready with running := true, work := decoding [false, true] ['H'], tx := [[0]] }
    s.Inv ∧ ∃ t, step s = .next t := by
  intro s
  have hl : s.launch = some launchA := launch_ready rfl rfl rfl
  refine ⟨⟨fun _ => ⟨_, hl, built_A⟩, (fun h => nomatch h), ?_, ⟨fun _ => rfl, (fun h => nomatch h)⟩, (fun h => nomatch h),
    (fun _ h => nomatch h), ?_⟩, _, rfl⟩
  · rintro l h
    rw [hl] at h; cases h
    exact ⟨by constructor <;> simp [s, decoding], by constructor <;> simp [s, decoding]⟩
  · intro w h
    have : w = [0] := by simpa [s] using h
    subst this
    intro y hy
    have : y = 0 := by simpa using hy
    subst this; norm_num

end Sys2Proof.Tests
end

section
/-! SUPPORT. 20_memory.md R69: which operations keep the configuration registers, the map and `CONFIGURED`, one lemma per shared
operation of the model, and the statement about every step. -/

namespace Sys2Proof.Machine

/-- `t` has the configuration registers, the map table and `CONFIGURED` of `s` (20_memory.md R69). -/
def State.ConfigKept (s t : State) : Prop := t.cfg = s.cfg ∧ t.fwd = s.fwd ∧ t.configured = s.configured

/-! ### The operations that the commands share -/

theorem State.configKept_refuse (s : State) (c : Cause) : s.ConfigKept (s.refuse c) := ⟨rfl, rfl, rfl⟩

theorem State.configKept_fatal (s : State) (c : Cause) : s.ConfigKept (s.fatal c) := ⟨rfl, rfl, rfl⟩

theorem State.configKept_fatalReceive (s : State) (c : Cause) : s.ConfigKept (s.fatalReceive c) := ⟨rfl, rfl, rfl⟩

theorem State.configKept_answer (s : State) (r : ResultVal) : s.ConfigKept (s.answer r) := ⟨rfl, rfl, rfl⟩

/-- Acceptance keeps the configuration when the accepted command does. -/
theorem State.configKept_accept {s : State} {k : Launch → State} (hk : ∀ l, s.ConfigKept (k l)) :
    s.ConfigKept (s.accept k) := by
  obtain ⟨-, h⟩ | ⟨-, -, h⟩ | ⟨l, -, h⟩ := s.accept_cases k
  · rw [h]; exact s.configKept_refuse _
  · rw [h]; exact s.configKept_refuse _
  · rw [h]; exact hk l

/-- The operand check keeps the configuration when the command on a good operand does. -/
theorem State.configKept_withOperand {α : Type} {s : State} {o : Option α} {k : α → State}
    (hk : ∀ a, s.ConfigKept (k a)) : s.ConfigKept (s.withOperand o k) := by
  obtain h | ⟨a, -, h⟩ := s.withOperand_cases o k
  · rw [h]; exact s.configKept_refuse _
  · rw [h]; exact hk a

/-- The two checks in their order, as the commands with an operand make them (60_exceptions.md R269). -/
theorem State.configKept_accept_withOperand {α : Type} {s : State} {o : Launch → Option α} {k : Launch → α → State}
    (hk : ∀ l a, s.ConfigKept (k l a)) : s.ConfigKept (s.accept fun l => s.withOperand (o l) (k l)) :=
  configKept_accept fun l => configKept_withOperand (hk l)

theorem State.configKept_txWrite (s : State) (wave : List Sample) : s.ConfigKept (s.txWrite wave) := by
  obtain ⟨-, h⟩ | ⟨-, h⟩ := s.txWrite_cases wave
  · rw [h]; exact ⟨rfl, rfl, rfl⟩
  · rw [h]; exact s.configKept_fatal _

theorem State.configKept_acceptTx (s : State) : s.ConfigKept s.acceptTx := by
  unfold State.acceptTx
  split <;> exact ⟨rfl, rfl, rfl⟩

/-! ### The receiver -/

theorem State.configKept_finishRead (s : State) (l : Launch) : s.ConfigKept (s.finishRead l) := by
  obtain ⟨w, evs, tag, -, ⟨-, h⟩ | ⟨-, h⟩⟩ | ⟨-, ⟨-, h⟩ | ⟨-, h⟩⟩ := s.finishRead_cases l <;>
    (rw [h]; exact ⟨rfl, rfl, rfl⟩)

theorem State.configKept_enterRead (s : State) (l : Launch) : s.ConfigKept (s.enterRead l) := by
  unfold State.enterRead State.continueRead
  split
  · exact State.configKept_finishRead { s with portWait := .rxRead } l
  · exact ⟨rfl, rfl, rfl⟩

/-- What a busy block does by itself keeps the configuration. -/
theorem State.configKept_advance (s : State) : s.ConfigKept s.advance := by
  obtain h | ⟨l, -, ⟨-, -, h⟩ | ⟨-, -, ⟨-, h⟩ | ⟨-, -, h⟩ | ⟨-, -, h⟩⟩⟩ := s.advance_cases
  · rw [h]; exact ⟨rfl, rfl, rfl⟩
  · rw [h]; exact s.configKept_finishRead l
  · rw [h]; exact ⟨rfl, rfl, rfl⟩
  · rw [h]; exact ⟨rfl, rfl, rfl⟩
  · rw [h]; exact State.configKept_finishRead { s with portWait := .rxRead } l

/-! ### The host's moves, the commands, and the step -/

/-- A host write to a configuration register of a configured block is ignored (70_reset_and_hazards.md R300), and of the other
moves only the reset line writes the configuration. -/
theorem State.configKept_hostMove {s : State} {m : HostMove} (hs : s.configured = true) (hm : m ≠ .resetLine) :
    s.ConfigKept (s.hostMove m) := by
  cases m with
  | writeCfg w =>
    have ignored : s.hostMove (.writeCfg w) = s := if_pos hs
    rw [ignored]; exact ⟨rfl, rfl, rfl⟩
  | acceptTx => exact s.configKept_acceptTx
  | setPort p opens => cases p <;> exact ⟨rfl, rfl, rfl⟩
  | resetLine => exact absurd rfl hm
  | run | supply c | stopLine => exact ⟨rfl, rfl, rfl⟩

/-- `INIT` on a configured block is refused, as faulted or as already configured (47_system_ops.md R321). -/
theorem execInit_of_configured {s : State} (hs : s.configured = true) :
    ∃ c, execInit s = .next (s.refuse c) := by
  unfold execInit
  rw [if_pos hs]
  split
  · exact ⟨_, rfl⟩
  · exact ⟨_, rfl⟩

/-- A command given to a configured block keeps the configuration, unless it is `RESET`. -/
theorem exec_configKept {s t : State} {i : Instr} (hs : s.configured = true) (hi : i ≠ .reset)
    (h : exec i s = .next t) : s.ConfigKept t := by
  cases i with
  | reset => exact absurd rfl hi
  | init =>
    obtain ⟨c, refused⟩ := execInit_of_configured hs
    cases refused.symm.trans h
    exact s.configKept_refuse _
  | nop => cases h; exact ⟨rfl, rfl, rfl⟩
  | stop =>
    cases h
    split <;> exact ⟨rfl, rfl, rfl⟩
  | mapfwd | maprev | classify | render | detect =>
    cases h
    exact State.configKept_accept_withOperand fun _ _ => s.configKept_answer _
  | encode =>
    cases h
    refine State.configKept_accept_withOperand fun l m => ?_
    dsimp only
    split
    · exact s.configKept_refuse _
    · exact s.configKept_answer _
  | send =>
    cases h
    refine State.configKept_accept_withOperand fun l m => ?_
    dsimp only
    split
    · exact s.configKept_refuse _
    · exact s.configKept_txWrite _
  | rxstep =>
    cases h
    refine State.configKept_accept_withOperand fun l d => ?_
    split
    · exact ⟨rfl, rfl, rfl⟩
    · exact s.configKept_fatal _
  | rxchunk =>
    cases h
    refine State.configKept_accept fun l => ?_
    split
    · exact s.configKept_enterRead l
    · exact s.configKept_fatal _
  | receive =>
    cases h
    refine State.configKept_accept fun l => ?_
    split
    · exact ⟨rfl, rfl, rfl⟩
    · exact s.configKept_fatalReceive _

/-- Settles O16: of what a step can be (`step_cases`), only the reset line and the command RESET do not keep the configuration. -/
theorem configurationAndMapImmutable : Obligations.ConfigurationAndMapImmutable := by
  intro s s' hs h
  have of_kept (hk : s.ConfigKept s') : s'.cfg = s.cfg ∧ s'.fwd = s.fwd ∧ s'.configured = true := by
    obtain ⟨hcfg, hfwd, hconf⟩ := hk
    exact ⟨hcfg, hfwd, hconf.trans hs⟩
  obtain ⟨m, ms, hm, -, rfl⟩ |
    ⟨ms, hturn, ⟨-, rfl⟩ | ⟨-, -, rfl⟩ | ⟨hidle, c, rest, i, hc, hd, hx⟩ | ⟨-, c, rest, w, -, -, rfl⟩⟩ := step_cases h
  · by_cases hreset : m = .resetLine
    · exact .inr (.inl ⟨ms, hreset ▸ hm⟩)
    · exact .inl (of_kept (State.configKept_hostMove (s := { s with moves := ms }) hs hreset))
  · exact .inl (of_kept (State.configKept_advance { s with moves := ms }))
  · exact .inl (of_kept ⟨rfl, rfl, rfl⟩)
  · by_cases hreset : i = .reset
    · exact .inr (.inr ⟨hidle, ⟨ms, hturn⟩, c, rest, hc, hreset ▸ hd⟩)
    · exact .inl (of_kept (exec_configKept (s := State.present { s with moves := ms } c rest) hs hreset hx))
  · exact .inl (of_kept ⟨rfl, rfl, rfl⟩)

end Sys2Proof.Machine
end

section
/-! SUPPORT. 30_encoding.md R86 to R89: a command word is the word of a command or reserved, and never both. -/

namespace Sys2Proof.Machine

/-- No command has a reserved word (30_encoding.md R88). -/
@[simp] theorem reservedWord_encode (i : Instr) : reservedWord (encode i) = false := by
  cases i <;> rfl

/-- Every word that is not reserved decodes to a command. -/
theorem exists_decode_eq_ok {w : Byte} (h : reservedWord w = false) : ∃ i, decode w = .ok i := by
  cases hd : decode w with
  | ok i => exact ⟨i, rfl⟩
  | error e =>
    have rejected_is_reserved := decode_all w
    simp [hd, h] at rejected_is_reserved

/-- Settles O3, by cases on whether the word is reserved. -/
theorem everyWordIsCommandOrReserved : Obligations.EveryWordIsCommandOrReserved := by
  intro w
  cases h : reservedWord w with
  | false =>
    obtain ⟨i, hi⟩ := exists_decode_eq_ok h
    exact .inl ⟨⟨i, decode_eq_ok.1 hi, hi⟩, rfl⟩
  | true =>
    refine .inr ⟨rfl, decode_reserved h, ?_⟩
    rintro i rfl
    simp at h

end Sys2Proof.Machine
end

section
/-! SUPPORT. 30_encoding.md R70 to R76: the bits of the data symbols are the bits of the frame and the padding. -/

namespace Sys2Proof.Machine

/-- The frame's bits written out byte by byte, each byte's most significant bit first (30_encoding.md R72). -/
theorem frameBits_eq_flatMap_bits (m : List Byte) :
    frameBits m = ([0x02#8] ++ m ++ [0x03#8]).flatMap fun b =>
      [b.getLsbD 7, b.getLsbD 6, b.getLsbD 5, b.getLsbD 4, b.getLsbD 3, b.getLsbD 2, b.getLsbD 1, b.getLsbD 0] :=
  List.flatMap_congr fun b _ => bitsOf_eight b

@[simp] theorem paddedBits_length (bpt : Nat) (m : List Byte) :
    (paddedBits bpt m).length = 8 * (m.length + 2) + padLength bpt (8 * (m.length + 2)) := by
  simp [paddedBits]

/-- Written back as bits, the data symbols are the padded frame (30_encoding.md R74, R76). -/
theorem flatMap_dataSymbols {bpt : Nat} (h : 0 < bpt) (m : List Byte) :
    (dataSymbols bpt m).flatMap (bitsOf bpt) = paddedBits bpt m := by
  apply flatMap_sliceSymbols h
  rw [paddedBits_length]
  exact (padLength_spec h _).2

/-- The data symbols fill the padded frame exactly. -/
theorem dataSymbols_length_mul {bpt : Nat} (h : 0 < bpt) (m : List Byte) :
    (dataSymbols bpt m).length * bpt = 8 * (m.length + 2) + padLength bpt (8 * (m.length + 2)) := by
  rw [dataSymbols, sliceSymbols_length, paddedBits_length]
  exact Nat.div_mul_cancel (padLength_spec h _).2

/-- The data symbols before the last one end before the frame bits do: the padding is shorter than one symbol. -/
theorem dataSymbols_pred_length_mul_lt {bpt : Nat} (h : 0 < bpt) (m : List Byte) :
    ((dataSymbols bpt m).length - 1) * bpt < 8 * (m.length + 2) := by
  have filled := dataSymbols_length_mul h m
  have short_pad := (padLength_spec h (8 * (m.length + 2))).1
  rw [Nat.sub_mul]
  omega

/-- Settles O36: slicing the padded frame into symbols loses no bit, and the padding is shorter than one symbol. -/
theorem dataSymbolsCarryFrameBits : Obligations.DataSymbolsCarryFrameBits := by
  intro bpt m h4 _
  have hpos : 0 < bpt := by omega
  obtain ⟨short_pad, -⟩ := padLength_spec hpos (frameBits m).length
  refine ⟨⟨padLength bpt (frameBits m).length, short_pad, ?_⟩,
    fun _ => mem_sliceSymbols_lt, dataSymbols_pred_length_mul_lt hpos m⟩
  rw [← frameBits_eq_flatMap_bits]
  exact flatMap_dataSymbols hpos m

end Sys2Proof.Machine
end

section
/-! SUPPORT. 40_frequency_map.md R114: the built map is a permutation of the candidates. -/

namespace Sys2Proof.Machine

theorem buildMap_perm (seed : Word32) (bpt : Nat) (base step : Freq) :
    (buildMap seed bpt base step).Perm (candidates bpt base step) :=
  shuffle_perm _ _ _ (by simpa using symbolSpace_pos bpt)

theorem buildMap_nodup (seed : Word32) (bpt : Nat) (base : Freq) {step : Freq} (h : 0 < step) :
    (buildMap seed bpt base step).Nodup :=
  (buildMap_perm seed bpt base step).nodup_iff.2 (candidates_nodup bpt h)

theorem mem_buildMap {seed : Word32} {bpt : Nat} {base step g : Freq} :
    g ∈ buildMap seed bpt base step ↔ ∃ i, i < symbolSpace bpt ∧ g = base + (i : Rat) * step :=
  (buildMap_perm seed bpt base step).mem_iff.trans mem_candidates

theorem buildMap_ne_nil (seed : Word32) (bpt : Nat) (base step : Freq) : buildMap seed bpt base step ≠ [] := by
  simpa [← List.length_pos_iff] using symbolSpace_pos bpt

/-- `REV` inverts a table without repeats (40_frequency_map.md R114). -/
theorem rev_getD {fwd : List Freq} (h : fwd.Nodup) {s : Symbol} (hs : s < fwd.length) (d : Freq) :
    rev fwd (fwd.getD s d) = some s :=
  (rev_eq_some h).2 (by simp [hs])

/-- Settles O22: the shuffle only exchanges entries of the candidates, which are distinct. -/
theorem mapIsBijection : Obligations.MapIsBijection := by
  intro seed bpt base step hstep
  have distinct := buildMap_nodup seed bpt base hstep
  have length_eq : (buildMap seed bpt base step).length = 2 ^ bpt := buildMap_length ..
  exact ⟨buildMap_perm .., length_eq, distinct, fun s hs => rev_getD distinct (length_eq ▸ hs) 0⟩

end Sys2Proof.Machine
end

section
/-! SUPPORT. 40_frequency_map.md R109 to R113: CLASSIFY finds the nearest map frequency, and the closed form finds the same
one. -/

namespace Sys2Proof.Machine

/-! ### The search -/

theorem Launch.Built.step_pos {l : Launch} (h : l.Built) : 0 < l.cfg.step := by
  obtain ⟨-, positive, -⟩ := CfgValues.legal_iff.1 h.1
  exact positive

theorem Launch.Built.fwd_nodup {l : Launch} (h : l.Built) : l.fwd.Nodup := h.2 ▸ buildMap_nodup _ _ _ h.step_pos

theorem Launch.Built.fwd_ne_nil {l : Launch} (h : l.Built) : l.fwd ≠ [] := by
  rw [h.2]
  exact buildMap_ne_nil _ _ _ _

/-- No other map frequency is nearer than the one `Nearest` answers. -/
theorem IsNearest.abs_sub_le {f g h : Freq} {fwd : List Freq} (hn : IsNearest f g fwd) (hh : h ∈ fwd) :
    |f - g| ≤ |f - h| :=
  (hn h hh).elim le_of_lt fun tie => tie.1.le

/-- A map frequency within `STEP` that beats all others classifies to its own symbol (40_frequency_map.md R112). -/
theorem classify_of_isNearest {fwd : List Freq} {step f g : Freq} (hm : g ∈ fwd) (hn : IsNearest f g fwd)
    (near : |f - g| ≤ step) : classify fwd step f = rev fwd g := by
  simp [classify, nearest_eq_of hm hn, not_lt.2 near]

/-- When every map frequency is farther than `STEP`, the frequency is `Unclassifiable` (40_frequency_map.md R110). -/
theorem classify_eq_none_of_far {fwd : List Freq} {step f : Freq} (far : ∀ h ∈ fwd, step < |f - h|) :
    classify fwd step f = none := by
  rcases classify_cases fwd step f with ⟨g, hg, near, -⟩ | ⟨unclassifiable, -⟩
  · exact absurd near (far g (nearest_eq_some hg).1).not_ge
  · exact unclassifiable

/-- What the classification answers on a table without repeats: the symbol of the map frequency that beats all others, or
`Unclassifiable` when all are farther than `STEP` (40_frequency_map.md R109 to R112). -/
theorem classify_spec {fwd : List Freq} (distinct : fwd.Nodup) (nonempty : fwd ≠ []) (step f : Freq) :
    (∃ x g, classify fwd step f = some x ∧ fwd[x]? = some g ∧ |f - g| ≤ step ∧ IsNearest f g fwd) ∨
    (classify fwd step f = none ∧ ∀ h ∈ fwd, step < |f - h|) := by
  obtain ⟨g, hg⟩ := nearest_ne_none nonempty f
  obtain ⟨mem, beats⟩ := nearest_eq_some hg
  obtain ⟨x, hx⟩ := List.mem_iff_getElem?.1 mem
  rcases le_or_gt |f - g| step with near | far
  · exact .inl ⟨x, g, (classify_of_isNearest mem beats near).trans ((rev_eq_some distinct).2 hx), hx, near, beats⟩
  · have all_far : ∀ h ∈ fwd, step < |f - h| := fun h hh => far.trans_le (beats.abs_sub_le hh)
    exact .inr ⟨classify_eq_none_of_far all_far, all_far⟩

/-- CLASSIFY on a block that is ready, given a frequency: it answers and completes (40_frequency_map.md R112). -/
theorem exec_classify_of_ready {s : State} {l : Launch} {f : Freq} (h : s.Ready l) (hf : s.operand = .frequency f) :
    exec .classify s = .next (s.answer (classifyResult l f)) := by
  have dispatch : exec .classify s = execClassify s := rfl
  rw [dispatch, execClassify, State.accept_of_ready h, hf, frequencyOperand, State.withOperand_some]

/-- Settles O26: CLASSIFY answers what the classification finds in the table of the launch. -/
theorem classifyFindsNearest : Obligations.ClassifyFindsNearest := by
  intro s l f hs hb hf
  refine ⟨classifyResult l f, exec_classify_of_ready hs hf, ?_⟩
  rw [← hs.fwd_eq]
  rcases classify_spec hb.fwd_nodup hb.fwd_ne_nil l.cfg.step f with
    ⟨x, g, found, entry, near, beats⟩ | ⟨none_found, far⟩
  · exact .inl ⟨x, g, by simp [classifyResult, found], entry, near, beats⟩
  · exact .inr ⟨by simp [classifyResult, none_found], far⟩

/-! ### The closed form -/

/-- `hi`, the greatest candidate (40_frequency_map.md R113). -/
def bandTop (bpt : Nat) (base step : Freq) : Freq := base + ((symbolSpace bpt - 1 : Nat) : Rat) * step

theorem bandTop_eq (bpt : Nat) (base step : Freq) :
    bandTop bpt base step = base + ((symbolSpace bpt - 1 : Nat) : Rat) * step := rfl

theorem le_bandTop {bpt : Nat} {base step : Freq} (hstep : 0 < step) {j : Nat} (hj : j < symbolSpace bpt) :
    base + (j : Rat) * step ≤ bandTop bpt base step := by
  rw [bandTop_eq]
  gcongr
  omega

/-- At or below the midpoint of two frequencies the lower one is nearest, the midpoint included
(40_frequency_map.md R111). -/
theorem beats_of_le_midpoint {f g h : Freq} (hgh : g ≤ h) (below : 2 * f ≤ g + h) :
    |f - g| < |f - h| ∨ (|f - g| = |f - h| ∧ g ≤ h) := by
  have no_farther : |f - g| ≤ |f - h| := sq_le_sq.1 (by nlinarith [mul_nonneg (sub_nonneg.2 hgh) (sub_nonneg.2 below)])
  exact no_farther.lt_or_eq.imp_right fun tie => ⟨tie, hgh⟩

/-- Above the midpoint of two frequencies the higher one is nearest. -/
theorem abs_sub_lt_of_midpoint_lt {f g h : Freq} (hhg : h < g) (above : h + g < 2 * f) : |f - g| < |f - h| :=
  sq_lt_sq.1 (by nlinarith [mul_pos (sub_pos.2 hhg) (sub_pos.2 above)])

/-- `f` lies in the cell of candidate `i`: above the midpoint to the candidate before, where there is one, and not above the
midpoint to the candidate after, where there is one (40_frequency_map.md R109, R111). -/
structure InCell (bpt : Nat) (base step f : Freq) (i : Nat) : Prop where
  index_lt : i < symbolSpace bpt
  above : 0 < i → base + ((i : Rat) - 1 / 2) * step < f
  below : i + 1 < symbolSpace bpt → f ≤ base + ((i : Rat) + 1 / 2) * step

/-- The candidate of the cell beats every candidate. -/
theorem InCell.isNearest {bpt : Nat} {base step f : Freq} {i : Nat} (h : InCell bpt base step f i) (hstep : 0 < step)
    (seed : Word32) : IsNearest f (base + (i : Rat) * step) (buildMap seed bpt base step) := by
  intro g hg
  obtain ⟨j, hj, rfl⟩ := mem_buildMap.1 hg
  rcases lt_trichotomy j i with before | rfl | after
  · have spacing : ((j : Rat) + 1) * step ≤ i * step := by gcongr; exact_mod_cast before
    have := h.above (by omega)
    exact .inl (abs_sub_lt_of_midpoint_lt (by linarith) (by linarith))
  · exact .inr ⟨rfl, le_rfl⟩
  · have spacing : ((i : Rat) + 1) * step ≤ j * step := by gcongr; exact_mod_cast after
    have := h.below (by omega)
    exact beats_of_le_midpoint (by linarith) (by linarith)

/-- Within `r` of the band, `r` at least half a step, the cell's candidate is at most `r` away. -/
theorem InCell.abs_sub_le {bpt : Nat} {base step f r : Freq} {i : Nat} (h : InCell bpt base step f i) (hr : step / 2 ≤ r)
    (low : base - r ≤ f) (high : f ≤ bandTop bpt base step + r) :
    |f - (base + (i : Rat) * step)| ≤ r := by
  rw [abs_sub_le_iff]
  constructor
  · rcases (Nat.succ_le_iff.2 h.index_lt).lt_or_eq with inner | last
    · linarith [h.below inner]
    · rw [bandTop_eq, ← last, Nat.succ_sub_one] at high
      linarith
  · rcases i.eq_zero_or_pos with rfl | inner
    · rw [Nat.cast_zero]
      linarith
    · linarith [h.above inner]

/-- An index within half of the quotient `(f - BASE) / STEP`, the upper half excluded, is the index of the cell. -/
theorem inCell_of_quotient {bpt : Nat} {base step f : Freq} {i : Nat} (hstep : 0 < step) (hi : i < symbolSpace bpt)
    (above : (i : Rat) - 1 / 2 < (f - base) / step) (below : (f - base) / step ≤ (i : Rat) + 1 / 2) :
    InCell bpt base step f i := by
  rw [lt_div_iff₀ hstep] at above
  rw [div_le_iff₀ hstep] at below
  exact ⟨hi, fun _ => by linarith, fun _ => by linarith⟩

/-- Strictly inside the band the floor of the quotient is an index below the last one. -/
theorem exists_floor_quotient {bpt : Nat} {base step f : Freq} (hstep : 0 < step) (low : base < f)
    (high : f < bandTop bpt base step) :
    ∃ i : Nat, ⌊(f - base) / step⌋ = i ∧ i + 1 < symbolSpace bpt ∧ (i : Rat) ≤ (f - base) / step ∧
      (f - base) / step < (i : Rat) + 1 := by
  obtain ⟨i, hi⟩ := Int.eq_ofNat_of_zero_le (Int.floor_nonneg.2 (div_nonneg (sub_nonneg.2 low.le) hstep.le))
  obtain ⟨floor_le, lt_floor⟩ := Int.floor_eq_iff.1 hi
  have quotient_lt : (f - base) / step < ((symbolSpace bpt - 1 : Nat) : Rat) :=
    (div_lt_iff₀ hstep).2 (sub_lt_iff_lt_add'.2 high)
  have index_lt : i < symbolSpace bpt - 1 := by exact_mod_cast floor_le.trans_lt quotient_lt
  exact ⟨i, hi, by omega, floor_le, lt_floor⟩

/-- What the closed form answers: no index outside the band widened by `STEP`, and the index of the cell inside it
(40_frequency_map.md R113). -/
theorem candidateIndex_cases (bpt : Nat) (base : Freq) {step : Freq} (f : Freq) (hstep : 0 < step) :
    (candidateIndex bpt base step f = none ∧ (f < base - step ∨ bandTop bpt base step + step < f)) ∨
    ∃ i, candidateIndex bpt base step f = some i ∧ InCell bpt base step f i ∧
      base - step ≤ f ∧ f ≤ bandTop bpt base step + step := by
  have size_pos := symbolSpace_pos bpt
  simp only [candidateIndex]
  split
  · next outside => exact .inl ⟨rfl, outside⟩
  next within =>
  rw [not_or, not_lt, not_lt, ← bandTop_eq] at within
  right
  split
  · next low => exact ⟨0, rfl, ⟨size_pos, nofun, fun _ => by push_cast; linarith⟩, within⟩
  next low =>
  split
  · next high => exact ⟨_, rfl, ⟨by omega, fun _ => by linarith, by omega⟩, within⟩
  next high =>
  obtain ⟨i, floor_eq, next_lt, floor_le, lt_floor⟩ := exists_floor_quotient hstep (not_le.1 low) (not_le.1 high)
  rw [floor_eq, Int.toNat_natCast, Int.cast_natCast]
  split
  · next down => exact ⟨i, rfl, inCell_of_quotient hstep (by omega) (by linarith) (by linarith), within⟩
  · next up =>
    have cell : InCell bpt base step f (i + 1) :=
      inCell_of_quotient hstep next_lt (by push_cast; linarith) (by push_cast; linarith)
    exact ⟨i + 1, rfl, cell, within⟩

/-- Outside the widened band every map frequency is farther than `STEP`. -/
theorem step_lt_abs_sub_of_outside {seed : Word32} {bpt : Nat} {base step f g : Freq} (hstep : 0 < step)
    (outside : f < base - step ∨ bandTop bpt base step + step < f)
    (hg : g ∈ buildMap seed bpt base step) : step < |f - g| := by
  obtain ⟨j, hj, rfl⟩ := mem_buildMap.1 hg
  rw [lt_abs]
  rcases outside with below | above
  · have : 0 ≤ (j : Rat) * step := by positivity
    exact .inr (by linarith)
  · have := le_bandTop (base := base) hstep hj
    exact .inl (by linarith)

/-- Settles O27: the closed form names the cell that `f` lies in, and the cell's candidate is the nearest map frequency. -/
theorem classifyClosedForm : Obligations.ClassifyClosedForm := by
  intro seed bpt base step f hstep
  constructor
  · rcases candidateIndex_cases bpt base f hstep with ⟨no_candidate, outside⟩ | ⟨i, index, cell, low, high⟩
    · rw [no_candidate, Option.bind_none]
      exact classify_eq_none_of_far fun _ => step_lt_abs_sub_of_outside hstep outside
    · rw [index, Option.bind_some]
      exact classify_of_isNearest (mem_buildMap.2 ⟨i, cell.index_lt, rfl⟩) (cell.isNearest hstep seed)
        (cell.abs_sub_le (by linarith) low high)
  · intro low high
    change f ≤ bandTop bpt base step at high
    rcases candidateIndex_cases bpt base f hstep with ⟨-, below | above⟩ | ⟨i, index, cell, -, -⟩
    · linarith
    · linarith
    · exact ⟨i, cell.index_lt, index, cell.abs_sub_le le_rfl (by linarith) (by linarith)⟩

end Sys2Proof.Machine
end

section
/-! SUPPORT. 42_tone_synthesizer.md R155, R158: the shape of the symmetric window, and the range of the rendered samples. -/

namespace Sys2Proof.Machine

open Sys2Proof.Config

/-! ### The symmetric window -/

/-- The symmetric window over `m + 1` samples makes one turn in `m` sample steps (42_tone_synthesizer.md R154). -/
theorem hann_symmetric_succ (i m : Nat) :
    hann .symmetric i (m + 1) = 1 / 2 - 1 / 2 * cosTurn ((i : Rat) / (m : Rat)) := by
  simp [hann, windowSpan]

/-- Both forms of the window start at zero. -/
@[simp] theorem hann_zero (form : HannForm) (n : Nat) : hann form 0 n = 0 := by
  simp [hann]

/-- The symmetric window read backwards is itself: the cosine is even, and the span is a whole turn. -/
theorem hann_symmetric_reflect {i m : Nat} (hm : 0 < m) (hi : i ≤ m) :
    hann .symmetric (m - i) (m + 1) = hann .symmetric i (m + 1) := by
  have span_ne_zero : (m : Rat) ≠ 0 := by positivity
  have angle : ((m - i : Nat) : Rat) / m = -((i : Rat) / m) + (1 : Int) := by
    rw [Nat.cast_sub hi, sub_div, div_self span_ne_zero, Int.cast_one]
    ring
  rw [hann_symmetric_succ, hann_symmetric_succ, angle, cosTurn_add_int, cosTurn_neg]

theorem hann_symmetric_last {m : Nat} (hm : 0 < m) : hann .symmetric m (m + 1) = 0 := by
  simpa using hann_symmetric_reflect hm m.zero_le

/-- The symmetric window is 1 half way along its span only, where the cosine is -1. -/
theorem hann_symmetric_eq_one_iff {i m : Nat} (hm : 0 < m) (hi : i ≤ m) :
    hann .symmetric i (m + 1) = 1 ↔ 2 * i = m := by
  have span_pos : (0 : Rat) < m := by exact_mod_cast hm
  have within_turn : (i : Rat) / m ≤ 1 := (div_le_one span_pos).2 (by exact_mod_cast hi)
  calc hann .symmetric i (m + 1) = 1
      ↔ cosTurn ((i : Rat) / m) = -1 := by
        rw [hann_symmetric_succ]
        constructor <;> intro h <;> linarith
    _ ↔ (i : Rat) / m = 1 / 2 := cosTurn_eq_neg_one_iff (by positivity) within_turn
    _ ↔ (2 * i : Rat) = m := by
        rw [div_eq_div_iff span_pos.ne' two_ne_zero, one_mul, mul_comm]
    _ ↔ 2 * i = m := by exact_mod_cast Iff.rfl

/-! ### Rendered samples -/

/-- Where the window is zero, so is the sample, whatever was shaped (42_tone_synthesizer.md R156). -/
theorem renderSample_eq_zero {form : HannForm} {i n : Nat} (h : hann form i n = 0) (waveform : Nat) (f : Freq) :
    renderSample form waveform n f i = 0 := by
  rw [renderSample, h, zero_mul, mul_zero]

/-- Window and shape are within 1, so the scale bounds the sample (42_tone_synthesizer.md R158). -/
theorem abs_renderSample_le (form : HannForm) (waveform n : Nat) (f : Freq) (i : Nat) :
    |renderSample form waveform n f i| ≤ 19 / 20 := by
  obtain ⟨window_nonneg, window_le⟩ := hann_mem form i n
  have scale_pos : 0 < outScale := by norm_num [outScale]
  calc |renderSample form waveform n f i|
      = outScale * (hann form i n * |shape waveform (rawSine f i)|) := by
        rw [renderSample, abs_mul, abs_mul, abs_of_nonneg window_nonneg, abs_of_pos scale_pos]
    _ ≤ outScale * 1 := by
        gcongr
        exact mul_le_one₀ window_le (abs_nonneg _) (abs_shape_le_one _ _)
    _ = 19 / 20 := mul_one _

/-- Every chunk can go to the TX port (20_memory.md R50). -/
theorem withinScale_render (form : HannForm) (waveform n : Nat) (f : Freq) : WithinScale (render form waveform n f) := by
  intro y hy
  obtain ⟨i, -, rfl⟩ := mem_render.1 hy
  exact abs_renderSample_le ..

/-- Settles O30: one turn of the cosine is symmetric about its middle, and -1 there only. -/
theorem symmetricWindowFacts : Obligations.SymmetricWindowFacts := by
  rintro (_ | m) hn
  · contradiction
  have span_pos : 0 < m := by omega
  have last_zero := hann_symmetric_last span_pos
  rw [Nat.add_sub_cancel]
  refine ⟨hann_zero .., last_zero, fun i hi => (hann_symmetric_reflect span_pos (by omega)).symm,
    fun i _ => hann_mem .., fun i hi => ?_,
    fun waveform f => ⟨renderSample_eq_zero (hann_zero ..) waveform f, renderSample_eq_zero last_zero waveform f⟩⟩
  rw [hann_symmetric_eq_one_iff span_pos (by omega)]
  omega

/-- Settles O31: every sample of a chunk is a scaled product of a window value and a shaped sine, both within 1. -/
theorem renderedSamplesInRange : Obligations.RenderedSamplesInRange := by
  intro form waveform n f
  exact ⟨fun i => ⟨abs_shape_le_one .., hann_mem ..⟩, withinScale_render form waveform n f⟩

end Sys2Proof.Machine
end

section
/-! SUPPORT. 43_frame_codec.md R176: how many symbols an encoded message has. -/

namespace Sys2Proof.Machine

/-- The data symbols are the frame bits counted in symbols, rounded up: what the padding adds is less than a symbol. -/
theorem dataSymbols_length {bpt : Nat} (h : 0 < bpt) (m : List Byte) :
    (dataSymbols bpt m).length = (8 * (m.length + 2) + bpt - 1) / bpt := by
  have filled := dataSymbols_length_mul h m
  have short_pad := (padLength_spec h (8 * (m.length + 2))).1
  refine (Nat.div_eq_of_lt_le ?_ ?_).symm
  · omega
  · rw [Nat.add_one_mul (dataSymbols bpt m).length]
    omega

theorem encodeMessage_length {bpt : Nat} (h : 0 < bpt) (reps : Nat) (m : List Byte) :
    (encodeMessage bpt reps m).length = 2 * reps + (8 * (m.length + 2) + bpt - 1) / bpt := by
  rw [encodeMessage, List.length_append, preamble_length, preambleLength, dataSymbols_length h]

/-- A longer message has no shorter encoding. -/
theorem encodeMessage_length_mono {bpt : Nat} (h : 0 < bpt) (reps : Nat) {m m' : List Byte} (hm : m.length ≤ m'.length) :
    (encodeMessage bpt reps m).length ≤ (encodeMessage bpt reps m').length := by
  rw [encodeMessage_length h, encodeMessage_length h]
  gcongr

/-- Settles O35: the length formula, at the two ends of `BPT` and at the empty message, and its monotonicity. -/
theorem encodedLengths : Obligations.EncodedLengths := by
  intro bpt reps m h4 _
  have hpos : 0 < bpt := by omega
  have general := encodeMessage_length hpos reps
  refine ⟨general m, ?bpt_four, ?bpt_eight, general [], encodeMessage_length_mono hpos reps m.length.zero_le⟩
  case bpt_four =>
    rintro rfl
    rw [general]
    omega
  case bpt_eight =>
    rintro rfl
    rw [general]
    omega

end Sys2Proof.Machine
end

section
/-! SUPPORT. 44_modulator_send.md R191: how the chunks lie in the waveform of a symbol sequence. -/

namespace Sys2Proof.Machine

open Sys2Proof.Config

@[simp] theorem waveform_nil (form : HannForm) (l : Launch) : waveform form l [] = [] := rfl

@[simp] theorem waveform_cons (form : HannForm) (l : Launch) (x : Symbol) (syms : List Symbol) :
    waveform form l (x :: syms) = render form l.cfg.waveform l.cfg.n (l.fwd.getD x 0) ++ waveform form l syms := rfl

theorem waveform_length (form : HannForm) (l : Launch) (syms : List Symbol) :
    (waveform form l syms).length = l.cfg.n * syms.length := by
  induction syms with
  | nil => rfl
  | cons x syms ih =>
    rw [waveform_cons, List.length_append, render_length, ih, List.length_cons, Nat.mul_succ, Nat.add_comm]

/-- The first chunk of the waveform is the tone of the first symbol. -/
theorem waveform_cons_getElem?_head {form : HannForm} {l : Launch} {n : Nat} (hn : n < l.cfg.n) (x : Symbol)
    (syms : List Symbol) :
    (waveform form l (x :: syms))[n]? =
      some (renderSample form l.cfg.waveform l.cfg.n (l.fwd.getD x 0) n) := by
  rw [waveform_cons, List.getElem?_append_left (by rwa [render_length]), render_getElem? hn]

/-- Past the first chunk the waveform goes on with that of the remaining symbols. -/
theorem waveform_cons_getElem?_tail (form : HannForm) (l : Launch) (x : Symbol) (syms : List Symbol) (j : Nat) :
    (waveform form l (x :: syms))[l.cfg.n + j]? = (waveform form l syms)[j]? := by
  rw [waveform_cons, List.getElem?_append_right (by simp), render_length, Nat.add_sub_cancel_left]

theorem waveform_getElem? {form : HannForm} {l : Launch} {syms : List Symbol} {k n : Nat} {x : Symbol}
    (hx : syms[k]? = some x) (hn : n < l.cfg.n) :
    (waveform form l syms)[k * l.cfg.n + n]? =
      some (renderSample form l.cfg.waveform l.cfg.n (l.fwd.getD x 0) n) := by
  induction syms generalizing k with
  | nil => simp at hx
  | cons y syms ih =>
    cases k with
    | zero =>
      obtain rfl : y = x := by simpa using hx
      rw [Nat.zero_mul, Nat.zero_add, waveform_cons_getElem?_head hn]
    | succ k =>
      have one_chunk_on : (k + 1) * l.cfg.n + n = l.cfg.n + (k * l.cfg.n + n) := by ring
      rw [one_chunk_on, waveform_cons_getElem?_tail, ih (by simpa using hx)]

/-- Settles O38: each symbol puts one chunk of `N` samples in front of the waveform of the symbols after it. -/
theorem waveformLayout : Obligations.WaveformLayout := by
  intro form l syms
  exact ⟨waveform_length form l syms, fun _ _ _ hx hn => waveform_getElem? hx hn⟩

end Sys2Proof.Machine
end

section
/-! SUPPORT. 45_spectral_detector.md R200 to R207: what the detector finds among the bins, and what DETECT answers. -/

namespace Sys2Proof.Machine

open Sys2Proof.Config

/-! ### The strongest bin -/

/-- Bin 0 is always there, so the search has a bin to start from (45_spectral_detector.md R203). -/
theorem magnitudes_ne_nil (form : HannForm) (n : Nat) (c : List Sample) : magnitudes form n c ≠ [] := by
  simp [← List.length_pos_iff]

/-- `k` is the least of the bins `0 .. floor(N / 2)` whose magnitude no bin exceeds (45_spectral_detector.md R205). -/
structure IsStrongestBin (form : HannForm) (n : Nat) (c : List Sample) (k : Nat) : Prop where
  le_half : k ≤ n / 2
  greatest : ∀ j, j ≤ n / 2 → magnitude form n c j ≤ magnitude form n c k
  lowest : ∀ j, j < k → magnitude form n c j < magnitude form n c k

/-- The search over the magnitudes finds the strongest bin, and its magnitude with it. -/
theorem exists_peakBin_magnitudes_eq (form : HannForm) (n : Nat) (c : List Sample) :
    ∃ k, IsStrongestBin form n c k ∧ peakBin (magnitudes form n c) = (k, magnitude form n c k) := by
  obtain ⟨at_index, upper_bound, lower_before⟩ := peakBin_spec (magnitudes_ne_nil form n c)
  generalize peakBin (magnitudes form n c) = found at *
  obtain ⟨k, peak⟩ := found
  have k_le : k ≤ n / 2 := by
    have in_range := (List.getElem?_eq_some_iff.1 at_index).1
    rw [magnitudes_length] at in_range
    exact Nat.lt_succ_iff.1 in_range
  obtain rfl : magnitude form n c k = peak := Option.some.inj ((magnitudes_getElem? k_le).symm.trans at_index)
  exact ⟨k, ⟨k_le, fun j hj => upper_bound _ (List.mem_of_getElem? (magnitudes_getElem? hj)),
    fun j hj => lower_before j _ hj (magnitudes_getElem? (hj.le.trans k_le))⟩, rfl⟩

/-- What the detector answers: the strongest bin's frequency and magnitude, or silence when that magnitude is below `THRESH`
(45_spectral_detector.md R206, R207). -/
theorem detect_spec (form : HannForm) (n : Nat) (thresh : Rat) (c : List Sample) :
    ∃ k, IsStrongestBin form n c k ∧ detect form n thresh c =
      if magnitude form n c k < thresh then .silence else .tone (binFrequency n k) (magnitude form n c k) := by
  obtain ⟨k, strongest, found⟩ := exists_peakBin_magnitudes_eq form n c
  exact ⟨k, strongest, by rw [detect, found]⟩

/-! ### The command -/

theorem binFrequency_eq (n k : Nat) : binFrequency n k = (k : Rat) * 48000 / (n : Rat) := by
  rw [binFrequency, sampleRate, Nat.cast_ofNat]

/-- A chunk of `N` samples is a good operand of DETECT (30_encoding.md R87). -/
theorem chunkOperand_chunk {l : Launch} {c : List Sample} (h : c.length = l.cfg.n) : chunkOperand l (.chunk c) = some c :=
  if_pos h

/-- DETECT on a block that is ready, given a chunk of `N` samples: it answers and completes (45_spectral_detector.md R200). -/
theorem exec_detect_of_ready {s : State} {l : Launch} {c : List Sample} (h : s.Ready l) (hc : s.operand = .chunk c)
    (hn : c.length = l.cfg.n) :
    exec .detect s = .next (s.answer (.detection (detect s.params.hannForm l.cfg.n l.cfg.thresh c))) := by
  have dispatch : exec .detect s = execDetect s := rfl
  rw [dispatch, execDetect, State.accept_of_ready h, hc, chunkOperand_chunk hn, State.withOperand_some]

/-- Settles O40: DETECT answers what the detector finds, and the search keeps the first of the greatest magnitudes. -/
theorem detectReturnsStrongestBin : Obligations.DetectReturnsStrongestBin := by
  intro s l c hs hc hn
  obtain ⟨k, ⟨le_half, greatest, lowest⟩, found⟩ := detect_spec s.params.hannForm l.cfg.n l.cfg.thresh c
  refine ⟨k, le_half, greatest, lowest, ?_⟩
  rw [exec_detect_of_ready hs hc hn, found, binFrequency_eq, State.answer_eq, State.report]

end Sys2Proof.Machine
end

section
/-! SUPPORT. 46_receiver_state_machine.md R222 to R232: what the transition function answers, phase by phase and byte by
byte. -/

namespace Sys2Proof.Machine

/-! ### Silence, and tones that are no symbol -/

/-- Settles O44: silence is decided by the phase alone. -/
theorem silenceAbortsDecoding : Obligations.SilenceAbortsDecoding := by
  intro l cap w decoding
  rw [rxStep, stepSilence, decoding, Working.reset]

theorem rxStep_silence_of_listening {w : Working} (listening : w.phase = .listening) (l : Launch) (cap : Option Nat) :
    rxStep l cap w .silence = .done w [] .idleSilence := by
  rw [rxStep, stepSilence, listening]

theorem rxStep_tone_of_classify_eq_none {l : Launch} {f : Freq} (h : classify l.fwd l.cfg.step f = none)
    (cap : Option Nat) (w : Working) (p : Sample) : rxStep l cap w (.tone f p) = .done w [] .ignored := by
  rw [rxStep, h]

/-- Settles O45: a tone far from every map frequency is `Unclassifiable`, and the power is no argument of any test. -/
theorem silentAndNoisyChunksIgnored : Obligations.SilentAndNoisyChunksIgnored := by
  intro l cap w
  refine ⟨fun listening => rxStep_silence_of_listening listening l cap, fun f p far => ?_, fun _ _ _ => rfl⟩
  exact rxStep_tone_of_classify_eq_none (classify_eq_none_of_far far) cap w p

/-! ### Symbols -/

theorem rxStep_symbol_of_listening {l : Launch} {w : Working} {f : Freq} {x : Symbol} (listening : w.phase = .listening)
    (hx : classify l.fwd l.cfg.step f = some x) (cap : Option Nat) (p : Sample) :
    rxStep l cap w (.tone f p) = stepListening l.cfg.reps w x := by
  simp only [rxStep, hx, stepSymbol, listening]

theorem rxStep_symbol_of_decoding {l : Launch} {w : Working} {f : Freq} {x : Symbol} (decoding : w.phase = .decoding)
    (hx : classify l.fwd l.cfg.step f = some x) (cap : Option Nat) (p : Sample) :
    rxStep l cap w (.tone f p) = stepDecoding l.cfg.bpt cap w x := by
  simp only [rxStep, hx, stepSymbol, decoding]

/-- Settles O46: the buffer after the symbol is the model's slid buffer, and it is compared with the whole preamble. -/
theorem preambleIsMatchedWhole : Obligations.PreambleIsMatchedWhole := by
  intro l cap w f p x listening short _ hx
  obtain ⟨suffix, length_eq⟩ := slide_spec x short
  rw [rxStep_symbol_of_listening listening hx]
  refine ⟨slide (preambleLength l.cfg.reps) w.syncbuf x, suffix, length_eq, ?_⟩
  rcases stepListening_cases l.cfg.reps w x with ⟨matched, synced⟩ | ⟨differs, shifted⟩
  · exact ⟨fun _ => synced, fun other => absurd matched other⟩
  · exact ⟨fun same => absurd same differs, fun _ => shifted⟩

/-! ### The byte of a symbol while decoding -/

/-- A start marker and a byte above `0x7F` are dropped (46_receiver_state_machine.md R229, R232). -/
theorem byteEffect_eq_skip {b : Byte} (h : b = 0x02#8 ∨ 0x80 ≤ b.toNat) : byteEffect b = .skip := by
  rcases byteEffect_cases b with ⟨-, skipped⟩ | ⟨rfl, -⟩ | ⟨not_start, -, ascii, -⟩
  · exact skipped
  · exact absurd h (by decide)
  · exact absurd h (not_or.2 ⟨not_start, by omega⟩)

/-- The end marker completes the message (46_receiver_state_machine.md R230). -/
theorem byteEffect_endMarker : byteEffect 0x03#8 = .finish := by decide

/-- Any other byte is a character (46_receiver_state_machine.md R231). -/
theorem byteEffect_eq_append {b : Byte} (not_start : b ≠ 0x02#8) (not_end : b ≠ 0x03#8) (ascii : b.toNat ≤ 0x7F) :
    byteEffect b = .append (Char.ofNat b.toNat) := by
  rcases byteEffect_cases b with ⟨rfl | high, -⟩ | ⟨rfl, -⟩ | ⟨-, -, -, appended⟩
  · exact absurd rfl not_start
  · omega
  · exact absurd rfl not_end
  · exact appended

/-- Without a capacity, a symbol that completes the byte `b` does what `b` does (46_receiver_state_machine.md R228). -/
theorem stepDecoding_of_byte {bpt : Nat} {w : Working} {x : Symbol} {b : Byte} (hb : bpt ≤ 8) (hw : w.bitbuf.length ≤ 7)
    (byte : (w.bitbuf ++ bitsOf bpt x).take 8 = bitsOf 8 b.toNat) :
    stepDecoding bpt none w x =
      match byteEffect b with
      | .skip => .done { w with bitbuf := (w.bitbuf ++ bitsOf bpt x).drop 8 } [] (.data 1)
      | .finish => .done Working.reset [.msgDone w.msg] .completed
      | .append c =>
        .done { w with bitbuf := (w.bitbuf ++ bitsOf bpt x).drop 8, msg := w.msg ++ [c] } [.charOut c] (.data 1) := by
  rcases stepDecoding_cases none x hb hw with ⟨short, -⟩ | ⟨-, popped⟩
  · have full := congrArg List.length byte
    rw [List.length_take, bitsOf_length] at full
    omega
  · rw [popByte_eq byte] at popped
    rcases popped with ⟨skipped, e⟩ | ⟨finished, e⟩ | ⟨c, appended, ⟨full, -⟩ | ⟨-, e⟩⟩
    · rw [e, skipped]
    · rw [e, finished]
    · exact absurd full (by simp)
    · rw [e, appended]

/-- Settles O48: with at most seven bits before it a symbol completes no byte or one, and the byte's value decides. -/
theorem symbolWhileDecoding : Obligations.SymbolWhileDecoding := by
  intro l w f p x decoding hw _ hb hx
  rw [rxStep_symbol_of_decoding decoding hx]
  refine ⟨fun short => ?_, fun b byte => ?_⟩
  · rcases stepDecoding_cases none x hb hw with ⟨-, kept⟩ | ⟨full, -⟩
    · exact kept
    · omega
  · rw [stepDecoding_of_byte hb hw byte]
    refine ⟨fun dropped => ?_, fun is_end => ?_, fun not_start not_end ascii => ?_⟩
    · rw [byteEffect_eq_skip dropped]
    · rw [is_end, byteEffect_endMarker, Working.reset]
    · rw [byteEffect_eq_append not_start not_end ascii]

end Sys2Proof.Machine
end

section
/-! SUPPORT. 46_receiver_state_machine.md R237: what a clean transmission decodes to, from the tones to the symbols, from the
symbols to the bits, and from the bits to the bytes of the frame. -/

namespace Sys2Proof.Machine

/-! ### The receiver over a sequence -/

@[simp] theorem runReceiver_nil (l : Launch) (cap : Option Nat) (w : Working) :
    runReceiver l cap w [] = some (w, [], []) := rfl

theorem runReceiver_cons {l : Launch} {cap : Option Nat} {w w₁ w₂ : Working} {d : Detection} {ds : List Detection}
    {evs evs' : List Event} {tag : StepTag} {tags : List StepTag} (first : rxStep l cap w d = .done w₁ evs tag)
    (rest : runReceiver l cap w₁ ds = some (w₂, evs', tags)) :
    runReceiver l cap w (d :: ds) = some (w₂, evs ++ evs', tag :: tags) := by
  simp only [runReceiver, first, rest]

theorem runReceiver_append {l : Launch} {cap : Option Nat} {w w₁ w₂ : Working} {ds es : List Detection}
    {evs evs' : List Event} {tags tags' : List StepTag} (first : runReceiver l cap w ds = some (w₁, evs, tags))
    (second : runReceiver l cap w₁ es = some (w₂, evs', tags')) :
    runReceiver l cap w (ds ++ es) = some (w₂, evs ++ evs', tags ++ tags') := by
  induction ds generalizing w evs tags with
  | nil =>
    cases first
    exact second
  | cons d ds ih =>
    rw [runReceiver] at first
    split at first
    · cases first
    · next step =>
      split at first
      · cases first
      · next rest =>
        cases first
        rw [List.cons_append, runReceiver_cons step (ih rest), List.append_assoc, List.cons_append]

/-! ### A capacity that is not there never overflows -/

theorem exists_popBytes_none (fuel : Nat) (w : Working) (n : Nat) (evs : List Event) :
    ∃ w' evs' tag, popBytes none fuel w n evs = .done w' evs' tag := by
  induction fuel generalizing w n evs with
  | zero => exact ⟨_, _, _, rfl⟩
  | succ fuel ih =>
    rw [popBytes]
    split
    · exact ⟨_, _, _, rfl⟩
    · cases byteEffect (popByte w.bitbuf) with
      | skip => exact ih ..
      | finish => exact ⟨_, _, _, rfl⟩
      | append c => exact ih ..

theorem exists_rxStep_none (l : Launch) (w : Working) (d : Detection) :
    ∃ w' evs tag, rxStep l none w d = .done w' evs tag := by
  rcases rxStep_cases l none w d with ⟨-, -, e⟩ | ⟨-, -, e⟩ | ⟨f, p, -, ⟨-, e⟩ | ⟨x, -, ⟨-, e⟩ | ⟨-, e⟩⟩⟩
  · exact ⟨_, _, _, e⟩
  · exact ⟨_, _, _, e⟩
  · exact ⟨_, _, _, e⟩
  · rw [e]
    rcases stepListening_cases l.cfg.reps w x with ⟨-, synced⟩ | ⟨-, shifted⟩
    · exact ⟨_, _, _, synced⟩
    · exact ⟨_, _, _, shifted⟩
  · rw [e]
    exact exists_popBytes_none ..

theorem exists_runReceiver_none (l : Launch) (w : Working) (ds : List Detection) :
    ∃ w' evs tags, runReceiver l none w ds = some (w', evs, tags) := by
  induction ds generalizing w with
  | nil => exact ⟨_, _, _, rfl⟩
  | cons d ds ih =>
    obtain ⟨w₁, _, _, step⟩ := exists_rxStep_none l w d
    obtain ⟨_, _, _, rest⟩ := ih w₁
    exact ⟨_, _, _, runReceiver_cons step rest⟩

/-! ### Clean tones -/

@[simp] theorem cleanTones_nil (l : Launch) : cleanTones l [] = [] := rfl

@[simp] theorem cleanTones_cons (l : Launch) (x : Symbol) (syms : List Symbol) :
    cleanTones l (x :: syms) = .tone (l.fwd.getD x 0) 0 :: cleanTones l syms := rfl

@[simp] theorem cleanTones_append (l : Launch) (syms more : List Symbol) :
    cleanTones l (syms ++ more) = cleanTones l syms ++ cleanTones l more := List.map_append

/-- A tone exactly on a symbol's map frequency is classified as that symbol (40_frequency_map.md R112). -/
theorem Launch.Built.classify_getD {l : Launch} (h : l.Built) {x : Symbol} (hx : x < symbolSpace l.cfg.bpt) :
    classify l.fwd l.cfg.step (l.fwd.getD x 0) = some x := by
  have in_map : x < l.fwd.length := by rwa [h.2, buildMap_length]
  refine classify_mem h.fwd_nodup h.step_pos.le ?_
  rw [List.getD_eq_getElem _ _ in_map, List.getElem?_eq_getElem in_map]

/-! ### The preamble -/

/-- A preamble symbol is a `BPT`-bit value, as `BPT` is at least 4 (00_scope.md R8; 10_state.md R25). -/
theorem Launch.Built.lt_of_mem_preamble {l : Launch} (h : l.Built) {x : Symbol} (hx : x ∈ preamble l.cfg.reps) :
    x < symbolSpace l.cfg.bpt := by
  obtain ⟨-, -, -, bpt_ge, -⟩ := CfgValues.legal_iff.1 h.1
  have space : 2 ^ 4 ≤ symbolSpace l.cfg.bpt := Nat.pow_le_pow_right (by norm_num) bpt_ge
  obtain ⟨-, ten_or_five⟩ : l.cfg.reps ≠ 0 ∧ (x = 10 ∨ x = 5) := by
    simpa [preamble, Config.preambleBase] using hx
  exact lt_of_lt_of_le (by rcases ten_or_five with rfl | rfl <;> norm_num) space

theorem slide_of_length_lt {len : Nat} {q : List Symbol} (h : q.length < len) (x : Symbol) : slide len q x = q ++ [x] := by
  obtain ⟨suffix, length_eq⟩ := slide_spec x h.le
  exact suffix.eq_of_length (by rw [length_eq, List.length_append, List.length_singleton]; omega)

/-- A buffer that is shorter than the preamble after the symbol is not the preamble: it only grows. -/
theorem stepListening_of_short {reps : Nat} {w : Working} (short : w.syncbuf.length + 1 < preambleLength reps) (x : Symbol) :
    stepListening reps w x = .done { w with syncbuf := w.syncbuf ++ [x] } [] .shifted := by
  have slid := slide_of_length_lt (Nat.lt_of_succ_lt short) x
  rcases stepListening_cases reps w x with ⟨matched, -⟩ | ⟨-, shifted⟩
  · have full := congrArg List.length (slid.symm.trans matched)
    rw [List.length_append, List.length_singleton, preamble_length] at full
    omega
  · rw [shifted, slid]

/-- The symbol that makes the buffer the preamble starts the data (46_receiver_state_machine.md R226). -/
theorem stepListening_of_complete {reps : Nat} {w : Working} {x : Symbol} (complete : w.syncbuf ++ [x] = preamble reps) :
    stepListening reps w x = .done { phase := .decoding, syncbuf := [], bitbuf := [], msg := [] } [] .synced := by
  have room : w.syncbuf.length < preambleLength reps := by
    rw [← preamble_length, ← complete, List.length_append, List.length_singleton]
    omega
  rcases stepListening_cases reps w x with ⟨-, synced⟩ | ⟨differs, -⟩
  · exact synced
  · exact absurd ((slide_of_length_lt room x).trans complete) differs

/-- Fewer clean symbols than the preamble has are all buffered. -/
theorem runReceiver_of_short {l : Launch} (h : l.Built) (cap : Option Nat) {w : Working} (listening : w.phase = .listening)
    {syms : List Symbol} (small : ∀ x ∈ syms, x < symbolSpace l.cfg.bpt)
    (short : w.syncbuf.length + syms.length < preambleLength l.cfg.reps) :
    runReceiver l cap w (cleanTones l syms) =
      some ({ w with syncbuf := w.syncbuf ++ syms }, [], List.replicate syms.length .shifted) := by
  induction syms generalizing w with
  | nil => rw [List.append_nil]; rfl
  | cons x syms ih =>
    obtain ⟨x_small, syms_small⟩ := List.forall_mem_cons.1 small
    rw [List.length_cons] at short
    have first := rxStep_symbol_of_listening listening (h.classify_getD x_small) cap 0
    rw [stepListening_of_short (by omega)] at first
    have rest := ih (w := { w with syncbuf := w.syncbuf ++ [x] }) listening syms_small
      (by rw [List.length_append, List.length_singleton]; omega)
    rw [cleanTones_cons, runReceiver_cons first rest, List.append_assoc]
    rfl

/-- The preamble alone, from the reset working state: `Synced` at its last symbol and not before (00_scope.md R19 (c)). -/
theorem runReceiver_preamble {l : Launch} (h : l.Built) (cap : Option Nat) :
    runReceiver l cap Working.reset (cleanTones l (preamble l.cfg.reps)) =
      some ({ phase := .decoding, syncbuf := [], bitbuf := [], msg := [] }, [],
        List.replicate (2 * l.cfg.reps - 1) .shifted ++ [.synced]) := by
  obtain ⟨-, -, -, -, -, reps_pos⟩ := CfgValues.legal_iff.1 h.1
  have length_eq := preamble_length l.cfg.reps
  have small := fun x => h.lt_of_mem_preamble (x := x)
  obtain ⟨pre, x, split⟩ : ∃ pre x, preamble l.cfg.reps = pre ++ [x] := by
    rcases List.eq_nil_or_concat' (preamble l.cfg.reps) with empty | last
    · rw [empty, preambleLength, List.length_nil] at length_eq
      omega
    · exact last
  rw [split, List.length_append, List.length_singleton] at length_eq
  rw [split] at small
  have before : runReceiver l cap Working.reset (cleanTones l pre) = _ :=
    runReceiver_of_short h cap rfl (fun y hy => small y (List.mem_append_left _ hy))
      (by rw [Working.reset, List.length_nil]; omega)
  have last := rxStep_symbol_of_listening (w := { Working.reset with syncbuf := pre }) rfl
    (h.classify_getD (small x (by simp))) cap 0
  rw [stepListening_of_complete split.symm] at last
  have count : 2 * l.cfg.reps - 1 = pre.length := by rw [preambleLength] at length_eq; omega
  rw [split, cleanTones_append, cleanTones_cons, cleanTones_nil,
    runReceiver_append before (runReceiver_cons last (runReceiver_nil ..)), count]
  rfl

/-! ### The data -/

/-- The characters that a byte sequence without an end marker adds to the message (46_receiver_state_machine.md R229, R231,
R232). -/
def keptText (bs : List Byte) : List Char :=
  (bs.filter fun b => b != 0x02#8 && decide (b.toNat ≤ 0x7F)).map fun b => Char.ofNat b.toNat

theorem decodedText_eq (m : List Byte) : decodedText m = keptText (m.takeWhile fun b => b != 0x03#8) := rfl

@[simp] theorem keptText_nil : keptText [] = [] := rfl

theorem keptText_cons_of_dropped {b : Byte} (h : b = 0x02#8 ∨ 0x80 ≤ b.toNat) (bs : List Byte) :
    keptText (b :: bs) = keptText bs := by
  rw [keptText, List.filter_cons_of_neg, keptText]
  rcases h with rfl | high
  · decide
  · simp only [Bool.and_eq_true, decide_eq_true_eq]
    omega

theorem keptText_cons_of_kept {b : Byte} (not_start : b ≠ 0x02#8) (ascii : b.toNat ≤ 0x7F) (bs : List Byte) :
    keptText (b :: bs) = Char.ofNat b.toNat :: keptText bs := by
  rw [keptText, List.filter_cons_of_pos (by simp [not_start, ascii]), List.map_cons, keptText]

/-- The symbols, sent cleanly, make the receiver emit `evs`, and when `clean` holds nothing follows, the last step is
`Completed` and the working state is the reset one (46_receiver_state_machine.md R237). -/
def EmitsFirst (l : Launch) (w : Working) (syms : List Symbol) (evs : List Event) (clean : Prop) : Prop :=
  ∃ w' more tags, runReceiver l none w (cleanTones l syms) = some (w', evs ++ more, tags) ∧
    (clean → more = [] ∧ w' = Working.reset ∧ tags.getLast? = some .completed)

theorem EmitsFirst.cons {l : Launch} {w w₁ : Working} {x : Symbol} {syms : List Symbol} {evs evs' : List Event}
    {tag : StepTag} {clean : Prop} (first : rxStep l none w (.tone (l.fwd.getD x 0) 0) = .done w₁ evs tag)
    (rest : EmitsFirst l w₁ syms evs' clean) : EmitsFirst l w (x :: syms) (evs ++ evs') clean := by
  obtain ⟨w₂, more, tags, run, ends⟩ := rest
  refine ⟨w₂, more, tag :: tags, ?_, fun h => ?_⟩
  · rw [cleanTones_cons, runReceiver_cons first run, List.append_assoc]
  · obtain ⟨nothing, reset, completed⟩ := ends h
    exact ⟨nothing, reset, by rw [List.getLast?_cons, completed, Option.getD_some]⟩

theorem EmitsFirst.cons_silent {l : Launch} {w w₁ : Working} {x : Symbol} {syms : List Symbol} {evs : List Event}
    {tag : StepTag} {clean : Prop} (first : rxStep l none w (.tone (l.fwd.getD x 0) 0) = .done w₁ [] tag)
    (rest : EmitsFirst l w₁ syms evs clean) : EmitsFirst l w (x :: syms) evs clean :=
  EmitsFirst.cons first rest

/-- The step that completes the message, followed by whatever comes: the ending is clean if nothing comes. -/
theorem emitsFirst_of_completed {l : Launch} {w : Working} {x : Symbol} {syms : List Symbol} {evs : List Event}
    {clean : Prop} (last : rxStep l none w (.tone (l.fwd.getD x 0) 0) = .done Working.reset evs .completed)
    (h : clean → syms = []) : EmitsFirst l w (x :: syms) evs clean := by
  obtain ⟨w', more, tags, run⟩ := exists_runReceiver_none l Working.reset (cleanTones l syms)
  refine ⟨w', more, .completed :: tags, runReceiver_cons last run, fun hc => ?_⟩
  rw [h hc, cleanTones_nil, runReceiver_nil] at run
  cases run
  exact ⟨rfl, rfl, rfl⟩

/-- What follows a run without events comes first. -/
theorem EmitsFirst.append {l : Launch} {w w₁ : Working} {syms more : List Symbol} {evs : List Event} {tags : List StepTag}
    {clean : Prop} (first : runReceiver l none w (cleanTones l syms) = some (w₁, [], tags))
    (rest : EmitsFirst l w₁ more evs clean) : EmitsFirst l w (syms ++ more) evs clean := by
  obtain ⟨w₂, after, tags', run, ends⟩ := rest
  refine ⟨w₂, after, tags ++ tags', ?_, fun h => ?_⟩
  · rw [cleanTones_append, runReceiver_append first run, List.nil_append]
  · obtain ⟨nothing, reset, completed⟩ := ends h
    exact ⟨nothing, reset, by rw [List.getLast?_append, completed, Option.some_or]⟩

theorem EmitsFirst.mono {l : Launch} {w : Working} {syms : List Symbol} {evs : List Event} {clean clean' : Prop}
    (h : EmitsFirst l w syms evs clean) (imp : clean' → clean) : EmitsFirst l w syms evs clean' := by
  obtain ⟨w', more, tags, run, ends⟩ := h
  exact ⟨w', more, tags, run, fun hc => ends (imp hc)⟩

/-- The events of the bytes `bs` and the end marker, for a receiver that holds the text `t` already. -/
def messageEvents (t : List Char) (bs : List Byte) : List Event :=
  (keptText bs).map .charOut ++ [.msgDone (t ++ keptText bs)]

theorem messageEvents_cons_of_dropped {b : Byte} (h : b = 0x02#8 ∨ 0x80 ≤ b.toNat) (t : List Char) (bs : List Byte) :
    messageEvents t (b :: bs) = messageEvents t bs := by
  rw [messageEvents, keptText_cons_of_dropped h, messageEvents]

theorem messageEvents_cons_of_kept {b : Byte} (not_start : b ≠ 0x02#8) (ascii : b.toNat ≤ 0x7F) (t : List Char)
    (bs : List Byte) :
    messageEvents t (b :: bs) = [.charOut (Char.ofNat b.toNat)] ++ messageEvents (t ++ [Char.ofNat b.toNat]) bs := by
  rw [messageEvents, keptText_cons_of_kept not_start ascii, messageEvents, List.append_assoc]
  rfl

/-- Bits that are fewer than a symbol's come from no symbol. -/
theorem eq_nil_of_flatMap_bitsOf_short {bpt : Nat} {syms : List Symbol} (h : (syms.flatMap (bitsOf bpt)).length < bpt) :
    syms = [] := by
  cases syms with
  | nil => rfl
  | cons x syms =>
    rw [List.flatMap_cons, List.length_append, bitsOf_length] at h
    omega

/-- A decoding receiver whose buffered bits and coming symbols spell the bytes `bs`, an end marker, and `rest` sends the text of
`bs` and completes the message; when `rest` is shorter than a symbol, this is the last step. -/
theorem emitsFirst_messageEvents {l : Launch} (h : l.Built) {syms : List Symbol}
    (small : ∀ x ∈ syms, x < symbolSpace l.cfg.bpt) {w : Working} (decoding : w.phase = .decoding)
    (buffered : w.bitbuf.length ≤ 7) {bs : List Byte} (no_end : 0x03#8 ∉ bs) {rest : List Bit}
    (bits : w.bitbuf ++ syms.flatMap (bitsOf l.cfg.bpt) =
      bs.flatMap (fun b => bitsOf 8 b.toNat) ++ (bitsOf 8 (0x03#8 : Byte).toNat ++ rest)) :
    EmitsFirst l w syms (messageEvents w.msg bs) (rest.length < l.cfg.bpt) := by
  obtain ⟨-, -, -, -, bpt_le, -⟩ := CfgValues.legal_iff.1 h.1
  induction syms generalizing w bs with
  | nil =>
    have length_eq := congrArg List.length bits
    simp only [List.flatMap_nil, List.append_nil, List.length_append, bitsOf_length] at length_eq
    omega
  | cons x syms ih =>
    obtain ⟨x_small, syms_small⟩ := List.forall_mem_cons.1 small
    have first := rxStep_symbol_of_decoding decoding (h.classify_getD x_small) none 0
    rw [List.flatMap_cons, ← List.append_assoc] at bits
    rcases stepDecoding_cases none x bpt_le buffered with ⟨few, kept⟩ | ⟨full, -⟩
    · exact .cons_silent (first.trans kept)
        (ih (w := { w with bitbuf := w.bitbuf ++ bitsOf l.cfg.bpt x }) syms_small decoding (Nat.le_of_lt_succ few)
          no_end bits)
    have first_byte (b : Byte) := stepDecoding_of_byte (b := b) bpt_le buffered (x := x)
    have left_short : ((w.bitbuf ++ bitsOf l.cfg.bpt x).drop 8).length ≤ 7 := by
      rw [List.length_drop, List.length_append, bitsOf_length]
      omega
    generalize w.bitbuf ++ bitsOf l.cfg.bpt x = q at *
    rw [← List.take_append_drop 8 q, List.append_assoc] at bits
    have taken (b : Byte) : (q.take 8).length = (bitsOf 8 b.toNat).length := by
      rw [List.length_take, bitsOf_length, Nat.min_eq_left full]
    cases bs with
    | nil =>
      rw [List.flatMap_nil, List.nil_append] at bits
      obtain ⟨byte, left⟩ := List.append_inj bits (taken _)
      rw [first_byte _ byte, byteEffect_endMarker] at first
      rw [messageEvents, keptText_nil, List.append_nil]
      refine emitsFirst_of_completed first fun rest_short => eq_nil_of_flatMap_bitsOf_short (lt_of_le_of_lt ?_ rest_short)
      rw [← left, List.length_append]
      exact Nat.le_add_left ..
    | cons b bs =>
      rw [List.flatMap_cons, List.append_assoc] at bits
      obtain ⟨byte, left⟩ := List.append_inj bits (taken _)
      obtain ⟨not_end, bs_no_end⟩ := not_or.1 (mt List.mem_cons.2 no_end)
      rw [first_byte _ byte] at first
      rcases byteEffect_cases b with ⟨dropped, effect⟩ | ⟨is_end, -⟩ | ⟨not_start, -, ascii, effect⟩
      · rw [effect] at first
        rw [messageEvents_cons_of_dropped dropped]
        exact .cons_silent first (ih (w := { w with bitbuf := q.drop 8 }) syms_small decoding left_short bs_no_end left)
      · exact absurd is_end.symm not_end
      · rw [effect] at first
        rw [messageEvents_cons_of_kept not_start ascii]
        exact .cons first (ih (w := { w with bitbuf := q.drop 8, msg := w.msg ++ [Char.ofNat b.toNat] })
          syms_small decoding left_short bs_no_end left)

/-! ### The frame -/

/-- The message with its end marker, cut at the first end marker. -/
theorem exists_cut_at_endMarker (m : List Byte) :
    ∃ after, m ++ [0x03#8] = (m.takeWhile fun b => b != 0x03#8) ++ 0x03#8 :: after ∧ (0x03#8 ∉ m → after = []) := by
  induction m with
  | nil => exact ⟨[], rfl, fun _ => rfl⟩
  | cons b m ih =>
    obtain ⟨after, cut, nothing⟩ := ih
    by_cases is_end : b = 0x03#8
    · subst is_end
      exact ⟨m ++ [0x03#8], by simp, fun absent => absurd List.mem_cons_self absent⟩
    · refine ⟨after, ?_, fun absent => nothing fun hm => absent (List.mem_cons_of_mem _ hm)⟩
      rw [List.takeWhile_cons_of_pos (by simpa using is_end), List.cons_append, cut, List.cons_append]

theorem endMarker_notMem_takeWhile (m : List Byte) : 0x03#8 ∉ m.takeWhile fun b => b != 0x03#8 :=
  fun hm => by simpa using List.mem_takeWhile_imp hm

/-- The data symbols of a message, from the state in which the preamble leaves the receiver (46_receiver_state_machine.md
R237). -/
theorem emitsFirst_dataSymbols {l : Launch} (h : l.Built) (m : List Byte) :
    EmitsFirst l { phase := .decoding, syncbuf := [], bitbuf := [], msg := [] } (dataSymbols l.cfg.bpt m)
      ((decodedText m).map .charOut ++ [.msgDone (decodedText m)]) (0x03#8 ∉ m) := by
  obtain ⟨-, -, -, bpt_ge, -⟩ := CfgValues.legal_iff.1 h.1
  have bpt_pos : 0 < l.cfg.bpt := by omega
  obtain ⟨after, cut, nothing⟩ := exists_cut_at_endMarker m
  have no_end : 0x03#8 ∉ 0x02#8 :: m.takeWhile fun b => b != 0x03#8 :=
    mt List.mem_cons.1 (not_or.2 ⟨by decide, endMarker_notMem_takeWhile m⟩)
  have start_dropped := messageEvents_cons_of_dropped (.inl rfl) [] (m.takeWhile fun b => b != 0x03#8)
  rw [messageEvents, messageEvents, List.nil_append, List.nil_append, ← decodedText_eq] at start_dropped
  have frame_eq : frame m = 0x02#8 :: (m.takeWhile fun b => b != 0x03#8) ++ 0x03#8 :: after := by
    rw [frame, List.append_assoc, Config.endMarker, cut]
    rfl
  rw [← start_dropped]
  refine .mono (emitsFirst_messageEvents h (fun x => mem_sliceSymbols_lt) rfl (by simp) no_end
    (rest := after.flatMap (fun b => bitsOf 8 b.toNat) ++
      List.replicate (padLength l.cfg.bpt (frameBits m).length) false) ?_) fun absent => ?_
  · rw [← dataSymbols, flatMap_dataSymbols bpt_pos, paddedBits, frameBits, frame_eq]
    simp
  · rw [nothing absent]
    simpa using (padLength_spec bpt_pos _).1

/-! ### The text -/

/-- Nothing is cut or dropped exactly when there is nothing to cut or drop: a shorter list is another list. -/
theorem decodedText_eq_map_iff (m : List Byte) :
    decodedText m = (m.map fun b => Char.ofNat b.toNat) ↔
      ∀ b ∈ m, b.toNat ≤ 0x7F ∧ b ≠ 0x02#8 ∧ b ≠ 0x03#8 := by
  have sublist : ((m.takeWhile fun b => b != 0x03#8).filter fun b => b != 0x02#8 && decide (b.toNat ≤ 0x7F)).Sublist m :=
    List.filter_sublist.trans (List.takeWhile_sublist _)
  constructor
  · intro same b hb
    have whole := sublist.eq_of_length (by simpa [decodedText] using congrArg List.length same)
    rw [← whole] at hb
    obtain ⟨before_end, kept⟩ := List.mem_filter.1 hb
    have not_end := List.mem_takeWhile_imp before_end
    simp only [Bool.and_eq_true, bne_iff_ne, decide_eq_true_eq] at kept not_end
    exact ⟨kept.2, kept.1, not_end⟩
  · intro plain
    have uncut : (m.takeWhile fun b => b != 0x03#8) = m :=
      List.takeWhile_eq_self_iff.2 fun b hb => bne_iff_ne.2 (plain b hb).2.2
    rw [decodedText, uncut, List.filter_eq_self.2]
    intro b hb
    obtain ⟨ascii, not_start, -⟩ := plain b hb
    simp [ascii, not_start]

/-- Settles O51: the preamble leaves the receiver decoding with nothing buffered, and then the bits of the data symbols are
the bytes of the frame in order. -/
theorem cleanTransmissionDecodes : Obligations.CleanTransmissionDecodes := by
  intro l m h
  have synced := runReceiver_preamble h none
  exact ⟨⟨_, _, synced⟩, (emitsFirst_dataSymbols h m).append synced, decodedText_eq_map_iff m⟩

end Sys2Proof.Machine
end

section
/-! SUPPORT. 60_exceptions.md R271 and R279: what INIT and the ten commands that need the map answer before a launch. -/

namespace Sys2Proof.Machine

/-! ### The ten commands that need the map -/

/-- The ten commands of 60_exceptions.md R271 go through the acceptance checks before anything else. -/
theorem exists_exec_eq_accept {i : Instr} (h : i.needsLaunch = true) (s : State) :
    ∃ k, exec i s = .next (s.accept k) := by
  cases i with
  | nop | init | stop | reset => cases h
  | mapfwd | maprev | classify | render | encode | send | detect | rxstep | rxchunk | receive => exact ⟨_, rfl⟩

/-- Settles O17: acceptance refuses without a launch, and an unconfigured block has none. -/
theorem unconfiguredCommandsRefused : Obligations.UnconfiguredCommandsRefused := by
  intro s i needs unfaulted unconfigured
  obtain ⟨k, accepts⟩ := exists_exec_eq_accept needs s
  rw [accepts, State.accept_of_no_launch unfaulted (State.launch_unconfigured unconfigured)]
  rfl

/-! ### INIT -/

/-- The values are complete exactly when every register but `WAVEFORM` has been supplied (47_system_ops.md R321). -/
theorem CfgRegs.values_eq_some {c : CfgRegs} {v : CfgValues} :
    c.values = some v ↔ c.seed = some v.seed ∧ c.waveform = v.waveform ∧ c.base = some v.base ∧ c.step = some v.step ∧
      c.n = some v.n ∧ c.bpt = some v.bpt ∧ c.thresh = some v.thresh ∧ c.reps = some v.reps := by
  constructor
  · intro h
    unfold CfgRegs.values at h
    split at h
    · cases h
      exact ⟨‹_›, rfl, ‹_›, ‹_›, ‹_›, ‹_›, ‹_›, ‹_›⟩
    · cases h
  · rintro ⟨seed, waveform, base, step, n, bpt, thresh, reps⟩
    simp [CfgRegs.values, seed, waveform, base, step, n, bpt, thresh, reps]

theorem CfgRegs.initValues_eq_some {c : CfgRegs} {v : CfgValues} :
    c.initValues = some v ↔ c.values = some v ∧ v.legal = true := by
  unfold CfgRegs.initValues
  cases c.values with
  | none => simp
  | some w =>
    by_cases legal : w.legal = true
    · simp only [legal, if_true, Option.some.injEq, iff_self_and]
      exact fun same => same ▸ legal
    · simp only [legal, if_false, reduceCtorEq, false_iff, Option.some.injEq]
      exact fun ⟨same, legal'⟩ => legal (same ▸ legal')

theorem exec_init_of_initValues_eq_none {s : State} (unfaulted : s.faulted = false) (unconfigured : s.configured = false)
    (h : s.cfg.initValues = none) : exec .init s = .next (s.refuse .illegalConfig) := by
  have dispatch : exec .init s = execInit s := rfl
  simp [dispatch, execInit, unfaulted, unconfigured, h]

theorem exec_init_of_configured {s : State} (unfaulted : s.faulted = false) (configured : s.configured = true) :
    exec .init s = .next (s.refuse .refusedAlreadyConfigured) := by
  have dispatch : exec .init s = execInit s := rfl
  simp [dispatch, execInit, unfaulted, configured]

/-- Settles O13: values that INIT could use are all supplied and legal, which each way to fail contradicts. -/
theorem initRefusals : Obligations.InitRefusals := by
  refine ⟨fun s unfaulted unconfigured fails => ?_, fun s => exec_init_of_configured⟩
  refine exec_init_of_initValues_eq_none unfaulted unconfigured (Option.eq_none_iff_forall_ne_some.2 fun v usable => ?_)
  obtain ⟨supplied, legal⟩ := CfgRegs.initValues_eq_some.1 usable
  obtain ⟨seed, waveform, base, step, n, bpt, thresh, reps⟩ := CfgRegs.values_eq_some.1 supplied
  obtain ⟨waveform_le, step_pos, le_n, le_bpt, bpt_le, le_reps⟩ := CfgValues.legal_iff.1 legal
  simp only [seed, waveform, base, step, n, bpt, thresh, reps, reduceCtorEq, false_or, Option.some.injEq,
    exists_eq_left'] at fails
  obtain h | h | h | h | h := fails
  · exact absurd waveform_le h.not_ge
  · exact absurd step_pos h.not_gt
  · exact absurd le_n h.not_ge
  · omega
  · exact absurd le_reps h.not_ge

end Sys2Proof.Machine
end

section
/-! SUPPORT. 46_receiver_state_machine.md R223 to R235, 10_state.md R37, 00_scope.md R19 (c): every answer of the transition
function has one of seven forms, and what the forms keep; when a finite `MSG_CAP` lets it answer; the preamble and nothing
else synchronises. -/

namespace Sys2Proof.Machine

/-! ### The answers of the transition function -/

/-- A symbol of the classification is an index into the table (40_frequency_map.md R112). -/
theorem classify_lt_length {fwd : List Freq} {step f : Freq} {x : Symbol} (h : classify fwd step f = some x) :
    x < fwd.length := by
  rcases classify_cases fwd step f with ⟨g, -, -, found⟩ | ⟨none_found, -⟩
  · obtain ⟨in_table, -⟩ := List.idxOf?_eq_some_iff.1 (found.symm.trans h)
    exact in_table
  · cases none_found.symm.trans h

/-- A byte that is a character is one of `U+0000` to `U+007F` (46_receiver_state_machine.md R231). -/
theorem toNat_le_of_byteEffect_append {b : Byte} {c : Char} (h : byteEffect b = .append c) : c.toNat ≤ 0x7F := by
  rcases byteEffect_cases b with ⟨-, skipped⟩ | ⟨-, finished⟩ | ⟨-, -, ascii, appended⟩
  · cases skipped.symm.trans h
  · cases finished.symm.trans h
  · cases appended.symm.trans h
    exact (toNat_ofNat_ascii ascii).le.trans ascii

/-- The answers of one receiver step in the working state `w`, with the facts that an answer carries: a symbol is an index into
the table, at most seven bits and at most one byte, and only ASCII characters (46_receiver_state_machine.md R224 to R235). -/
inductive RxTransition (l : Launch) (w : Working) : Working → List Event → StepTag → Prop
  | idleSilence : RxTransition l w w [] .idleSilence
  | ignored : RxTransition l w w [] .ignored
  | aborted : RxTransition l w Working.reset [] .aborted
  | synced : RxTransition l w { phase := .decoding, syncbuf := [], bitbuf := [], msg := [] } [] .synced
  | shifted (x : Symbol) (listening : w.phase = .listening) (in_table : x < l.fwd.length) :
      RxTransition l w { w with syncbuf := slide (preambleLength l.cfg.reps) w.syncbuf x } [] .shifted
  | silentBits (q : List Bit) (n : Nat) (decoding : w.phase = .decoding) (short : q.length ≤ 7) (few : n ≤ 1) :
      RxTransition l w { w with bitbuf := q } [] (.data n)
  | char (q : List Bit) (c : Char) (decoding : w.phase = .decoding) (short : q.length ≤ 7) (ascii : c.toNat ≤ 0x7F) :
      RxTransition l w { w with bitbuf := q, msg := w.msg ++ [c] } [.charOut c] (.data 1)
  | completed : RxTransition l w Working.reset [.msgDone w.msg] .completed

theorem stepListening_transition {l : Launch} {w w' : Working} {x : Symbol} {evs : List Event} {tag : StepTag}
    (listening : w.phase = .listening) (in_table : x < l.fwd.length)
    (h : stepListening l.cfg.reps w x = .done w' evs tag) : RxTransition l w w' evs tag := by
  rcases stepListening_cases l.cfg.reps w x with ⟨-, e⟩ | ⟨-, e⟩ <;> cases e.symm.trans h
  · exact .synced
  · exact .shifted x listening in_table

theorem stepDecoding_transition {l : Launch} {cap : Option Nat} {w w' : Working} {x : Symbol} {evs : List Event}
    {tag : StepTag} (decoding : w.phase = .decoding) (hb : l.cfg.bpt ≤ 8) (hw : w.bitbuf.length ≤ 7)
    (h : stepDecoding l.cfg.bpt cap w x = .done w' evs tag) : RxTransition l w w' evs tag := by
  have left_short : ((w.bitbuf ++ bitsOf l.cfg.bpt x).drop 8).length ≤ 7 := by
    rw [List.length_drop, List.length_append, bitsOf_length]
    omega
  rcases stepDecoding_cases cap x hb hw with
    ⟨short, e⟩ | ⟨-, ⟨-, e⟩ | ⟨-, e⟩ | ⟨c, effect, ⟨-, e⟩ | ⟨-, e⟩⟩⟩ <;> cases e.symm.trans h
  · exact .silentBits _ 0 decoding (Nat.le_of_lt_succ short) zero_le_one
  · exact .silentBits _ 1 decoding left_short le_rfl
  · exact .completed
  · exact .char _ c decoding left_short (toNat_le_of_byteEffect_append effect)

/-- What the transition function can answer, when a symbol is at most eight bits and at most seven are buffered
(46_receiver_state_machine.md R223). -/
theorem rxStep_transition {l : Launch} {cap : Option Nat} {w w' : Working} {d : Detection} {evs : List Event} {tag : StepTag}
    (hb : l.cfg.bpt ≤ 8) (hw : w.bitbuf.length ≤ 7) (h : rxStep l cap w d = .done w' evs tag) :
    RxTransition l w w' evs tag := by
  rcases rxStep_cases l cap w d with
    ⟨-, -, e⟩ | ⟨-, -, e⟩ | ⟨f, p, -, ⟨-, e⟩ | ⟨x, hx, ⟨listening, e⟩ | ⟨decoding, e⟩⟩⟩ <;> replace h := e.symm.trans h
  · cases h; exact .aborted
  · cases h; exact .idleSilence
  · cases h; exact .ignored
  · exact stepListening_transition listening (classify_lt_length hx) h
  · exact stepDecoding_transition decoding hb hw h

/-! ### What every answer keeps -/

theorem Working.inv_reset (reps : Nat) : Working.reset.Inv reps :=
  ⟨fun _ => ⟨rfl, rfl⟩, nofun, Nat.zero_le _, Nat.zero_le _⟩

theorem Working.typed_reset (bpt : Nat) : Working.reset.Typed bpt := ⟨nofun, nofun⟩

/-- The characters of an event are at most `U+007F` (60_exceptions.md R266). -/
def Event.Ascii : Event → Prop
  | .charOut c => c.toNat ≤ 0x7F
  | .msgDone t => ∀ c ∈ t, c.toNat ≤ 0x7F
  | .status _ => True

theorem RxTransition.inv {l : Launch} {w w' : Working} {evs : List Event} {tag : StepTag} (h : RxTransition l w w' evs tag)
    (inv : w.Inv l.cfg.reps) : w'.Inv l.cfg.reps := by
  obtain ⟨listening_bits, decoding_sync, sync_length, bits_length⟩ := inv
  cases h with
  | idleSilence | ignored => exact ⟨listening_bits, decoding_sync, sync_length, bits_length⟩
  | aborted | completed => exact Working.inv_reset _
  | synced => exact ⟨nofun, fun _ => rfl, Nat.zero_le _, Nat.zero_le _⟩
  | shifted x listening _ =>
    have not_longer := (slide_spec x sync_length).2.trans_le (Nat.min_le_right _ _)
    exact ⟨listening_bits, fun decoding => (nomatch listening.symm.trans decoding), not_longer, bits_length⟩
  | silentBits q n decoding short _ =>
    exact ⟨fun listening => (nomatch decoding.symm.trans listening), decoding_sync, sync_length, short⟩
  | char q c decoding short _ =>
    exact ⟨fun listening => (nomatch decoding.symm.trans listening), decoding_sync, sync_length, short⟩

theorem RxTransition.typed {l : Launch} {w w' : Working} {evs : List Event} {tag : StepTag} (h : RxTransition l w w' evs tag)
    (full_table : l.fwd.length = symbolSpace l.cfg.bpt) (short : w.syncbuf.length ≤ preambleLength l.cfg.reps)
    (typed : w.Typed l.cfg.bpt) : w'.Typed l.cfg.bpt := by
  obtain ⟨symbols_small, chars_ascii⟩ := typed
  cases h with
  | idleSilence | ignored => exact ⟨symbols_small, chars_ascii⟩
  | aborted | completed => exact Working.typed_reset _
  | synced => exact ⟨nofun, nofun⟩
  | shifted x _ in_table =>
    refine ⟨fun y hy => ?_, chars_ascii⟩
    rcases List.mem_append.1 ((slide_spec x short).1.subset hy) with old | new
    · exact symbols_small y old
    · rw [List.mem_singleton.1 new, ← full_table]
      exact in_table
  | silentBits => exact ⟨symbols_small, chars_ascii⟩
  | char q c _ _ ascii =>
    refine ⟨symbols_small, fun y hy => ?_⟩
    rcases List.mem_append.1 hy with old | new
    · exact chars_ascii y old
    · rw [List.mem_singleton.1 new]
      exact ascii

theorem RxTransition.events_ascii {l : Launch} {w w' : Working} {evs : List Event} {tag : StepTag}
    (h : RxTransition l w w' evs tag) (chars_ascii : ∀ c ∈ w.msg, c.toNat ≤ 0x7F) : ∀ e ∈ evs, e.Ascii := by
  cases h with
  | idleSilence | ignored | aborted | synced | shifted | silentBits => exact nofun
  | char q c _ _ ascii => exact List.forall_mem_singleton.2 ascii
  | completed => exact List.forall_mem_singleton.2 chars_ascii

theorem RxTransition.bounds {l : Launch} {w w' : Working} {evs : List Event} {tag : StepTag} (h : RxTransition l w w' evs tag)
    (hw : w.bitbuf.length ≤ 7) : w'.bitbuf.length ≤ 7 ∧ evs.length ≤ 1 ∧ ∀ n, tag = .data n → n ≤ 1 := by
  cases h with
  | idleSilence | ignored | shifted => exact ⟨hw, zero_le_one, nofun⟩
  | aborted | synced => exact ⟨Nat.zero_le _, zero_le_one, nofun⟩
  | silentBits q n _ short few => exact ⟨short, zero_le_one, by rintro _ ⟨⟩; exact few⟩
  | char q c _ short _ => exact ⟨short, le_rfl, by rintro _ ⟨⟩; exact le_rfl⟩
  | completed => exact ⟨Nat.zero_le _, le_rfl, nofun⟩

/-- Settles O57: each form of answer keeps the clauses. -/
theorem workingStateInvariantKept : Obligations.WorkingStateInvariantKept := by
  intro l cap w w' d evs tag legal full_table inv typed h
  obtain ⟨-, -, -, -, bpt_le, -⟩ := CfgValues.legal_iff.1 legal
  have answer := rxStep_transition bpt_le inv.bits_length h
  have ascii := answer.events_ascii typed.chars_ascii
  exact ⟨answer.inv inv, answer.typed full_table inv.sync_length typed, fun _ => ascii _, fun _ => ascii _⟩

/-- Settles O49: in both phases at most seven bits are buffered before the step. -/
theorem receiverStepBounds : Obligations.ReceiverStepBounds := by
  intro l cap w w' d evs tag hb decoding_bits listening_bits h
  have hw : w.bitbuf.length ≤ 7 := by
    cases phase : w.phase with
    | listening => rw [listening_bits phase]; exact Nat.zero_le _
    | decoding => exact decoding_bits phase
  exact (rxStep_transition hb hw h).bounds hw

/-! ### A finite capacity -/

theorem msgFull_some {cap len : Nat} : msgFull (some cap) len = decide (cap ≤ len) := rfl

/-- While the message has room the transition function answers (46_receiver_state_machine.md R231). -/
theorem exists_rxStep_of_room {l : Launch} {cap : Option Nat} {w : Working} (hb : l.cfg.bpt ≤ 8) (hw : w.bitbuf.length ≤ 7)
    (room : msgFull cap w.msg.length = false) (d : Detection) : ∃ w' evs tag, rxStep l cap w d = .done w' evs tag := by
  rcases rxStep_cases l cap w d with ⟨-, -, e⟩ | ⟨-, -, e⟩ | ⟨f, p, -, ⟨-, e⟩ | ⟨x, -, ⟨-, e⟩ | ⟨-, e⟩⟩⟩
  · exact ⟨_, _, _, e⟩
  · exact ⟨_, _, _, e⟩
  · exact ⟨_, _, _, e⟩
  · rcases stepListening_cases l.cfg.reps w x with ⟨-, synced⟩ | ⟨-, shifted⟩
    · exact ⟨_, _, _, e.trans synced⟩
    · exact ⟨_, _, _, e.trans shifted⟩
  · rcases stepDecoding_cases cap x hb hw with
      ⟨-, kept⟩ | ⟨-, ⟨-, skipped⟩ | ⟨-, finished⟩ | ⟨c, -, ⟨full, -⟩ | ⟨-, appended⟩⟩⟩
    · exact ⟨_, _, _, e.trans kept⟩
    · exact ⟨_, _, _, e.trans skipped⟩
    · exact ⟨_, _, _, e.trans finished⟩
    · cases room.symm.trans full
    · exact ⟨_, _, _, e.trans appended⟩

/-- The first popped byte that is a character of a full message ends the loop, however many bits are buffered
(46_receiver_state_machine.md R231; 60_exceptions.md R270). -/
theorem popBytes_overflow {cap : Option Nat} {w : Working} {c : Char} (bits : 8 ≤ w.bitbuf.length)
    (effect : byteEffect (popByte w.bitbuf) = .append c) (full : msgFull cap w.msg.length = true)
    (fuel n : Nat) (evs : List Event) : popBytes cap (fuel + 1) w n evs = .msgOverflow := by
  simp only [popBytes, if_neg bits.not_gt, effect, full, if_true]

/-- A symbol that completes a character of a full message overflows (60_exceptions.md R270). -/
theorem stepDecoding_overflow {bpt : Nat} {cap : Option Nat} {w : Working} {x : Symbol} {b : Byte}
    (byte : (w.bitbuf ++ bitsOf bpt x).take 8 = bitsOf 8 b.toNat) (not_start : b ≠ 0x02#8) (not_end : b ≠ 0x03#8)
    (ascii : b.toNat ≤ 0x7F) (full : msgFull cap w.msg.length = true) : stepDecoding bpt cap w x = .msgOverflow := by
  have bits : 8 ≤ (w.bitbuf ++ bitsOf bpt x).length := by
    have taken := congrArg List.length byte
    rw [List.length_take, bitsOf_length] at taken
    omega
  have effect : byteEffect (popByte (w.bitbuf ++ bitsOf bpt x)) = .append (Char.ofNat b.toNat) := by
    rw [popByte_eq byte, byteEffect_eq_append not_start not_end ascii]
  obtain ⟨fuel, hfuel⟩ : ∃ fuel, (w.bitbuf ++ bitsOf bpt x).length / 8 = fuel + 1 :=
    Nat.exists_eq_succ_of_ne_zero (by omega)
  rw [stepDecoding, hfuel]
  exact popBytes_overflow (w := { w with bitbuf := w.bitbuf ++ bitsOf bpt x }) bits effect full fuel 0 []

/-! ### Only the preamble synchronises -/

theorem preamble_eq_flatten (reps : Nat) : preamble reps = (List.replicate reps [10, 5]).flatten := rfl

/-- As many clean symbols as the preamble has, but other ones: they are all buffered, and nothing is synchronised. -/
theorem runReceiver_of_ne_preamble {l : Launch} (h : l.Built) (cap : Option Nat) {syms : List Symbol}
    (small : ∀ x ∈ syms, x < symbolSpace l.cfg.bpt) (length_eq : syms.length = preambleLength l.cfg.reps)
    (differs : syms ≠ preamble l.cfg.reps) :
    ∃ tags, runReceiver l cap Working.reset (cleanTones l syms) = some ({ Working.reset with syncbuf := syms }, [], tags) := by
  rcases List.eq_nil_or_concat' syms with rfl | ⟨pre, x, rfl⟩
  · exact ⟨[], rfl⟩
  rw [List.length_append, List.length_singleton] at length_eq
  have before : runReceiver l cap Working.reset (cleanTones l pre) = _ :=
    runReceiver_of_short h cap rfl (fun y hy => small y (List.mem_append_left _ hy))
      (by rw [Working.reset, List.length_nil]; omega)
  have last := rxStep_symbol_of_listening (w := { Working.reset with syncbuf := pre }) rfl
    (h.classify_getD (small x (by simp))) cap 0
  have slid : slide (preambleLength l.cfg.reps) pre x = pre ++ [x] := slide_of_length_lt (by omega) x
  rcases stepListening_cases l.cfg.reps { Working.reset with syncbuf := pre } x with ⟨matched, -⟩ | ⟨-, shifted⟩
  · exact absurd (slid.symm.trans matched) differs
  · rw [shifted, slid] at last
    have run := runReceiver_append before (runReceiver_cons last (runReceiver_nil ..))
    rw [← cleanTones_nil l, ← cleanTones_cons, ← cleanTones_append] at run
    exact ⟨_, run⟩

/-- Settles O47: the preamble synchronises at its last symbol, and any other `L` symbols leave the receiver listening. -/
theorem preambleExactness : Obligations.PreambleExactness := by
  intro l cap syms h length_eq small
  rw [← preamble_eq_flatten]
  by_cases same : syms = preamble l.cfg.reps
  · subst same
    exact ⟨_, _, runReceiver_preamble h cap, ⟨fun _ => rfl, fun _ => rfl⟩, fun _ => ⟨rfl, rfl⟩⟩
  · obtain ⟨tags, run⟩ := runReceiver_of_ne_preamble h cap small length_eq same
    exact ⟨_, tags, run, ⟨nofun, fun other => absurd other same⟩, fun other => absurd other same⟩

end Sys2Proof.Machine
end

section
/-! SUPPORT. 30_encoding.md R86 and 60_exceptions.md R269 to R273: the next states that a command can have, said once, so that a
fact about every command is a case analysis of these. -/

namespace Sys2Proof.Machine

theorem State.busy_eq_false_iff {s : State} : s.busy = false ↔ s.running = false ∧ s.portWait = .idle := by
  simp [State.busy]

/-- A read that begins returns at once or waits (20_memory.md R51). -/
theorem State.enterRead_cases (s : State) (l : Launch) :
    (l.cfg.n ≤ s.rx.length ∧ s.enterRead l = State.finishRead { s with portWait := .rxRead } l) ∨
    (s.rx.length < l.cfg.n ∧ s.enterRead l = { s with portWait := .rxRead }) := by
  rcases le_or_gt l.cfg.n s.rx.length with there | missing
  · exact .inl ⟨there, if_pos (decide_eq_true there)⟩
  · exact .inr ⟨missing, if_neg (by simpa [State.chunkReady] using missing)⟩

/-- The next states of a command given in the state `s`, each with what the model has tested before it. -/
inductive CommandOutcome (s : State) : State → Prop
  | nop : CommandOutcome s { s with status := okCode, statusValue := .none }
  | reset : CommandOutcome s s.succeed.toReset
  | stopRequested : CommandOutcome s s.setStop.succeed
  | configured (v : CfgValues) (usable : s.cfg.initValues = some v) :
      CommandOutcome s (State.succeed
        { s with fwd := buildMap v.seed v.bpt v.base v.step, work := Working.reset, configured := true })
  | refused (c : Cause) : CommandOutcome s (s.refuse c)
  | answered (r : ResultVal) : CommandOutcome s (s.answer r)
  | handedOver (l : Launch) (ready : s.Ready l) (syms : List Symbol) :
      CommandOutcome s { s with portWait := .txWrite (waveform s.params.hannForm l syms) }
  | stepped (l : Launch) (ready : s.Ready l) (d : Detection) (w : Working) (evs : List Event) (tag : StepTag)
      (step : rxStep l s.params.msgCap s.work d = .done w evs tag) :
      CommandOutcome s ((State.emit { s with work := w } evs).answer (.tag tag))
  | waiting (l : Launch) (ready : s.Ready l) : CommandOutcome s { s with portWait := .rxRead }
  | chunkRead (l : Launch) (ready : s.Ready l) : CommandOutcome s (State.finishRead { s with portWait := .rxRead } l)
  | receiving (l : Launch) (ready : s.Ready l) : CommandOutcome s { s with running := true, work := Working.reset }
  | faulted (l : Launch) (ready : s.Ready l) (c : Cause) (code : c.code = 4#4 ∨ c.code = 11#4) :
      CommandOutcome s (s.fatal c)
  | receiveFaulted (l : Launch) (ready : s.Ready l) (c : Cause) (code : c.code = 4#4 ∨ c.code = 11#4) :
      CommandOutcome s (s.fatalReceive c)

theorem CommandOutcome.accept {s : State} {k : Launch → State} (hk : ∀ l, s.Ready l → CommandOutcome s (k l)) :
    CommandOutcome s (s.accept k) := by
  rcases s.accept_cases k with ⟨-, e⟩ | ⟨-, -, e⟩ | ⟨l, ready, e⟩
  · rw [e]; exact .refused _
  · rw [e]; exact .refused _
  · rw [e]; exact hk l ready

theorem CommandOutcome.withOperand {α : Type} {s : State} {o : Option α} {k : α → State}
    (hk : ∀ a, CommandOutcome s (k a)) : CommandOutcome s (s.withOperand o k) := by
  rcases s.withOperand_cases o k with e | ⟨a, -, e⟩
  · rw [e]; exact .refused _
  · rw [e]; exact hk a

theorem CommandOutcome.txWrite {s : State} {l : Launch} (ready : s.Ready l) (syms : List Symbol) :
    CommandOutcome s (s.txWrite (waveform s.params.hannForm l syms)) := by
  rcases s.txWrite_cases (waveform s.params.hannForm l syms) with ⟨-, e⟩ | ⟨-, e⟩
  · rw [e]; exact .handedOver l ready syms
  · rw [e]; exact .faulted l ready _ (.inl rfl)

theorem CommandOutcome.enterRead {s : State} {l : Launch} (ready : s.Ready l) : CommandOutcome s (s.enterRead l) := by
  rcases s.enterRead_cases l with ⟨-, e⟩ | ⟨-, e⟩
  · rw [e]; exact .chunkRead l ready
  · rw [e]; exact .waiting l ready

/-- What the fourteen commands can do. -/
theorem exec_outcome {s t : State} {i : Instr} (h : exec i s = .next t) : CommandOutcome s t := by
  cases i with
  | nop => cases h; exact .nop
  | reset => cases h; exact .reset
  | stop =>
    cases h
    split
    · exact .refused _
    · exact .stopRequested
  | init =>
    cases h
    split
    · exact .refused _
    split
    · exact .refused _
    split
    · exact .refused _
    next v usable => exact .configured v usable
  | mapfwd | maprev | classify | render | detect =>
    cases h
    exact .accept fun _ _ => .withOperand fun _ => .answered _
  | encode =>
    cases h
    refine .accept fun l _ => .withOperand fun m => ?_
    dsimp only
    split
    · exact .refused _
    · exact .answered _
  | send =>
    cases h
    refine .accept fun l ready => .withOperand fun m => ?_
    dsimp only
    split
    · exact .refused _
    · exact .txWrite ready _
  | rxstep =>
    cases h
    refine .accept fun l ready => .withOperand fun d => ?_
    split
    next w evs tag step => exact .stepped l ready d w evs tag step
    · exact .faulted l ready _ (.inr rfl)
  | rxchunk =>
    cases h
    refine .accept fun l ready => ?_
    split
    · exact .enterRead ready
    · exact .faulted l ready _ (.inl rfl)
  | receive =>
    cases h
    refine .accept fun l ready => ?_
    split
    · exact .receiving l ready
    · exact .receiveFaulted l ready _ (.inl rfl)

end Sys2Proof.Machine
end

section
/-! SUPPORT. 10_state.md sections 3 to 5 and 60_exceptions.md R273: each operation of the model keeps the invariant of the whole
block, and so does every step. -/

namespace Sys2Proof.Machine

/-! ### What the invariant reads -/

/-- `t` has everything of `s` that the invariant reads: the configuration, the working state, the status bits and the port. -/
def State.ControlKept (s t : State) : Prop :=
  s.ConfigKept t ∧ t.work = s.work ∧ t.running = s.running ∧ t.portWait = s.portWait ∧ t.faulted = s.faulted ∧
    t.faultCause = s.faultCause ∧ t.tx = s.tx

theorem State.Inv.congr {s t : State} (inv : s.Inv) (kept : s.ControlKept t) : t.Inv := by
  obtain ⟨⟨cfg, fwd, configured⟩, work, running, portWait, faulted, faultCause, tx⟩ := kept
  have launch := State.launch_congr configured cfg fwd
  obtain ⟨configured_built, unconfigured_idle, working, fault_cause, fault_idle, no_duplex, tx_scale⟩ := inv
  constructor
  · rwa [configured, launch]
  · rwa [configured, fwd, work, running, portWait]
  · rwa [launch, work]
  · rwa [faulted, faultCause, configured]
  · rwa [faulted, running, portWait]
  · rwa [portWait, running]
  · rwa [tx]

theorem State.Inv.report {s : State} (inv : s.Inv) (c : Code) (v : CauseValue) : (s.report c v).Inv :=
  inv.congr ⟨⟨rfl, rfl, rfl⟩, rfl, rfl, rfl, rfl, rfl, rfl⟩

theorem State.Inv.refuse {s : State} (inv : s.Inv) (c : Cause) : (s.refuse c).Inv := inv.report _ _

theorem State.Inv.answer {s : State} (inv : s.Inv) (r : ResultVal) : (s.answer r).Inv :=
  inv.congr ⟨⟨rfl, rfl, rfl⟩, rfl, rfl, rfl, rfl, rfl, rfl⟩

theorem State.Inv.emit {s : State} (inv : s.Inv) (es : List Event) : (s.emit es).Inv :=
  inv.congr ⟨⟨rfl, rfl, rfl⟩, rfl, rfl, rfl, rfl, rfl, rfl⟩

theorem State.Inv.setStop {s : State} (inv : s.Inv) : s.setStop.Inv :=
  inv.congr ⟨⟨rfl, rfl, rfl⟩, rfl, rfl, rfl, rfl, rfl, rfl⟩

theorem State.Inv.setRx {s : State} (inv : s.Inv) (rx : List Sample) : State.Inv { s with rx := rx } :=
  inv.congr ⟨⟨rfl, rfl, rfl⟩, rfl, rfl, rfl, rfl, rfl, rfl⟩

theorem State.Inv.setMoves {s : State} (inv : s.Inv) (ms : List HostMove) : State.Inv { s with moves := ms } :=
  inv.congr ⟨⟨rfl, rfl, rfl⟩, rfl, rfl, rfl, rfl, rfl, rfl⟩

theorem State.Inv.present {s : State} (inv : s.Inv) (c : Command) (rest : List Command) : (s.present c rest).Inv :=
  inv.congr ⟨⟨rfl, rfl, rfl⟩, rfl, rfl, rfl, rfl, rfl, rfl⟩

/-! ### The reset values, and what writes the configuration -/

/-- A block at its reset values meets the invariant (10_state.md R45). -/
theorem State.inv_of_reset_values {t : State} (configured : t.configured = false) (fwd : t.fwd = [])
    (work : t.work = Working.reset) (running : t.running = false) (portWait : t.portWait = .idle)
    (faulted : t.faulted = false) (faultCause : t.faultCause = 0#4) (tx : t.tx = []) : t.Inv where
  configured_built h := by cases configured.symm.trans h
  unconfigured_idle _ := ⟨fwd, work, running, portWait⟩
  working l h := by cases (State.launch_unconfigured configured).symm.trans h
  fault_cause := ⟨fun _ => faultCause, fun h => by cases faulted.symm.trans h⟩
  fault_idle h := by cases faulted.symm.trans h
  no_duplex wave h := by cases portWait.symm.trans h
  tx_scale wave h := by rw [tx] at h; cases h

/-- Settles O59. -/
theorem resetSatisfiesInvariant : Obligations.ResetSatisfiesInvariant :=
  State.inv_of_reset_values rfl rfl rfl rfl rfl rfl rfl rfl

theorem State.inv_toReset (s : State) : s.toReset.Inv :=
  State.inv_of_reset_values rfl rfl rfl rfl rfl rfl rfl rfl

/-- A host write of an unconfigured block changes a configuration that no launch reads yet (70_reset_and_hazards.md R300). -/
theorem State.Inv.writeCfg {s : State} (inv : s.Inv) (w : CfgWrite) : (s.writeCfg w).Inv := by
  unfold State.writeCfg
  split
  · exact inv
  next unconfigured =>
    rw [Bool.not_eq_true] at unconfigured
    have no_launch : State.launch { s with cfg := s.cfg.write w } = none := State.launch_unconfigured unconfigured
    obtain ⟨-, unconfigured_idle, -, fault_cause, fault_idle, no_duplex, tx_scale⟩ := inv
    exact ⟨fun h => (nomatch unconfigured.symm.trans h), unconfigured_idle, fun l h => (nomatch no_launch.symm.trans h),
      fault_cause, fault_idle, no_duplex, tx_scale⟩

/-- The state that INIT leaves has the launch of the legal configuration and the map built from it (47_system_ops.md R321). -/
theorem State.Inv.configure {s : State} (inv : s.Inv) {v : CfgValues} (hv : s.cfg.initValues = some v) :
    State.Inv { s with fwd := buildMap v.seed v.bpt v.base v.step, work := Working.reset, configured := true } := by
  obtain ⟨values, legal⟩ := CfgRegs.initValues_eq_some.1 hv
  have launch : State.launch
      { s with fwd := buildMap v.seed v.bpt v.base v.step, work := Working.reset, configured := true } =
      some { cfg := v, fwd := buildMap v.seed v.bpt v.base v.step } :=
    State.launch_eq_some.2 ⟨rfl, values, legal, rfl, buildMap_length ..⟩
  obtain ⟨-, -, -, ⟨no_cause, cause⟩, fault_idle, no_duplex, tx_scale⟩ := inv
  exact ⟨fun _ => ⟨_, launch, legal, rfl⟩, nofun, fun l _ => ⟨Working.inv_reset _, Working.typed_reset _⟩,
    ⟨no_cause, fun h => ⟨(cause h).1, rfl⟩⟩, fault_idle, no_duplex, tx_scale⟩

/-! ### The working state, the loop and the waits -/

theorem State.Inv.setWork {s : State} (inv : s.Inv) {l : Launch} (hl : s.launch = some l) {w : Working}
    (hinv : w.Inv l.cfg.reps) (htyped : w.Typed l.cfg.bpt) : State.Inv { s with work := w } := by
  have configured := (State.launch_eq_some.1 hl).1
  obtain ⟨configured_built, -, -, fault_cause, fault_idle, no_duplex, tx_scale⟩ := inv
  refine ⟨configured_built, fun h => (nomatch configured.symm.trans h), fun l' hl' => ?_,
    fault_cause, fault_idle, no_duplex, tx_scale⟩
  cases hl.symm.trans hl'
  exact ⟨hinv, htyped⟩

theorem State.Inv.endWait {s : State} (inv : s.Inv) : State.Inv { s with portWait := .idle } := by
  obtain ⟨configured_built, unconfigured_idle, working, fault_cause, fault_idle, -, tx_scale⟩ := inv
  refine ⟨configured_built, fun h => ?_, working, fault_cause, fun h => ⟨(fault_idle h).1, rfl⟩, nofun, tx_scale⟩
  obtain ⟨fwd, work, running, -⟩ := unconfigured_idle h
  exact ⟨fwd, work, running, rfl⟩

theorem State.Inv.waitRead {s : State} (inv : s.Inv) {l : Launch} (h : s.Ready l) :
    State.Inv { s with portWait := .rxRead } := by
  have configured := (State.launch_eq_some.1 h.2).1
  obtain ⟨configured_built, -, working, fault_cause, -, -, tx_scale⟩ := inv
  exact ⟨configured_built, fun h' => (nomatch configured.symm.trans h'), working, fault_cause,
    fun h' => (nomatch h.1.symm.trans h'), nofun, tx_scale⟩

theorem State.Inv.waitTx {s : State} (inv : s.Inv) {l : Launch} (h : s.Ready l) (idle : s.running = false)
    {wave : List Sample} (scale : WithinScale wave) : State.Inv { s with portWait := .txWrite wave } := by
  have configured := (State.launch_eq_some.1 h.2).1
  obtain ⟨configured_built, -, working, fault_cause, -, -, tx_scale⟩ := inv
  refine ⟨configured_built, fun h' => (nomatch configured.symm.trans h'), working, fault_cause,
    fun h' => (nomatch h.1.symm.trans h'), fun wave' h' => ?_, tx_scale⟩
  cases h'
  exact ⟨idle, scale⟩

theorem State.Inv.startReceive {s : State} (inv : s.Inv) {l : Launch} (h : s.Ready l) (idle : s.portWait = .idle) :
    State.Inv { s with running := true, work := Working.reset } := by
  have configured := (State.launch_eq_some.1 h.2).1
  obtain ⟨configured_built, -, -, fault_cause, -, -, tx_scale⟩ := inv
  exact ⟨configured_built, fun h' => (nomatch configured.symm.trans h'),
    fun _ _ => ⟨Working.inv_reset _, Working.typed_reset _⟩, fault_cause,
    fun h' => (nomatch h.1.symm.trans h'), fun wave h' => (nomatch idle.symm.trans h'), tx_scale⟩

theorem State.Inv.leaveReceive {s : State} (inv : s.Inv) : s.leaveReceive.Inv := by
  obtain ⟨configured_built, unconfigured_idle, -, fault_cause, fault_idle, no_duplex, tx_scale⟩ := inv
  refine ⟨configured_built, fun h => ?_, fun _ _ => ⟨Working.inv_reset _, Working.typed_reset _⟩, fault_cause,
    fun h => ⟨rfl, (fault_idle h).2⟩, fun wave h => ⟨rfl, (no_duplex wave h).2⟩, tx_scale⟩
  obtain ⟨fwd, -, -, portWait⟩ := unconfigured_idle h
  exact ⟨fwd, rfl, rfl, portWait⟩

/-! ### Fatal causes and the TX port -/

/-- The two fatal causes that a block in a launch can take (60_exceptions.md R260, R273). -/
theorem State.Inv.fatal {s : State} (inv : s.Inv) {l : Launch} (hl : s.launch = some l) {c : Cause}
    (code : c.code = 4#4 ∨ c.code = 11#4) : (s.fatal c).Inv := by
  have configured := (State.launch_eq_some.1 hl).1
  obtain ⟨configured_built, -, working, -, -, -, tx_scale⟩ := inv
  exact ⟨configured_built, fun h => (nomatch configured.symm.trans h), working, ⟨nofun, fun _ => ⟨code, configured⟩⟩,
    fun _ => ⟨rfl, rfl⟩, nofun, tx_scale⟩

theorem State.Inv.fatalReceive {s : State} (inv : s.Inv) {l : Launch} (hl : s.launch = some l) {c : Cause}
    (code : c.code = 4#4 ∨ c.code = 11#4) : (s.fatalReceive c).Inv :=
  inv.leaveReceive.fatal (s := s.leaveReceive) hl code

/-- Every waveform is made of rendered samples (44_modulator_send.md R191; 42_tone_synthesizer.md R158). -/
theorem withinScale_waveform (form : Config.HannForm) (l : Launch) (syms : List Symbol) :
    WithinScale (waveform form l syms) := by
  intro y hy
  obtain ⟨x, -, in_chunk⟩ := List.mem_flatMap.1 hy
  exact withinScale_render _ _ _ _ y in_chunk

/-- The accepted waveform was within range while the block waited (20_memory.md R50). -/
theorem State.Inv.acceptTx {s : State} (inv : s.Inv) : s.acceptTx.Inv := by
  unfold State.acceptTx
  split
  next wave pending =>
    have idle := inv.endWait
    refine State.Inv.report (s := { s with portWait := .idle, tx := s.tx ++ [wave] })
      ⟨idle.configured_built, idle.unconfigured_idle, idle.working, idle.fault_cause, idle.fault_idle, nofun, ?_⟩ _ _
    exact List.forall_mem_append.2 ⟨inv.tx_scale, List.forall_mem_singleton.2 (inv.no_duplex wave pending).2⟩
  · exact inv

/-! ### The receiver -/

theorem State.Inv.rxStep {s : State} (inv : s.Inv) {l : Launch} (hl : s.launch = some l) {cap : Option Nat} {d : Detection}
    {w : Working} {evs : List Event} {tag : StepTag} (h : Machine.rxStep l cap s.work d = .done w evs tag) :
    State.Inv { s with work := w } := by
  obtain ⟨-, -, legal, fwd, length_eq⟩ := State.launch_eq_some.1 hl
  obtain ⟨work_inv, typed⟩ := inv.working l hl
  obtain ⟨inv', typed', -⟩ := workingStateInvariantKept l cap _ _ d evs tag legal (fwd ▸ length_eq) work_inv typed h
  exact inv.setWork hl inv' typed'

theorem State.Inv.finishRead {s : State} (inv : s.Inv) {l : Launch} (hl : s.launch = some l) : (s.finishRead l).Inv := by
  have read : State.Inv { s with rx := s.rx.drop l.cfg.n, portWait := .idle } := inv.endWait.setRx _
  rcases s.finishRead_cases l with ⟨w, evs, tag, step, ⟨-, e⟩ | ⟨-, e⟩⟩ | ⟨-, ⟨-, e⟩ | ⟨-, e⟩⟩
  · rw [e]; exact (read.rxStep hl step).emit evs
  · rw [e]; exact ((read.rxStep hl step).emit evs).answer (.tag tag)
  · rw [e]; exact read.fatalReceive hl (.inr rfl)
  · rw [e]; exact read.fatal hl (.inr rfl)

/-- What a busy block does by itself keeps the invariant: a block inside RECEIVE is not faulted. -/
theorem State.Inv.advance {s : State} (inv : s.Inv) : s.advance.Inv := by
  have unfaulted (running : s.running = true) : s.faulted = false := by
    by_contra faulted
    cases (inv.fault_idle (by simpa using faulted)).1.symm.trans running
  rcases s.advance_cases with
    e | ⟨l, hl, ⟨-, -, e⟩ | ⟨-, running, ⟨-, e⟩ | ⟨-, -, e⟩ | ⟨-, -, e⟩⟩⟩
  · rw [e]; exact inv
  · rw [e]; exact inv.finishRead hl
  · rw [e]; exact inv.leaveReceive.report _ _
  · rw [e]; exact inv.waitRead ⟨unfaulted running, hl⟩
  · rw [e]; exact (inv.waitRead ⟨unfaulted running, hl⟩).finishRead hl

/-! ### The commands and the step -/

/-- Every command of an idle block keeps the invariant. -/
theorem State.Inv.command {s t : State} (inv : s.Inv) (idle : s.busy = false) (h : CommandOutcome s t) : t.Inv := by
  obtain ⟨not_running, no_wait⟩ := State.busy_eq_false_iff.1 idle
  cases h with
  | nop => exact inv.congr ⟨⟨rfl, rfl, rfl⟩, rfl, rfl, rfl, rfl, rfl, rfl⟩
  | reset => exact State.inv_toReset _
  | stopRequested => exact inv.setStop.report _ _
  | configured v usable => exact (inv.configure usable).report _ _
  | refused c => exact inv.refuse c
  | answered r => exact inv.answer r
  | handedOver l ready syms => exact inv.waitTx ready not_running (withinScale_waveform _ _ _)
  | stepped l ready d w evs tag step => exact ((inv.rxStep ready.2 step).emit evs).answer _
  | waiting l ready => exact inv.waitRead ready
  | chunkRead l ready => exact (inv.waitRead ready).finishRead ready.2
  | receiving l ready => exact inv.startReceive ready no_wait
  | faulted l ready c code => exact inv.fatal ready.2 code
  | receiveFaulted l ready c code => exact inv.fatalReceive ready.2 code

theorem State.Inv.hostMove {s : State} (inv : s.Inv) (m : HostMove) : (s.hostMove m).Inv := by
  cases m with
  | run => exact inv
  | writeCfg w => exact inv.writeCfg w
  | supply c => exact inv.setRx _
  | acceptTx => exact inv.acceptTx
  | setPort p opens => cases p <;> exact inv.congr ⟨⟨rfl, rfl, rfl⟩, rfl, rfl, rfl, rfl, rfl, rfl⟩
  | stopLine => exact inv.setStop
  | resetLine => exact s.inv_toReset

/-- Settles O58: the host's moves, the busy block's own steps and the commands of an idle block each keep the invariant. -/
theorem stepKeepsInvariant : Obligations.StepKeepsInvariant := by
  intro s s' inv h
  rcases step_cases h with
    ⟨m, ms, -, -, rfl⟩ | ⟨ms, -, ⟨-, rfl⟩ | ⟨-, -, rfl⟩ | ⟨idle, c, rest, i, -, -, run⟩ | ⟨-, c, rest, w, -, -, rfl⟩⟩
  · exact (inv.setMoves ms).hostMove m
  · exact (inv.setMoves ms).advance
  · exact inv.setMoves ms
  · exact ((inv.setMoves ms).present c rest).command idle (exec_outcome run)
  · exact ((inv.setMoves ms).present c rest).refuse _

end Sys2Proof.Machine
end

section
/-! SUPPORT. 70_reset_and_hazards.md R292: no operation of the model recalls an event or a TX transfer. -/

namespace Sys2Proof.Machine

/-- The events and the TX transfers of `s`, of this launch and the earlier ones, are a first part of those of `t`
(70_reset_and_hazards.md R292). -/
def State.OutputsKept (s t : State) : Prop :=
  (s.pastEvents ++ s.events <+: t.pastEvents ++ t.events) ∧ (s.pastTx ++ s.tx <+: t.pastTx ++ t.tx)

theorem State.OutputsKept.refl (s : State) : s.OutputsKept s := ⟨List.prefix_rfl, List.prefix_rfl⟩

theorem State.OutputsKept.trans {s t u : State} (h : s.OutputsKept t) (h' : t.OutputsKept u) : s.OutputsKept u :=
  ⟨h.1.trans h'.1, h.2.trans h'.2⟩

/-- Within a launch the record of the earlier ones stands still, and events and transfers are only appended. -/
theorem State.outputsKept_of_appended {s t : State} (pastEvents : t.pastEvents = s.pastEvents) (pastTx : t.pastTx = s.pastTx)
    (events : s.events <+: t.events) (tx : s.tx <+: t.tx) : s.OutputsKept t := by
  rw [State.OutputsKept, pastEvents, pastTx]
  exact ⟨(List.prefix_append_right_inj _).2 events, (List.prefix_append_right_inj _).2 tx⟩

theorem State.outputsKept_report (s : State) (c : Code) (v : CauseValue) : s.OutputsKept (s.report c v) :=
  outputsKept_of_appended rfl rfl (List.prefix_append _ _) List.prefix_rfl

theorem State.outputsKept_emit (s : State) (es : List Event) : s.OutputsKept (s.emit es) :=
  outputsKept_of_appended rfl rfl (List.prefix_append _ _) List.prefix_rfl

/-- A reset moves the launch's events and transfers to the host's record, and what a cut transfer left after them. -/
theorem State.outputsKept_toReset (s : State) : s.OutputsKept s.toReset := by
  constructor
  · exact List.prefix_append _ _
  · rw [State.toReset_pastTx, State.toReset_tx, List.append_nil, ← List.append_assoc]
    exact List.prefix_append _ _

theorem State.outputsKept_acceptTx (s : State) : s.OutputsKept s.acceptTx := by
  unfold State.acceptTx
  split
  · exact outputsKept_of_appended rfl rfl (List.prefix_append _ _) (List.prefix_append _ _)
  · exact .refl s

theorem State.outputsKept_finishRead (s : State) (l : Launch) : s.OutputsKept (s.finishRead l) := by
  rcases s.finishRead_cases l with ⟨w, evs, tag, -, ⟨-, e⟩ | ⟨-, e⟩⟩ | ⟨-, ⟨-, e⟩ | ⟨-, e⟩⟩ <;> rw [e]
  · exact s.outputsKept_emit evs
  · exact (s.outputsKept_emit evs).trans ((s.emit evs).outputsKept_report okCode .none)
  · exact s.outputsKept_report _ .none
  · exact s.outputsKept_report _ .none

theorem State.outputsKept_advance (s : State) : s.OutputsKept s.advance := by
  rcases s.advance_cases with e | ⟨l, -, ⟨-, -, e⟩ | ⟨-, -, ⟨-, e⟩ | ⟨-, -, e⟩ | ⟨-, -, e⟩⟩⟩ <;> rw [e]
  · exact .refl s
  · exact s.outputsKept_finishRead l
  · exact s.outputsKept_report _ .none
  · exact .refl s
  · exact State.outputsKept_finishRead { s with portWait := .rxRead } l

theorem CommandOutcome.outputsKept {s t : State} (h : CommandOutcome s t) : s.OutputsKept t := by
  cases h with
  | nop | handedOver | waiting | receiving => exact .refl s
  | reset => exact (s.outputsKept_report _ _).trans (State.outputsKept_toReset _)
  | stopRequested | configured | refused | answered | faulted | receiveFaulted => exact s.outputsKept_report _ .none
  | stepped l ready d w evs tag _ =>
    exact (s.outputsKept_emit evs).trans ((s.emit evs).outputsKept_report okCode .none)
  | chunkRead l ready => exact State.outputsKept_finishRead { s with portWait := .rxRead } l

theorem State.outputsKept_hostMove (s : State) (m : HostMove) : s.OutputsKept (s.hostMove m) := by
  cases m with
  | run | supply | stopLine => exact .refl s
  | writeCfg w =>
    simp only [State.hostMove, State.writeCfg]
    split <;> exact .refl s
  | acceptTx => exact s.outputsKept_acceptTx
  | setPort p opens => cases p <;> exact .refl s
  | resetLine => exact s.outputsKept_toReset

/-- Settles O60: of what a step can be, only a reset empties the launch's record, and it keeps it for the host. -/
theorem outputsAreNeverRecalled : Obligations.OutputsAreNeverRecalled := by
  intro s s' h
  rcases step_cases h with
    ⟨m, ms, -, -, rfl⟩ | ⟨ms, -, ⟨-, rfl⟩ | ⟨-, -, rfl⟩ | ⟨-, c, rest, i, -, -, run⟩ | ⟨-, c, rest, w, -, -, rfl⟩⟩
  · exact State.outputsKept_hostMove { s with moves := ms } m
  · exact State.outputsKept_advance { s with moves := ms }
  · exact State.OutputsKept.refl s
  · exact (exec_outcome run).outputsKept
  · exact s.outputsKept_report _ .none

end Sys2Proof.Machine
end

section
/-! SUPPORT. 30_encoding.md R84 to R90: the command words, and which command a step takes. -/

namespace Sys2Proof.Machine

/-! ### The words -/

theorem decode_encode (i : Instr) : decode (encode i) = .ok i := decode_eq_ok.2 rfl

theorem decodeTableWord_encode (i : Instr) : decodeTableWord 8 (encode i).toNat = some i := by
  rw [decodeTableWord, if_pos ⟨le_rfl, (encode i).isLt⟩, BitVec.ofNat_toNat, BitVec.setWidth_eq, decode_encode]

/-- Settles O1: the fourteen words are those of the encoder. -/
theorem opcodeMapDecodes : Obligations.OpcodeMapDecodes :=
  ⟨decode_encode .nop, decode_encode .init, decode_encode .mapfwd, decode_encode .maprev, decode_encode .classify,
    decode_encode .render, decode_encode .encode, decode_encode .send, decode_encode .detect, decode_encode .rxstep,
    decode_encode .rxchunk, decode_encode .receive, decode_encode .stop, decode_encode .reset⟩

/-- Settles O2. -/
theorem encodedCommandDecodesBack : Obligations.EncodedCommandDecodesBack :=
  fun i => ⟨decode_encode i, decodeTableWord_encode i, reservedWord_encode i⟩

/-! ### The block's step -/

theorem blockStep_of_command {s : State} {c : Command} {rest : List Command} {i : Instr} (idle : s.busy = false)
    (hc : s.commands = c :: rest) (hd : decode c.word = .ok i) : blockStep s = exec i (s.present c rest) := by
  simp [blockStep, idle, State.fetch_command hc hd]

theorem blockStep_of_reserved {s : State} {c : Command} {rest : List Command} (idle : s.busy = false)
    (hc : s.commands = c :: rest) (hd : reservedWord c.word = true) :
    blockStep s = .next ((s.present c rest).refuse (.illegalCommand c.word)) := by
  simp [blockStep, idle, State.fetch_illegal hc hd]

theorem blockStep_of_no_command {s : State} (idle : s.busy = false) (hc : s.commands = []) : blockStep s = .next s := by
  simp [blockStep, idle, State.fetch, hc]

theorem step_of_no_moves {s : State} (h : s.moves = []) : step s = blockStep s := by simp [step, h]

theorem step_of_run {s : State} {ms : List HostMove} (h : s.moves = .run :: ms) :
    step s = blockStep { s with moves := ms } := by simp [step, h]

/-- Settles O5: the fetch decodes the word before the command is looked at. -/
theorem stepRunsDecodedCommand : Obligations.StepRunsDecodedCommand := by
  intro s c rest i idle hc hd
  refine ⟨fun no_moves => ?_, fun ms run => ?_⟩
  · rw [step_of_no_moves no_moves]
    exact blockStep_of_command idle hc hd
  · rw [step_of_run run]
    exact blockStep_of_command (s := { s with moves := ms }) idle hc hd

/-- Settles O4: the fetch refuses a reserved word before any other check (60_exceptions.md R269). -/
theorem reservedOpcodeRefused : Obligations.ReservedOpcodeRefused := by
  refine ⟨by decide +kernel, fun s c rest ms reserved idle turn hc => ?_⟩
  rw [step_of_blockTurn turn]
  exact blockStep_of_reserved (s := { s with moves := ms }) idle hc reserved

theorem exists_step_next (s : State) : ∃ t, step s = .next t := by
  have block (s : State) : ∃ t, blockStep s = .next t := by
    unfold blockStep
    split
    · exact ⟨_, rfl⟩
    split
    · exact ⟨_, rfl⟩
    · exact exec_next ..
    · exact ⟨_, rfl⟩
  unfold step
  split
  · exact block _
  · exact block _
  · exact ⟨_, rfl⟩

/-- Settles O7: every arm of the dispatch, of the block's step and of the step ends in a next state. -/
theorem everyStepHasSuccessor : Obligations.EveryStepHasSuccessor := ⟨exec_next, exists_step_next⟩

/-! ### The host's queues while the block is busy -/

/-- `t` has the pending commands, the OPERAND port and the host's later moves of `s` (30_encoding.md R90 (c)). -/
def State.QueuesKept (s t : State) : Prop := t.commands = s.commands ∧ t.operand = s.operand ∧ t.moves = s.moves

theorem State.queuesKept_finishRead (s : State) (l : Launch) : s.QueuesKept (s.finishRead l) := by
  rcases s.finishRead_cases l with ⟨w, evs, tag, -, ⟨-, e⟩ | ⟨-, e⟩⟩ | ⟨-, ⟨-, e⟩ | ⟨-, e⟩⟩ <;>
    (rw [e]; exact ⟨rfl, rfl, rfl⟩)

theorem State.queuesKept_advance (s : State) : s.QueuesKept s.advance := by
  rcases s.advance_cases with e | ⟨l, -, ⟨-, -, e⟩ | ⟨-, -, ⟨-, e⟩ | ⟨-, -, e⟩ | ⟨-, -, e⟩⟩⟩ <;> rw [e]
  · exact ⟨rfl, rfl, rfl⟩
  · exact s.queuesKept_finishRead l
  · exact ⟨rfl, rfl, rfl⟩
  · exact ⟨rfl, rfl, rfl⟩
  · exact State.queuesKept_finishRead { s with portWait := .rxRead } l

/-- Settles O6: a busy block goes on with its operation, and an idle block has nothing to take. -/
theorem commandsTakenOnlyWhenIdle : Obligations.CommandsTakenOnlyWhenIdle := by
  refine ⟨fun s s' ms busy turn h => ?_, fun s ms idle no_command turn => ?_⟩
  · rw [step_of_blockTurn turn, blockStep_of_busy (s := { s with moves := ms }) busy] at h
    cases h
    obtain ⟨cfg, fwd, -⟩ := State.configKept_advance { s with moves := ms }
    obtain ⟨commands, operand, moves⟩ := State.queuesKept_advance { s with moves := ms }
    exact ⟨commands, operand, cfg, fwd, moves⟩
  · rw [step_of_blockTurn turn]
    exact blockStep_of_no_command (s := { s with moves := ms }) idle no_command

end Sys2Proof.Machine
end

section
/-! SUPPORT. 10_state.md R45, 47_system_ops.md, 70_reset_and_hazards.md: reset, NOP, INIT, STOP, the refusals of a faulted
block, and the host's moves. -/

namespace Sys2Proof.Machine

/-! ### Reset -/

/-- Settles O8. -/
theorem resetValues : Obligations.ResetValues :=
  ⟨rfl, rfl, rfl, rfl, rfl, rfl, rfl, rfl, rfl, rfl, rfl, rfl, rfl, rfl, rfl, rfl, rfl, rfl, rfl, rfl⟩

theorem State.leftover_of_no_transfer {s : State} (h : ∀ wave, s.portWait ≠ .txWrite wave) : s.leftover = [] := by
  unfold State.leftover
  split
  next wave pending => exact absurd pending (h wave)
  · rfl

/-- A cut transfer leaves a first part of its waveform, whatever the free draw is (93_implementation_defined.md U15). -/
theorem State.leftover_of_transfer {s : State} {wave : List Sample} (h : s.portWait = .txWrite wave) :
    ∃ part, s.leftover = [part] ∧ part <+: wave := by
  simp only [State.leftover, h]
  exact ⟨_, rfl, List.take_prefix _ _⟩

theorem State.drawsAfterReset_of_idle {s : State} (h : s.portWait = .idle) : s.drawsAfterReset = s.draws := by
  simp only [State.drawsAfterReset, h]

/-- Settles O9: RESET reports its status before it resets, and without a transfer nothing is cut. -/
theorem resetCommandResetsEverything : Obligations.ResetCommandResetsEverything := by
  intro s no_wait
  have dispatch : exec .reset s = .next s.succeed.toReset := rfl
  have nothing_cut : s.succeed.leftover = [] :=
    State.leftover_of_no_transfer (s := s.succeed) fun wave pending => (nomatch no_wait.symm.trans pending)
  have no_draw : s.succeed.drawsAfterReset = s.draws := State.drawsAfterReset_of_idle (s := s.succeed) no_wait
  rw [dispatch, State.toReset, nothing_cut, no_draw, List.append_nil, List.append_assoc s.pastEvents]
  rfl

theorem step_of_hostMove {s : State} {m : HostMove} {ms : List HostMove} (h : s.moves = m :: ms) (hm : m ≠ .run) :
    step s = .next (State.hostMove { s with moves := ms } m) := by
  cases m with
  | run => exact absurd rfl hm
  | _ => simp only [step, h]

/-- Settles O10: the line resets like the command does, and what is left of a transfer is what the reset cut. -/
theorem resetLineResetsEverything : Obligations.ResetLineResetsEverything := by
  intro s ms h
  refine ⟨s.leftover, s.drawsAfterReset, ?_, fun _ => State.leftover_of_transfer, State.leftover_of_no_transfer⟩
  rw [step_of_hostMove h nofun, List.append_assoc]
  rfl

/-! ### NOP, INIT, STOP -/

/-- Settles O11. -/
theorem nopOnlySetsStatus : Obligations.NopOnlySetsStatus := fun _ => rfl

/-- Settles O12: with legal values INIT passes its three checks. -/
theorem initBuildsMap : Obligations.InitBuildsMap := by
  intro s v unfaulted unconfigured values legal
  have dispatch : exec .init s = execInit s := rfl
  have usable := CfgRegs.initValues_eq_some.2 ⟨values, legal⟩
  simp only [dispatch, execInit, unfaulted, unconfigured, usable, Bool.false_eq_true, if_false]
  rfl

theorem exec_stop_of_faulted {s : State} (h : s.faulted = true) : exec .stop s = .next (s.refuse .refusedFaulted) :=
  congrArg Host.Outcome.next (if_pos h)

theorem exec_stop_of_unfaulted {s : State} (h : s.faulted = false) : exec .stop s = .next s.setStop.succeed :=
  congrArg Host.Outcome.next (if_neg (ne_true_of_eq_false h))

/-- Settles O14: the command looks at the fault bit, and the line does not. -/
theorem stopSetsRequest : Obligations.StopSetsRequest :=
  ⟨fun _ => exec_stop_of_unfaulted, fun _ => exec_stop_of_faulted, fun _ _ h => step_of_hostMove h nofun⟩

/-- Settles O18: INIT, STOP and the acceptance of the other ten commands look at the fault bit first. -/
theorem faultedCommandsRefused : Obligations.FaultedCommandsRefused := by
  intro s i not_nop not_reset faulted
  cases needs : i.needsLaunch with
  | true =>
    obtain ⟨k, accepts⟩ := exists_exec_eq_accept needs s
    rw [accepts, State.accept_of_faulted faulted]
    rfl
  | false =>
    cases i with
    | nop => exact absurd rfl not_nop
    | reset => exact absurd rfl not_reset
    | init => exact congrArg Host.Outcome.next (if_pos faulted)
    | stop => exact exec_stop_of_faulted faulted
    | _ => cases needs

/-! ### The host's moves -/

theorem State.writeCfg_of_configured {s : State} (h : s.configured = true) (w : CfgWrite) : s.writeCfg w = s := if_pos h

theorem State.writeCfg_of_unconfigured {s : State} (h : s.configured = false) (w : CfgWrite) :
    s.writeCfg w = { s with cfg := s.cfg.write w } := if_neg (ne_true_of_eq_false h)

/-- Settles O15: each move is one update of the state, and a write is kept or ignored by `CONFIGURED`. -/
theorem hostMovesChangeOnlyTheirTarget : Obligations.HostMovesChangeOnlyTheirTarget := by
  refine ⟨fun s ms => ⟨fun c h => step_of_hostMove h nofun, fun b h => step_of_hostMove h nofun,
    fun b h => step_of_hostMove h nofun⟩, fun s w ms h => ⟨fun configured => ?_, fun unconfigured => ?_⟩⟩
  · rw [step_of_hostMove h nofun]
    exact congrArg Host.Outcome.next (State.writeCfg_of_configured (s := { s with moves := ms }) configured w)
  · refine ⟨s.cfg.write w, ?_, ?_⟩
    · rw [step_of_hostMove h nofun]
      exact congrArg Host.Outcome.next (State.writeCfg_of_unconfigured (s := { s with moves := ms }) unconfigured w)
    · refine ⟨?_, ?_, ?_, ?_, ?_, ?_, ?_, ?_⟩ <;> (rintro v rfl; rfl)

end Sys2Proof.Machine
end

section
/-! SUPPORT. 30_encoding.md R87, 60_exceptions.md R264, R270: what the commands that need the map answer on a block that is
ready in a launch, for a good operand and for a bad one. -/

namespace Sys2Proof.Machine

open Sys2Proof.Config

/-! ### The two checks -/

theorem State.accept_withOperand_of_ready {α : Type} {s : State} {l : Launch} (h : s.Ready l) {o : Launch → Option α} {a : α}
    (ho : o l = some a) (k : Launch → α → State) : (s.accept fun l => s.withOperand (o l) (k l)) = k l a := by
  rw [State.accept_of_ready h, ho, State.withOperand_some]

theorem State.accept_withOperand_of_bad {α : Type} {s : State} {l : Launch} (h : s.Ready l) {o : Launch → Option α}
    (ho : o l = none) (k : Launch → α → State) :
    (s.accept fun l => s.withOperand (o l) (k l)) = s.refuse .badOperand := by
  rw [State.accept_of_ready h, ho, State.withOperand_none]

/-! ### Bad operands -/

theorem symbolOperand_eq_none {l : Launch} {op : Operand}
    (h : Instr.wellFormed .mapfwd op = false ∨ ∃ x, op = .symbol x ∧ symbolSpace l.cfg.bpt ≤ x) :
    symbolOperand l op = none := by
  rcases h with wrong_type | ⟨x, rfl, large⟩
  · cases op with
    | symbol x => cases wrong_type
    | _ => rfl
  · exact if_neg large.not_gt

theorem frequencyOperand_eq_none {i : Instr} {op : Operand} (kind : i.operandKind = .frequency)
    (h : i.wellFormed op = false) : frequencyOperand op = none := by
  rw [Instr.wellFormed, kind] at h
  cases op with
  | frequency f => cases h
  | _ => rfl

theorem bytesOperand_eq_none {i : Instr} {op : Operand} (kind : i.operandKind = .bytes) (h : i.wellFormed op = false) :
    bytesOperand op = none := by
  rw [Instr.wellFormed, kind] at h
  cases op with
  | bytes m => cases h
  | _ => rfl

theorem chunkOperand_eq_none {l : Launch} {op : Operand}
    (h : Instr.wellFormed .detect op = false ∨ ∃ c, op = .chunk c ∧ c.length ≠ l.cfg.n) : chunkOperand l op = none := by
  rcases h with wrong_type | ⟨c, rfl, wrong_length⟩
  · cases op with
    | chunk c => cases wrong_type
    | _ => rfl
  · exact if_neg wrong_length

theorem detectionOperand_eq_none {op : Operand} (h : Instr.wellFormed .rxstep op = false) : detectionOperand op = none := by
  cases op with
  | detection d => exact if_neg (ne_true_of_eq_false h)
  | _ => rfl

/-- Settles O19: each command that takes an operand reads it with its own check, and RXCHUNK and RECEIVE take none. -/
theorem badOperandRefused : Obligations.BadOperandRefused := by
  intro s l i ready needs bad
  cases i with
  | nop | init | stop | reset => cases needs
  | rxchunk | receive => simp [Instr.wellFormed, Instr.operandKind, OperandKind.admits] at bad
  | mapfwd =>
    have bad' : symbolOperand l s.operand = none := symbolOperand_eq_none (by simpa using bad)
    exact congrArg Host.Outcome.next (State.accept_withOperand_of_bad ready bad' _)
  | maprev | classify | render =>
    have bad' : frequencyOperand s.operand = none := frequencyOperand_eq_none rfl (by simpa using bad)
    exact congrArg Host.Outcome.next (State.accept_withOperand_of_bad ready (o := fun _ => _) bad' _)
  | encode | send =>
    have bad' : bytesOperand s.operand = none := bytesOperand_eq_none rfl (by simpa using bad)
    exact congrArg Host.Outcome.next (State.accept_withOperand_of_bad ready (o := fun _ => _) bad' _)
  | detect =>
    have bad' : chunkOperand l s.operand = none := chunkOperand_eq_none (by simpa using bad)
    exact congrArg Host.Outcome.next (State.accept_withOperand_of_bad ready bad' _)
  | rxstep =>
    have bad' : detectionOperand s.operand = none := detectionOperand_eq_none (by simpa using bad)
    exact congrArg Host.Outcome.next (State.accept_withOperand_of_bad ready (o := fun _ => _) bad' _)

/-! ### MAPFWD, MAPREV, RENDER -/

/-- Settles O24: a launch's table has an entry for every symbol below `S`. -/
theorem mapfwdReturnsEntry : Obligations.MapfwdReturnsEntry := by
  intro s l x ready hx small
  have in_table : x < s.fwd.length := ready.length ▸ small
  have operand : symbolOperand l s.operand = some x := by rw [hx]; exact if_pos small
  refine ⟨l.fwd.getD x 0, ?_, ?_⟩
  · rw [ready.fwd_eq, List.getD_eq_getElem _ _ in_table, List.getElem?_eq_getElem in_table]
  · exact congrArg Host.Outcome.next (State.accept_withOperand_of_ready ready operand _)

theorem frequencyOperand_frequency {s : State} {f : Freq} (h : s.operand = .frequency f) :
    frequencyOperand s.operand = some f := by rw [h]; rfl

theorem exec_maprev_of_ready {s : State} {l : Launch} {f : Freq} (h : s.Ready l) (hf : s.operand = .frequency f) :
    exec .maprev s = .next (s.answer (maprevResult l f)) :=
  congrArg Host.Outcome.next
    (State.accept_withOperand_of_ready h (o := fun _ => _) (frequencyOperand_frequency hf) _)

/-- Settles O25: in a table without repeats the lookup finds the entry's only index. -/
theorem maprevInvertsMap : Obligations.MaprevInvertsMap := by
  intro s l f ready built hf
  refine ⟨maprevResult l f, exec_maprev_of_ready ready hf, fun x entry => ?_, fun absent => ?_⟩
  · rw [← ready.fwd_eq] at entry
    rw [maprevResult, (rev_eq_some built.fwd_nodup).2 entry]
  · rw [← ready.fwd_eq] at absent
    rw [maprevResult, rev_eq_none.2 absent]

theorem exec_render_of_ready {s : State} {l : Launch} {f : Freq} (h : s.Ready l) (hf : s.operand = .frequency f) :
    exec .render s = .next (s.answer (.samples (render s.params.hannForm l.cfg.waveform l.cfg.n f))) :=
  congrArg Host.Outcome.next
    (State.accept_withOperand_of_ready h (o := fun _ => _) (frequencyOperand_frequency hf) _)

theorem rawSine_eq (f : Freq) (i : Nat) : rawSine f i = sinTurn (f * i / 48000) := by
  rw [rawSine, sampleRate, Nat.cast_ofNat]

theorem renderSample_eq (form : HannForm) (waveform n : Nat) (f : Freq) (i : Nat) :
    renderSample form waveform n f i = 19 / 20 * (hann form i n * shape waveform (sinTurn (f * i / 48000))) := by
  rw [renderSample, rawSine_eq, outScale]

/-- Settles O29: RENDER answers the rendered chunk, sample by sample the scaled product. -/
theorem renderReturnsTone : Obligations.RenderReturnsTone := by
  intro s l f ready hf
  refine ⟨_, render_length .., fun i hi => ?_, exec_render_of_ready ready hf⟩
  rw [render_getElem? hi, renderSample_eq]

/-! ### ENCODE and SEND -/

theorem bytesOperand_bytes {s : State} {m : List Byte} (h : s.operand = .bytes m) : bytesOperand s.operand = some m := by
  rw [h]; rfl

theorem exec_encode_of_ready {s : State} {l : Launch} {m : List Byte} (h : s.Ready l) (hm : s.operand = .bytes m) :
    exec .encode s = .next
      (if exceedsTxCap s.params (encodeMessage l.cfg.bpt l.cfg.reps m) then s.refuse .txOverflow
        else s.answer (.symbols (encodeMessage l.cfg.bpt l.cfg.reps m))) :=
  congrArg Host.Outcome.next (State.accept_withOperand_of_ready h (o := fun _ => _) (bytesOperand_bytes hm) _)

theorem exec_send_of_ready {s : State} {l : Launch} {m : List Byte} (h : s.Ready l) (hm : s.operand = .bytes m) :
    exec .send s = .next
      (if exceedsTxCap s.params (encodeMessage l.cfg.bpt l.cfg.reps m) ||
          exceedsSampleCap s.params l.cfg.n (encodeMessage l.cfg.bpt l.cfg.reps m) then s.refuse .txOverflow
        else s.txWrite (waveform s.params.hannForm l (encodeMessage l.cfg.bpt l.cfg.reps m))) :=
  congrArg Host.Outcome.next (State.accept_withOperand_of_ready h (o := fun _ => _) (bytesOperand_bytes hm) _)

/-- A message that fits both buffers passes both tests of SEND (60_exceptions.md R270). -/
theorem TxFits.not_exceeds {p : Params} {n : Nat} {syms : List Symbol} (h : TxFits p n syms) :
    (exceedsTxCap p syms || exceedsSampleCap p n syms) = false :=
  Bool.or_eq_false_iff.2 ⟨overCap_eq_false.2 h.1, overCap_eq_false.2 h.2⟩

theorem exec_send_of_fits {s : State} {l : Launch} {m : List Byte} (h : s.Ready l) (hm : s.operand = .bytes m)
    (fits : TxFits s.params l.cfg.n (encodeMessage l.cfg.bpt l.cfg.reps m)) :
    exec .send s = .next (s.txWrite (waveform s.params.hannForm l (encodeMessage l.cfg.bpt l.cfg.reps m))) := by
  rw [exec_send_of_ready h hm, fits.not_exceeds, if_neg Bool.false_ne_true]

/-- Settles O34: the symbols fit, and the preamble stands before the data symbols. -/
theorem encodeReturnsSymbols : Obligations.EncodeReturnsSymbols := by
  intro s l m ready hm fits
  have passes : exceedsTxCap s.params (encodeMessage l.cfg.bpt l.cfg.reps m) = false := overCap_eq_false.2 fits
  rw [exec_encode_of_ready ready hm, passes, if_neg Bool.false_ne_true, ← preamble_eq_flatten]
  rfl

/-- Settles O21: ENCODE makes the first test, and SEND makes both before it looks at the port. -/
theorem txOverflowRefused : Obligations.TxOverflowRefused := by
  intro s l m cap i ready hm exceeding
  rcases exceeding with ⟨rfl | rfl, hcap, more⟩ | ⟨rfl, hcap, more⟩
  · have exceeds : exceedsTxCap s.params (encodeMessage l.cfg.bpt l.cfg.reps m) = true := overCap_iff.2 ⟨cap, hcap, more⟩
    rw [exec_encode_of_ready ready hm, if_pos exceeds]
    rfl
  · have exceeds : exceedsTxCap s.params (encodeMessage l.cfg.bpt l.cfg.reps m) = true := overCap_iff.2 ⟨cap, hcap, more⟩
    rw [exec_send_of_ready ready hm, exceeds, Bool.true_or, if_pos rfl]
    rfl
  · have exceeds : exceedsSampleCap s.params l.cfg.n (encodeMessage l.cfg.bpt l.cfg.reps m) = true :=
      overCap_iff.2 ⟨cap, hcap, more⟩
    rw [exec_send_of_ready ready hm, exceeds, Bool.or_true, if_pos rfl]
    rfl

/-- Settles O37: the tests pass, and the open port takes the joined chunks as one transfer. -/
theorem sendHandsOverOneWaveform : Obligations.SendHandsOverOneWaveform := by
  intro s l m ready hm opens fits
  rw [exec_send_of_fits ready hm fits, State.txWrite, if_pos opens, waveform, ready.fwd_eq, List.flatMap_def]

/-- A transfer waits for the host in every step of the block (20_memory.md R50). -/
theorem State.advance_of_txWrite {s : State} {wave : List Sample} (h : s.portWait = .txWrite wave) : s.advance = s := by
  unfold State.advance
  split
  · rfl
  · rw [h]

/-- Settles O39: only the host's acceptance ends the transfer. -/
theorem txTransferCompletesOnAcceptance : Obligations.TxTransferCompletesOnAcceptance := by
  intro s wave pending
  refine ⟨fun ms h => ?_, fun ms turn => ?_⟩
  · rw [step_of_hostMove h nofun]
    simp only [State.hostMove, State.acceptTx, pending]
    rfl
  · have busy : State.busy { s with moves := ms } = true := by simp [State.busy, pending]
    rw [step_of_blockTurn turn, blockStep_of_busy busy, State.advance_of_txWrite (s := { s with moves := ms }) pending]

end Sys2Proof.Machine
end

section
/-! SUPPORT. 46_receiver_state_machine.md R236 to R245, 60_exceptions.md R264, R268, R273: the receiver commands, the reads and
the loop. -/

namespace Sys2Proof.Machine

/-! ### RXSTEP -/

theorem exec_rxstep_of_ready {s : State} {l : Launch} {d : Detection} (h : s.Ready l) (hd : s.operand = .detection d)
    (good : d.wellFormed = true) :
    exec .rxstep s = .next
      (match rxStep l s.params.msgCap s.work d with
        | .done w evs tag => (State.emit { s with work := w } evs).answer (.tag tag)
        | .msgOverflow => s.fatal .msgOverflow) := by
  have operand : detectionOperand s.operand = some d := by rw [hd]; exact if_pos good
  exact congrArg Host.Outcome.next (State.accept_withOperand_of_ready h (o := fun _ => _) operand _)

/-- Settles O43: RXSTEP writes what the transition function answers, and only a full message keeps it from answering. -/
theorem rxstepAppliesTransition : Obligations.RxstepAppliesTransition := by
  refine ⟨fun s l d w evs tag ready hd good step => ?_, exists_rxStep_none, fun l cap w d hb hw room => ?_⟩
  · rw [exec_rxstep_of_ready ready hd good, step]
    rfl
  · exact exists_rxStep_of_room hb hw (msgFull_some.trans (decide_eq_false room.not_ge)) d

/-! ### A read that returns -/

/-- What the detector makes of the next chunk of the stream (46_receiver_state_machine.md R238). -/
def State.nextDetection (s : State) (l : Launch) : Detection :=
  detect s.params.hannForm l.cfg.n l.cfg.thresh (s.rx.take l.cfg.n)

theorem State.finishRead_done_alone {s : State} {l : Launch} {w : Working} {evs : List Event} {tag : StepTag}
    (alone : s.running = false) (step : rxStep l s.params.msgCap s.work (s.nextDetection l) = .done w evs tag) :
    s.finishRead l = { s with
      rx := s.rx.drop l.cfg.n, portWait := .idle, work := w, result := .tag tag
      status := okCode, statusValue := .none, events := s.events ++ evs ++ [.status okCode] } := by
  rcases s.finishRead_cases l with ⟨w', evs', tag', step', ⟨running, -⟩ | ⟨-, e⟩⟩ | ⟨overflow, -⟩
  · cases alone.symm.trans running
  · cases step.symm.trans step'
    exact e
  · cases step.symm.trans overflow

theorem State.finishRead_done_running {s : State} {l : Launch} {w : Working} {evs : List Event} {tag : StepTag}
    (running : s.running = true) (step : rxStep l s.params.msgCap s.work (s.nextDetection l) = .done w evs tag) :
    s.finishRead l = { s with
      rx := s.rx.drop l.cfg.n, portWait := .idle, work := w, events := s.events ++ evs } := by
  rcases s.finishRead_cases l with ⟨w', evs', tag', step', ⟨-, e⟩ | ⟨alone, -⟩⟩ | ⟨overflow, -⟩
  · cases step.symm.trans step'
    exact e
  · cases running.symm.trans alone
  · cases step.symm.trans overflow

/-- An overflow leaves the samples consumed; inside RECEIVE the exit clears `STOP_REQ` and the working state
(60_exceptions.md R268, R273; log 20). -/
theorem State.finishRead_overflow {s : State} {l : Launch}
    (overflow : rxStep l s.params.msgCap s.work (s.nextDetection l) = .msgOverflow) :
    s.finishRead l = { s with
      rx := s.rx.drop l.cfg.n
      faulted := true, faultCause := 11#4, faultValue := .none, running := false, portWait := .idle
      stopReq := if s.running then false else s.stopReq
      work := if s.running then Working.reset else s.work
      status := 11#4, statusValue := .none, events := s.events ++ [.status 11#4] } := by
  rcases s.finishRead_cases l with ⟨w, evs, tag, step, -⟩ | ⟨-, ⟨running, e⟩ | ⟨alone, e⟩⟩
  · cases overflow.symm.trans step
  · rw [e, running]
    rfl
  · rw [e, alone]
    rfl

/-! ### RXCHUNK and RECEIVE -/

theorem exec_rxchunk_of_ready {s : State} {l : Launch} (h : s.Ready l) :
    exec .rxchunk s = .next (if s.rxOpens then s.enterRead l else s.fatal (.deviceError .rx)) :=
  congrArg Host.Outcome.next (State.accept_of_ready h _)

theorem exec_receive_of_ready {s : State} {l : Launch} (h : s.Ready l) :
    exec .receive s = .next
      (if s.rxOpens then { s with running := true, work := Working.reset } else s.fatalReceive (.deviceError .rx)) :=
  congrArg Host.Outcome.next (State.accept_of_ready h _)

theorem exec_rxchunk_of_chunk {s : State} {l : Launch} (h : s.Ready l) (opens : s.rxOpens = true)
    (there : l.cfg.n ≤ s.rx.length) : exec .rxchunk s = .next (State.finishRead { s with portWait := .rxRead } l) := by
  rw [exec_rxchunk_of_ready h, if_pos opens]
  rcases s.enterRead_cases l with ⟨-, e⟩ | ⟨missing, -⟩
  · rw [e]
  · exact absurd there missing.not_ge

/-- Settles O20: SEND looks at its port when the message fits, and the two receivers before any read. -/
theorem deviceErrorIsFatal : Obligations.DeviceErrorIsFatal := by
  refine ⟨fun s l m ready hm closed fits => ?_, fun s l ready closed => ⟨?_, ?_⟩⟩
  · rw [exec_send_of_fits ready hm fits, State.txWrite, if_neg (ne_true_of_eq_false closed)]
    rfl
  · rw [exec_rxchunk_of_ready ready, if_neg (ne_true_of_eq_false closed)]
    rfl
  · rw [exec_receive_of_ready ready, if_neg (ne_true_of_eq_false closed)]
    rfl

/-- Settles O54. -/
theorem receiveStartsLoop : Obligations.ReceiveStartsLoop := by
  intro s l ready opens
  rw [exec_receive_of_ready ready, if_pos opens, Working.reset]

/-- Settles O52: the read returns at once, or in the step in which the samples are there. -/
theorem rxchunkProcessesOneChunk : Obligations.RxchunkProcessesOneChunk := by
  intro s l w evs tag alone there step
  refine ⟨fun ready opens => ?_, fun ms launch waiting turn => ?_⟩
  · rw [exec_rxchunk_of_chunk ready opens there,
      State.finishRead_done_alone (s := { s with portWait := .rxRead }) alone step]
    rfl
  · rw [step_finishes_read turn launch (.inl waiting) there,
      State.finishRead_done_alone (s := { s with moves := ms, portWait := .rxRead }) alone step]
    rfl

/-- Settles O56: inside RECEIVE the read that returns is the whole iteration, and it does not look at `STOP_REQ`. -/
theorem receiveIterationIsAtomic : Obligations.ReceiveIterationIsAtomic := by
  intro s l ms w evs tag launch running turn position there step
  rw [step_finishes_read turn launch (position.imp_right fun boundary => ⟨running, boundary⟩) there,
    State.finishRead_done_running (s := { s with moves := ms, portWait := .rxRead }) running step]

/-- Settles O50: the character that the full message cannot take, and then each operation that can come to it. -/
theorem msgOverflowIsFatal : Obligations.MsgOverflowIsFatal := by
  refine ⟨fun l w f p x cap b decoding hx byte not_start not_end ascii full => ?_,
    fun s l d ready hd good overflow => ?_, fun s l ready alone opens there overflow => ?_,
    fun s l ms launch turn position there overflow => ?_⟩
  · rw [rxStep_symbol_of_decoding decoding hx]
    exact stepDecoding_overflow byte not_start not_end ascii (msgFull_some.trans (decide_eq_true full))
  · rw [exec_rxstep_of_ready ready hd good, overflow]
    rfl
  · rw [exec_rxchunk_of_chunk ready opens there,
      State.finishRead_overflow (s := { s with portWait := .rxRead }) overflow, alone]
    rfl
  · rw [step_finishes_read turn launch position there,
      State.finishRead_overflow (s := { s with moves := ms, portWait := .rxRead }) overflow, Working.reset]

/-! ### The waits and the iteration boundary -/

theorem State.advance_of_boundary {s : State} {l : Launch} (hl : s.launch = some l) (running : s.running = true)
    (no_wait : s.portWait = .idle) : s.advance = s.loopBoundary l := by
  simp only [State.advance, hl, no_wait, running, if_true]

theorem State.advance_of_rxRead {s : State} {l : Launch} (hl : s.launch = some l) (waiting : s.portWait = .rxRead) :
    s.advance = s.continueRead l := by
  simp only [State.advance, hl, waiting]

theorem State.enterRead_of_missing {s : State} {l : Launch} (missing : s.rx.length < l.cfg.n) :
    s.enterRead l = { s with portWait := .rxRead } := by
  rcases s.enterRead_cases l with ⟨there, -⟩ | ⟨-, e⟩
  · exact absurd there missing.not_ge
  · exact e

theorem State.continueRead_of_missing {s : State} {l : Launch} (missing : s.rx.length < l.cfg.n) :
    s.continueRead l = s := if_neg (by simpa [State.chunkReady] using missing)

theorem step_of_boundary {s : State} {l : Launch} {ms : List HostMove} (turn : s.BlockTurn ms) (hl : s.launch = some l)
    (running : s.running = true) (no_wait : s.portWait = .idle) :
    step s = .next (State.loopBoundary { s with moves := ms } l) := by
  have busy : State.busy { s with moves := ms } = true := by simp [State.busy, running]
  rw [step_of_blockTurn turn, blockStep_of_busy busy,
    State.advance_of_boundary (s := { s with moves := ms }) hl running no_wait]

/-- Settles O53: a read that begins or goes on without its samples waits. -/
theorem rxReadBlocksWithoutSamples : Obligations.RxReadBlocksWithoutSamples := by
  refine ⟨fun s l ready opens missing => ?_, fun s l ms launch running no_wait no_stop missing turn => ?_,
    fun s l ms launch waiting missing turn => ?_⟩
  · rw [exec_rxchunk_of_ready ready, if_pos opens, State.enterRead_of_missing missing]
  · rw [step_of_boundary turn launch running no_wait, State.loopBoundary, if_neg (ne_true_of_eq_false no_stop),
      State.enterRead_of_missing (s := { s with moves := ms }) missing]
  · have busy : State.busy { s with moves := ms } = true := by simp [State.busy, waiting]
    rw [step_of_blockTurn turn, blockStep_of_busy busy,
      State.advance_of_rxRead (s := { s with moves := ms }) launch waiting,
      State.continueRead_of_missing (s := { s with moves := ms }) missing]

/-- Settles O55: the boundary looks at `STOP_REQ` before it reads. -/
theorem receiveStopsAtBoundary : Obligations.ReceiveStopsAtBoundary := by
  intro s l ms launch running no_wait stop turn
  rw [step_of_boundary turn launch running no_wait, State.loopBoundary, if_pos stop]
  rfl

end Sys2Proof.Machine
end

section
/-! SUPPORT. 41_seed_derivation.md R138, R139: the three stages of the generator lose no word. -/

namespace Sys2Proof.Machine

/-- A word xored with its own left shift determines the word: from the lowest bit up, each bit is the result's bit and a bit
already known. -/
theorem xor_shiftLeft_injective {n k : Nat} (hk : 0 < k) : Function.Injective fun x : BitVec n => x ^^^ (x <<< k) := by
  intro x y h
  have bits (i : Nat) : (x ^^^ (x <<< k)).getLsbD i = (y ^^^ (y <<< k)).getLsbD i := congrArg (·.getLsbD i) h
  apply BitVec.eq_of_getLsbD_eq
  intro i
  induction i using Nat.strong_induction_on with
  | _ i ih =>
    intro hi
    have bit := bits i
    simp only [BitVec.getLsbD_xor, BitVec.getLsbD_shiftLeft] at bit
    by_cases low : i < k
    · simpa [low] using bit
    · rw [ih (i - k) (by omega) (by omega)] at bit
      simpa using bit

/-- The same for the right shift, from the highest bit down. -/
theorem xor_shiftRight_injective {n k : Nat} (hk : 0 < k) : Function.Injective fun x : BitVec n => x ^^^ (x >>> k) := by
  intro x y h
  have bits (i : Nat) : (x ^^^ (x >>> k)).getLsbD i = (y ^^^ (y >>> k)).getLsbD i := congrArg (·.getLsbD i) h
  have from_top : ∀ j i, n ≤ i + j → x.getLsbD i = y.getLsbD i := by
    intro j
    induction j with
    | zero =>
      intro i hi
      rw [BitVec.getLsbD_of_ge x i hi, BitVec.getLsbD_of_ge y i hi]
    | succ j ih =>
      intro i hi
      have bit := bits i
      simp only [BitVec.getLsbD_xor, BitVec.getLsbD_ushiftRight] at bit
      rw [ih (k + i) (by omega)] at bit
      simpa using bit
  exact BitVec.eq_of_getLsbD_eq fun i _ => from_top n i (Nat.le_add_left _ _)

theorem xs32_injective : Function.Injective xs32 :=
  (xor_shiftLeft_injective (k := 5) (by norm_num)).comp
    ((xor_shiftRight_injective (k := 17) (by norm_num)).comp (xor_shiftLeft_injective (k := 13) (by norm_num)))

theorem xs32_zero : xs32 0#32 = 0#32 := by decide

theorem startValue_ne_zero (seed : Word32) : startValue seed ≠ 0#32 := by
  unfold startValue
  split
  · decide
  · assumption

/-- Settles O23: each stage is injective, and only 0 advances to 0. -/
theorem generatorIsBijective : Obligations.GeneratorIsBijective := by
  refine ⟨Finite.injective_iff_bijective.1 xs32_injective, xs32_zero, fun seed k reaches_zero => startValue_ne_zero seed ?_⟩
  exact xs32_injective.iterate k (reaches_zero.trans (Function.iterate_fixed xs32_zero k).symm)

end Sys2Proof.Machine
end

section
/-! SUPPORT. 10_state.md R23: the host's rounding of the chunk length. -/

namespace Sys2Proof.Machine

theorem sampleRate_cast : (Config.sampleRate : Rat) = 48000 := by norm_num [Config.sampleRate]

/-- A duration that is not negative lies between a number of samples and the next one. -/
theorem exists_floor_samples {duration : Rat} (h : 0 ≤ duration) :
    ∃ m : Nat, ⌊48000 * duration⌋ = m ∧ (m : Rat) ≤ 48000 * duration ∧ 48000 * duration < (m : Rat) + 1 := by
  obtain ⟨m, hm⟩ := Int.eq_ofNat_of_zero_le (Int.floor_nonneg.2 (by positivity : 0 ≤ 48000 * duration))
  obtain ⟨floor_le, lt_floor⟩ := Int.floor_eq_iff.1 hm
  exact ⟨m, hm, floor_le, lt_floor⟩

/-- What the rounding answers: the number of samples below, or the one above, by the fractional part and the parity. -/
theorem chunkLength_cases {duration : Rat} {m : Nat} (hm : ⌊48000 * duration⌋ = m) :
    (48000 * duration - m < 1 / 2 ∧ chunkLength duration = m) ∨
    (1 / 2 < 48000 * duration - m ∧ chunkLength duration = m + 1) ∨
    (48000 * duration - m = 1 / 2 ∧ chunkLength duration % 2 = 0 ∧
      (chunkLength duration = m ∨ chunkLength duration = m + 1)) := by
  have next : ((m : Int) + 1).toNat = m + 1 := by omega
  simp only [chunkLength, sampleRate_cast, hm, Int.cast_natCast, Int.toNat_natCast, next]
  split
  next low => exact .inl ⟨low, rfl⟩
  next not_low =>
  split
  next high => exact .inr (.inl ⟨high, rfl⟩)
  next not_high =>
  refine .inr (.inr ⟨le_antisymm (not_lt.1 not_high) (not_lt.1 not_low), ?_⟩)
  split
  next even => exact ⟨by omega, .inl rfl⟩
  next odd => exact ⟨by omega, .inr rfl⟩

/-- Settles O28: below, above and at the half. -/
theorem chunkLengthRoundsHalfToEven : Obligations.ChunkLengthRoundsHalfToEven := by
  intro duration h
  obtain ⟨m, hm, floor_le, lt_floor⟩ := exists_floor_samples h
  rcases chunkLength_cases hm with ⟨low, e⟩ | ⟨high, e⟩ | ⟨half, even, e⟩
  · rw [e, abs_of_nonneg (by linarith)]
    exact ⟨low.le, fun tie => absurd tie low.ne⟩
  · rw [e, Nat.cast_add_one, abs_of_neg (by linarith)]
    exact ⟨by linarith, fun tie => by linarith⟩
  · refine ⟨?_, fun _ => even⟩
    rcases e with e | e <;> rw [e, abs_le] <;> push_cast <;> constructor <;> linarith

end Sys2Proof.Machine
end

section
/-! SUPPORT. 42_tone_synthesizer.md R161: the symmetries of the raw sine, and what they give for a chunk. -/

namespace Sys2Proof.Machine

open Sys2Proof.Config

/-- A sample rate more is a whole number of turns more at every sample (42_tone_synthesizer.md R161 (b)). -/
theorem rawSine_add_rate (f : Freq) (i : Nat) : rawSine (f + 48000) i = rawSine f i := by
  have angle : (f + 48000) * (i : Rat) / 48000 = f * i / 48000 + ((i : Int) : Rat) := by push_cast; ring
  rw [rawSine_eq, rawSine_eq, angle, sinTurn_add_int]

theorem rawSine_neg (f : Freq) (i : Nat) : rawSine (-f) i = -rawSine f i := by
  rw [rawSine_eq, rawSine_eq, neg_mul, neg_div, sinTurn_neg]

theorem rawSine_rate_sub (f : Freq) (i : Nat) : rawSine (48000 - f) i = -rawSine f i := by
  rw [sub_eq_neg_add, rawSine_add_rate, rawSine_neg]

theorem rawSine_zero (i : Nat) : rawSine 0 i = 0 := by
  rw [rawSine_eq, zero_mul, zero_div, sinTurn_zero]

/-- Half the sample rate is its own mirror image, so its sine is its own negative (42_tone_synthesizer.md R161 (a)). -/
theorem rawSine_half_rate (i : Nat) : rawSine 24000 i = 0 := by
  have mirrored := rawSine_rate_sub 24000 i
  norm_num at mirrored
  linarith

theorem render_of_rawSine_eq_zero {f : Freq} (h : ∀ i, rawSine f i = 0) (form : HannForm) (waveform n : Nat) :
    render form waveform n f = List.replicate n 0 := by
  have silent : renderSample form waveform n f = fun _ => 0 := by
    funext i
    rw [renderSample, h, shape_zero, mul_zero, mul_zero]
  rw [render, silent, List.map_const', List.length_range]

theorem render_of_rawSine_eq {f g : Freq} (h : ∀ i, rawSine f i = rawSine g i) (form : HannForm) (waveform n : Nat) :
    render form waveform n f = render form waveform n g := by
  have same : renderSample form waveform n f = renderSample form waveform n g := by
    funext i
    rw [renderSample, renderSample, h]
  rw [render, render, same]

/-- Both shapes are odd, so a negated sine gives the negated chunk (42_tone_synthesizer.md R161 (c), (d)). -/
theorem render_of_rawSine_eq_neg {f g : Freq} (h : ∀ i, rawSine f i = -rawSine g i) (form : HannForm) (waveform n : Nat) :
    render form waveform n f = (render form waveform n g).map fun y => -y := by
  have negated : renderSample form waveform n f = (fun y => -y) ∘ renderSample form waveform n g := by
    funext i
    rw [Function.comp_apply, renderSample, renderSample, h, shape_neg, mul_neg, mul_neg]
  rw [render, render, negated, List.map_map]

/-- Settles O32: the chunk depends on the raw sine alone. -/
theorem renderCornerCases : Obligations.RenderCornerCases := by
  intro form waveform n
  exact ⟨render_of_rawSine_eq_zero rawSine_zero form waveform n, render_of_rawSine_eq_zero rawSine_half_rate form waveform n,
    fun f => render_of_rawSine_eq (rawSine_add_rate f) form waveform n,
    fun f => render_of_rawSine_eq_neg (rawSine_rate_sub f) form waveform n,
    fun f => render_of_rawSine_eq_neg (rawSine_neg f) form waveform n⟩

end Sys2Proof.Machine
end

section
/-! SUPPORT. 42_tone_synthesizer.md R152 to R157, 45_spectral_detector.md R202 to R204: how far the window, the shaped sine, the
rendered sample and the magnitude lie from the real formulas. -/

namespace Sys2Proof.Machine

open Sys2Proof.Config

/-! ### The window and the shapes -/

/-- The window of the spec over the real numbers (42_tone_synthesizer.md R154, R163). -/
noncomputable def realHann (form : HannForm) (i n : Nat) : ℝ :=
  1 / 2 - 1 / 2 * Real.cos (2 * Real.pi * i / (windowSpan form n : Rat))

/-- The shapes of the spec over the real numbers (42_tone_synthesizer.md R153). -/
noncomputable def realShape (waveform : Nat) (x : ℝ) : ℝ :=
  if waveform = 0 then min 1 (max (-1) (1.5 * x)) else Real.sign x

theorem hann_near (form : HannForm) (i n : Nat) : |((hann form i n : Rat) : ℝ) - realHann form i n| ≤ 6 / 10 ^ 10 := by
  have near := cosTurn_near ((i : Rat) / windowSpan form n)
  have angle : 2 * Real.pi * (((i : Rat) / windowSpan form n : Rat) : ℝ) =
      2 * Real.pi * i / (windowSpan form n : Rat) := by
    push_cast
    ring
  rw [angle] at near
  rw [hann, realHann]
  push_cast
  rw [abs_le] at near ⊢
  constructor <;> linarith

theorem abs_hann_le_one (form : HannForm) (i n : Nat) : |((hann form i n : Rat) : ℝ)| ≤ 1 := by
  obtain ⟨nonneg, le_one⟩ := hann_mem form i n
  rw [abs_of_nonneg (by exact_mod_cast nonneg)]
  exact_mod_cast le_one

theorem abs_realShape_le_one (waveform : Nat) (x : ℝ) : |realShape waveform x| ≤ 1 := by
  unfold realShape
  split
  · exact abs_le.2 ⟨le_min (by norm_num) (le_max_left _ _), min_le_left _ _⟩
  · rcases Real.sign_apply_eq x with e | e | e <;> rw [e] <;> norm_num

/-- The square shape is the sign (42_tone_synthesizer.md R153). -/
theorem cast_shape_square {waveform : Nat} (h : waveform ≠ 0) (a : Rat) :
    ((shape waveform a : Rat) : ℝ) = Real.sign (a : ℝ) := by
  rw [shape, if_neg h]
  rcases lt_trichotomy a 0 with neg | rfl | pos
  · rw [if_neg neg.not_gt, if_pos neg, Real.sign_of_neg (by exact_mod_cast neg)]
    norm_num
  · simp
  · rw [if_pos pos, Real.sign_of_pos (by exact_mod_cast pos)]
    norm_num

/-- Clipping brings two values no farther apart, and the square shape sees the sign alone. -/
theorem shape_near {a : Rat} {x e : ℝ} (near : |(a : ℝ) - x| ≤ e) (same_sign : Real.sign (a : ℝ) = Real.sign x)
    (waveform : Nat) : |((shape waveform a : Rat) : ℝ) - realShape waveform x| ≤ 3 / 2 * e := by
  have e_nonneg : 0 ≤ e := (abs_nonneg _).trans near
  by_cases clipped : waveform = 0
  · rw [shape, realShape, if_pos clipped, if_pos clipped, clipGain]
    push_cast
    calc |min 1 (max (-1) (3 / 2 * (a : ℝ))) - min 1 (max (-1) (1.5 * x))|
        ≤ max |(1 : ℝ) - 1| |max (-1) (3 / 2 * (a : ℝ)) - max (-1) (1.5 * x)| := abs_min_sub_min_le_max _ _ _ _
      _ = |max (-1) (3 / 2 * (a : ℝ)) - max (-1) (1.5 * x)| := by rw [sub_self, abs_zero, max_eq_right (abs_nonneg _)]
      _ ≤ max |(-1 : ℝ) - -1| |3 / 2 * (a : ℝ) - 1.5 * x| := abs_max_sub_max_le_max _ _ _ _
      _ = |3 / 2 * ((a : ℝ) - x)| := by
        rw [sub_self, abs_zero, max_eq_right (abs_nonneg _)]
        norm_num [mul_sub]
      _ ≤ 3 / 2 * e := by
        rw [abs_mul, abs_of_pos (by norm_num)]
        gcongr
  · rw [cast_shape_square clipped, realShape, if_neg clipped, same_sign, sub_self, abs_zero]
    positivity

/-- Two products of factors within 1 are as near as their factors together. -/
theorem abs_mul_sub_mul_le {a b A B d e : ℝ} (ha : |a| ≤ 1) (hB : |B| ≤ 1) (first : |a - A| ≤ d) (second : |b - B| ≤ e) :
    |a * b - A * B| ≤ d + e :=
  calc |a * b - A * B| = |(a - A) * B + a * (b - B)| := by ring_nf
    _ ≤ |(a - A) * B| + |a * (b - B)| := abs_add_le _ _
    _ = |a - A| * |B| + |a| * |b - B| := by rw [abs_mul, abs_mul]
    _ ≤ d * 1 + 1 * e := by gcongr; exact (abs_nonneg _).trans first
    _ = d + e := by ring

/-! ### The rendered sample -/

/-- The angle of sample `i` of a tone of frequency `f`, in radians (42_tone_synthesizer.md R152). -/
theorem sampleAngle_eq (f : Freq) (i : Nat) :
    2 * Real.pi * ((f * i / 48000 : Rat) : ℝ) = 2 * Real.pi * f * i / 48000 := by
  push_cast
  ring

/-- Settles O33: window and shape are each near their real values and within 1. -/
theorem renderTracksRealFormula : Obligations.RenderTracksRealFormula := by
  intro form waveform n f i _ _
  have sine_near := sinTurn_near (f * i / 48000)
  have same_sign := sign_sinTurn (f * i / 48000)
  rw [sampleAngle_eq] at sine_near same_sign
  have product_near := abs_mul_sub_mul_le (abs_hann_le_one form i n)
    (abs_realShape_le_one waveform (Real.sin (2 * Real.pi * f * i / 48000))) (hann_near form i n)
    (shape_near sine_near same_sign waveform)
  rw [renderSample_eq]
  change |_ - 0.95 * (realHann form i n * realShape waveform (Real.sin (2 * Real.pi * f * i / 48000)))| ≤ _
  rw [abs_le] at product_near ⊢
  push_cast
  constructor <;> linarith

/-! ### The magnitude -/

/-- The modulus of a complex number moves by at most as much as its two parts together. -/
theorem abs_sqrt_sub_sqrt_le (a b A B : ℝ) : |√(a ^ 2 + b ^ 2) - √(A ^ 2 + B ^ 2)| ≤ |a - A| + |b - B| := by
  have modulus (x y : ℝ) : √(x ^ 2 + y ^ 2) = ‖(⟨x, y⟩ : ℂ)‖ := (Complex.norm_eq_sqrt_sq_add_sq ⟨x, y⟩).symm
  rw [modulus, modulus]
  exact (abs_norm_sub_norm_le _ _).trans (Complex.norm_le_abs_re_add_abs_im _)

/-- A sum of windowed samples against a wave lies near the real one when the wave does, in proportion to the samples
(45_spectral_detector.md R202). -/
theorem windowed_sum_near (form : HannForm) (n : Nat) (c : List Sample) {g : Nat → Rat} {G : Nat → ℝ}
    (near : ∀ i, |((g i : Rat) : ℝ) - G i| ≤ 11 / 10 ^ 10) (within : ∀ i, |G i| ≤ 1) :
    |((((List.range n).map fun i => windowed form n c i * g i).sum : Rat) : ℝ) -
        ∑ i ∈ Finset.range n, realHann form i n * (c.getD i 0 : Rat) * G i| ≤
      2 / 10 ^ 9 * ∑ i ∈ Finset.range n, |((c.getD i 0 : Rat) : ℝ)| := by
  have as_finset_sum : ((List.range n).map fun i => windowed form n c i * g i).sum =
      ∑ i ∈ Finset.range n, windowed form n c i * g i := rfl
  rw [as_finset_sum, Rat.cast_sum, ← Finset.sum_sub_distrib, Finset.mul_sum]
  refine (Finset.abs_sum_le_sum_abs _ _).trans (Finset.sum_le_sum fun i _ => ?_)
  have product_near := abs_mul_sub_mul_le (abs_hann_le_one form i n) (within i) (hann_near form i n) (near i)
  have factored : ((windowed form n c i * g i : Rat) : ℝ) - realHann form i n * (c.getD i 0 : Rat) * G i =
      ((hann form i n : Rat) * (g i : Rat) - realHann form i n * G i) * ((c.getD i 0 : Rat) : ℝ) := by
    rw [windowed]
    push_cast
    ring
  rw [factored, abs_mul]
  gcongr
  exact product_near.trans (by norm_num)

/-- The angle of bin `k` at sample `i`, in radians (45_spectral_detector.md R202). -/
theorem binAngle_eq (k i n : Nat) :
    2 * Real.pi * (((k : Rat) * (i : Rat) / (n : Rat) : Rat) : ℝ) = 2 * Real.pi * k * i / n := by
  push_cast
  ring

theorem spectrumRe_near (form : HannForm) (n : Nat) (c : List Sample) (k : Nat) :
    |((spectrumRe form n c k : Rat) : ℝ) - ∑ i ∈ Finset.range n,
        realHann form i n * (c.getD i 0 : Rat) * Real.cos (2 * Real.pi * k * i / n)| ≤
      2 / 10 ^ 9 * ∑ i ∈ Finset.range n, |((c.getD i 0 : Rat) : ℝ)| :=
  windowed_sum_near form n c (fun i => binAngle_eq k i n ▸ cosTurn_near _) fun _ => Real.abs_cos_le_one _

theorem neg_spectrumIm_near (form : HannForm) (n : Nat) (c : List Sample) (k : Nat) :
    |((-spectrumIm form n c k : Rat) : ℝ) - ∑ i ∈ Finset.range n,
        realHann form i n * (c.getD i 0 : Rat) * Real.sin (2 * Real.pi * k * i / n)| ≤
      2 / 10 ^ 9 * ∑ i ∈ Finset.range n, |((c.getD i 0 : Rat) : ℝ)| := by
  rw [spectrumIm, neg_neg]
  exact windowed_sum_near form n c (fun i => binAngle_eq k i n ▸ sinTurn_near _) fun _ => Real.abs_sin_le_one _

/-- The magnitude against the modulus of the model's own spectrum (45_spectral_detector.md R204). -/
theorem magnitude_near_modulus (form : HannForm) (n : Nat) (c : List Sample) (k : Nat) :
    |((magnitude form n c k : Rat) : ℝ) -
        √(((spectrumRe form n c k : Rat) : ℝ) ^ 2 + ((-spectrumIm form n c k : Rat) : ℝ) ^ 2)| ≤ 1 / 10 ^ 9 := by
  have near := (sqrtNum_near (q := spectrumRe form n c k ^ 2 + spectrumIm form n c k ^ 2) (by positivity)).2
  rw [Rat.cast_neg, neg_sq]
  rw [Rat.cast_add, Rat.cast_pow, Rat.cast_pow] at near
  exact near

/-- Settles O41: the root is near the modulus of the model's spectrum, and both parts of the spectrum are near the real
ones. -/
theorem magnitudeTracksRealTransform : Obligations.MagnitudeTracksRealTransform := by
  intro form n c k _ _
  have re_near := spectrumRe_near form n c k
  have im_near := neg_spectrumIm_near form n c k
  have modulus_near := abs_sqrt_sub_sqrt_le (spectrumRe form n c k : Rat) (-spectrumIm form n c k : Rat)
    (∑ i ∈ Finset.range n, realHann form i n * (c.getD i 0 : Rat) * Real.cos (2 * Real.pi * k * i / n))
    (∑ i ∈ Finset.range n, realHann form i n * (c.getD i 0 : Rat) * Real.sin (2 * Real.pi * k * i / n))
  have total_nonneg : 0 ≤ ∑ i ∈ Finset.range n, |((c.getD i 0 : Rat) : ℝ)| := Finset.sum_nonneg fun _ _ => abs_nonneg _
  refine (abs_sub_le _ _ _).trans ((add_le_add (magnitude_near_modulus form n c k) modulus_near).trans ?_)
  linarith

end Sys2Proof.Machine
end

section
/-! SUPPORT. 45_spectral_detector.md R210: what the detector sees of a chunk is the windowed chunk. -/

namespace Sys2Proof.Machine

open Sys2Proof.Config

theorem magnitude_congr {form : HannForm} {n : Nat} {c d : List Sample}
    (h : ∀ i, i < n → windowed form n c i = windowed form n d i) : magnitude form n c = magnitude form n d := by
  have same_sums (g : Nat → Rat) : ((List.range n).map fun i => windowed form n c i * g i) =
      (List.range n).map fun i => windowed form n d i * g i :=
    List.map_congr_left fun i hi => by rw [h i (List.mem_range.1 hi)]
  funext k
  rw [magnitude, magnitude, spectrumRe, spectrumRe, spectrumIm, spectrumIm, same_sums, same_sums]

/-- Chunks that are alike under the window are detected alike. -/
theorem detect_congr {form : HannForm} {n : Nat} {c d : List Sample}
    (h : ∀ i, i < n → windowed form n c i = windowed form n d i) (thresh : Rat) :
    detect form n thresh c = detect form n thresh d := by
  rw [detect, detect, magnitudes, magnitudes, magnitude_congr h]

/-- The symmetric window is zero at both ends, so the end samples do not matter (45_spectral_detector.md R210 (c)). -/
theorem windowed_symmetric_congr {n : Nat} (hn : 2 ≤ n) {c d : List Sample}
    (inside : ∀ i, 0 < i → i < n - 1 → c.getD i 0 = d.getD i 0) (i : Nat) (hi : i < n) :
    windowed .symmetric n c i = windowed .symmetric n d i := by
  rw [windowed, windowed]
  rcases i.eq_zero_or_pos with rfl | pos
  · rw [hann_zero, zero_mul, zero_mul]
  rcases (Nat.le_sub_one_of_lt hi).lt_or_eq with inner | last
  · rw [inside i pos inner]
  · obtain ⟨m, rfl⟩ : ∃ m, n = m + 1 := ⟨n - 1, by omega⟩
    obtain rfl : i = m := last
    rw [hann_symmetric_last pos, zero_mul, zero_mul]

theorem magnitude_replicate_zero (form : HannForm) (n k : Nat) : magnitude form n (List.replicate n 0) k = 0 := by
  have silent (i : Nat) : windowed form n (List.replicate n 0) i = 0 := by
    rw [windowed, List.getD_eq_getElem?_getD, List.getElem?_getD_replicate_default_eq, mul_zero]
  simp [magnitude, spectrumRe, spectrumIm, silent]

/-- Among equal magnitudes the search keeps bin 0 (45_spectral_detector.md R205, R210 (a)). -/
theorem detect_replicate_zero (form : HannForm) (n : Nat) (thresh : Rat) :
    detect form n thresh (List.replicate n 0) = if 0 < thresh then .silence else .tone 0 0 := by
  obtain ⟨k, strongest, found⟩ := detect_spec form n thresh (List.replicate n 0)
  obtain rfl : k = 0 := by
    by_contra later
    have below := strongest.lowest 0 (Nat.pos_of_ne_zero later)
    rw [magnitude_replicate_zero, magnitude_replicate_zero] at below
    exact lt_irrefl _ below
  rw [found, magnitude_replicate_zero, binFrequency_eq, Nat.cast_zero, zero_mul, zero_div]

/-- Settles O42: with `N = 2` there are no samples but the two end ones. -/
theorem detectorCornerCases : Obligations.DetectorCornerCases := by
  intro n thresh hn
  refine ⟨detect_replicate_zero .symmetric n thresh,
    fun c d inside => detect_congr (windowed_symmetric_congr hn inside) thresh, ?_⟩
  rintro rfl c
  have no_inside : ∀ i, 0 < i → i < 2 - 1 → c.getD i 0 = (List.replicate 2 (0 : Rat)).getD i 0 := by
    intro i pos inner
    omega
  rw [detect_congr (windowed_symmetric_congr hn no_inside), detect_replicate_zero]

end Sys2Proof.Machine
end
